-- ==== Sys2Proof/Word.lean ====
section
/-! DEFINITION. The word types of the machine (00_scope.md R8, R9, R10): bytes, words, doublewords and the 64-bit
contents of an MMX register. Plain names for bit vectors, so that the library's lemmas apply. -/

namespace Sys2Proof

/-- A byte, the smallest addressable unit (20_memory.md R70). -/
abbrev Byte := BitVec 8

/-- A 16-bit word. -/
abbrev Word := BitVec 16

/-- A 32-bit doubleword: a general-purpose register, an offset, an address. -/
abbrev Dword := BitVec 32

/-- 64 bits: an MMX register or a `mem64` operand (10_state.md R24). -/
abbrev Qword := BitVec 64

end Sys2Proof
end

