-- ==== Sys2Proof/Config.lean ====
section
/-! DEFINITION. What the spec leaves to the implementation or leaves open: parameters and free values. None has a
body, so no proof can know its value, and a claim that mentions one holds whatever it is. -/

namespace Sys2Proof.Config

/-- `STEPPING`, a 4-bit parameter (00_scope.md R8, 47_system.md R265; D1; log 1). -/
opaque stepping : BitVec 4

/-- `BIST_RESULT`, the self-test result that `State.reset` has in EAX (00_scope.md R8, 70_reset_and_hazards.md
R352; log 19). -/
opaque bistResult : Dword

/-- What a CPUID output register that the tables call Reserved or Undefined receives at the given draw: register 0 EAX,
3 EBX, 1 ECX, 2 EDX (47_system.md R273; D13; log 16). -/
opaque cpuidFree : Nat → Fin 8 → Dword

/-- What the bits of TR12 other than bit 3 read as at the given draw (10_state.md R43; D17; log 21). -/
opaque tr12Free : Nat → Qword

/-- The processor clock cycles from the last load or read of the time stamp counter to the read that makes the given
draw (10_state.md R44; D16; log 20). -/
opaque clockCycles : Nat → Nat

/-- What a byte of a device reads as: the draw, and the byte's physical address (20_memory.md R83; log 42). -/
opaque deviceByte : Nat → Nat → Byte

end Sys2Proof.Config
end

