-- ==== Sys2Proof/Syntax.lean ====
section
/-! DEFINITION. The syntax of the 62 instruction forms of spec/opcode_table.json: prefixes, addressing modes,
operands, and one constructor for each row. An operand keeps which encoding it has (the displacement's size, the SIB
byte's fields), since the instruction's length depends on it (30_encoding.md R111). -/

namespace Sys2Proof

/-- The number of an MMX register, MM[0] to MM[7] (10_state.md R21). -/
abbrev MmReg := Fin 8

/-- The number of a general-purpose register: 0 EAX, 1 ECX, 2 EDX, 3 EBX, 4 ESP, 5 EBP, 6 ESI, 7 EDI (10_state.md R33). -/
abbrev Gpr := Fin 8

/-- The six segment registers (10_state.md R39). -/
inductive SegReg where
  | es | cs | ss | ds | fs | gs
deriving DecidableEq, Repr

/-- The prefixes an MMX instruction may carry, each at most once (30_encoding.md R101, R115, R117, R118; D11). -/
structure Prefixes where
  /-- LOCK, F0h. -/
  lock : Bool := false
  /-- A segment override. -/
  seg : Option SegReg := none
  /-- Address size override, 67h. -/
  addrSize : Bool := false
deriving DecidableEq, Repr

/-- The displacement that `mod` = 00b, 01b, 10b selects under 32-bit addressing (30_encoding.md R105). -/
inductive Disp32 where
  | none
  | d8 (d : Byte)
  | d32 (d : Dword)
deriving DecidableEq, Repr

/-- The displacement that `mod` = 00b, 01b, 10b selects under 16-bit addressing (30_encoding.md R107). -/
inductive Disp16 where
  | none
  | d8 (d : Byte)
  | d16 (d : Word)
deriving DecidableEq, Repr

/-- The memory operand forms of 32-bit addressing (30_encoding.md R105, R106). -/
inductive Addr32 where
  /-- A base register and a displacement; `rm` is the base's number, neither 4 nor (with no displacement) 5. -/
  | base (r : Gpr) (d : Disp32)
  /-- `mod` = 00b, `rm` = 101b: a disp32 alone. -/
  | abs (d : Dword)
  /-- A SIB byte with a base register; index 4 means no index. -/
  | sib (scale : Fin 4) (index : Gpr) (base : Gpr) (d : Disp32)
  /-- A SIB byte with `base` = 101b under `mod` = 00b: a disp32 and no base register. -/
  | sibNoBase (scale : Fin 4) (index : Gpr) (d : Dword)
deriving DecidableEq, Repr

/-- The memory operand forms of 16-bit addressing (30_encoding.md R107). -/
inductive Addr16 where
  /-- Row `rm` of the table with a displacement; not row 6 without one. -/
  | regs (rm : Fin 8) (d : Disp16)
  /-- `mod` = 00b, `rm` = 110b: a disp16 alone. -/
  | abs (d : Word)
deriving DecidableEq, Repr

/-- A memory operand, in the addressing size it was decoded with (30_encoding.md R108, R118). -/
inductive MemOperand where
  | a16 (a : Addr16)
  | a32 (a : Addr32)
deriving DecidableEq, Repr

/-- The operand on the `rm` side of the ModR/M byte: a register number (an MMX register, or for MOVD a
general-purpose one) or a memory operand (30_encoding.md R103, R104). -/
inductive RM where
  | reg (n : Fin 8)
  | mem (m : MemOperand)
deriving DecidableEq, Repr

/-- The 62 rows of spec/opcode_table.json, in its order (30_encoding.md R112, R121). -/
inductive Instr where
  /-- EMMS, 0F 77 (R170). -/
  | emms (p : Prefixes)
  /-- MOVD mm, r/m32, 0F 6E /r (R221). -/
  | movdLoad (p : Prefixes) (dst : MmReg) (src : RM)
  /-- MOVD r/m32, mm, 0F 7E /r (R222). -/
  | movdStore (p : Prefixes) (src : MmReg) (dst : RM)
  /-- MOVQ mm, mm/m64, 0F 6F /r (R223). -/
  | movqLoad (p : Prefixes) (dst : MmReg) (src : RM)
  /-- MOVQ mm/m64, mm, 0F 7F /r (R224). -/
  | movqStore (p : Prefixes) (src : MmReg) (dst : RM)
  /-- PACKSSDW mm, mm/m64, 0F 6B /r (R192). -/
  | packssdw (p : Prefixes) (dst : MmReg) (src : RM)
  /-- PACKSSWB mm, mm/m64, 0F 63 /r (R191). -/
  | packsswb (p : Prefixes) (dst : MmReg) (src : RM)
  /-- PACKUSWB mm, mm/m64, 0F 67 /r (R193). -/
  | packuswb (p : Prefixes) (dst : MmReg) (src : RM)
  /-- PADDB mm, mm/m64, 0F FC /r (R141). -/
  | paddb (p : Prefixes) (dst : MmReg) (src : RM)
  /-- PADDD mm, mm/m64, 0F FE /r (R143). -/
  | paddd (p : Prefixes) (dst : MmReg) (src : RM)
  /-- PADDSB mm, mm/m64, 0F EC /r (R144). -/
  | paddsb (p : Prefixes) (dst : MmReg) (src : RM)
  /-- PADDSW mm, mm/m64, 0F ED /r (R145). -/
  | paddsw (p : Prefixes) (dst : MmReg) (src : RM)
  /-- PADDUSB mm, mm/m64, 0F DC /r (R146). -/
  | paddusb (p : Prefixes) (dst : MmReg) (src : RM)
  /-- PADDUSW mm, mm/m64, 0F DD /r (R147). -/
  | paddusw (p : Prefixes) (dst : MmReg) (src : RM)
  /-- PADDW mm, mm/m64, 0F FD /r (R142). -/
  | paddw (p : Prefixes) (dst : MmReg) (src : RM)
  /-- PAND mm, mm/m64, 0F DB /r (R211). -/
  | pand (p : Prefixes) (dst : MmReg) (src : RM)
  /-- PANDN mm, mm/m64, 0F DF /r (R212). -/
  | pandn (p : Prefixes) (dst : MmReg) (src : RM)
  /-- PCMPEQB mm, mm/m64, 0F 74 /r (R176). -/
  | pcmpeqb (p : Prefixes) (dst : MmReg) (src : RM)
  /-- PCMPEQD mm, mm/m64, 0F 76 /r (R178). -/
  | pcmpeqd (p : Prefixes) (dst : MmReg) (src : RM)
  /-- PCMPEQW mm, mm/m64, 0F 75 /r (R177). -/
  | pcmpeqw (p : Prefixes) (dst : MmReg) (src : RM)
  /-- PCMPGTB mm, mm/m64, 0F 64 /r (R179). -/
  | pcmpgtb (p : Prefixes) (dst : MmReg) (src : RM)
  /-- PCMPGTD mm, mm/m64, 0F 66 /r (R181). -/
  | pcmpgtd (p : Prefixes) (dst : MmReg) (src : RM)
  /-- PCMPGTW mm, mm/m64, 0F 65 /r (R180). -/
  | pcmpgtw (p : Prefixes) (dst : MmReg) (src : RM)
  /-- PMADDWD mm, mm/m64, 0F F5 /r (R155). -/
  | pmaddwd (p : Prefixes) (dst : MmReg) (src : RM)
  /-- PMULHW mm, mm/m64, 0F E5 /r (R156). -/
  | pmulhw (p : Prefixes) (dst : MmReg) (src : RM)
  /-- PMULLW mm, mm/m64, 0F D5 /r (R157). -/
  | pmullw (p : Prefixes) (dst : MmReg) (src : RM)
  /-- POR mm, mm/m64, 0F EB /r (R213). -/
  | por (p : Prefixes) (dst : MmReg) (src : RM)
  /-- PSLLD mm, mm/m64, 0F F2 /r (R233). -/
  | pslld (p : Prefixes) (dst : MmReg) (src : RM)
  /-- PSLLD mm, imm8, 0F 72 /6 ib (R234). -/
  | pslldImm (p : Prefixes) (dst : MmReg) (imm : Byte)
  /-- PSLLQ mm, mm/m64, 0F F3 /r (R235). -/
  | psllq (p : Prefixes) (dst : MmReg) (src : RM)
  /-- PSLLQ mm, imm8, 0F 73 /6 ib (R236). -/
  | psllqImm (p : Prefixes) (dst : MmReg) (imm : Byte)
  /-- PSLLW mm, mm/m64, 0F F1 /r (R231). -/
  | psllw (p : Prefixes) (dst : MmReg) (src : RM)
  /-- PSLLW mm, imm8, 0F 71 /6 ib (R232). -/
  | psllwImm (p : Prefixes) (dst : MmReg) (imm : Byte)
  /-- PSRAD mm, mm/m64, 0F E2 /r (R245). -/
  | psrad (p : Prefixes) (dst : MmReg) (src : RM)
  /-- PSRAD mm, imm8, 0F 72 /4 ib (R246). -/
  | psradImm (p : Prefixes) (dst : MmReg) (imm : Byte)
  /-- PSRAW mm, mm/m64, 0F E1 /r (R243). -/
  | psraw (p : Prefixes) (dst : MmReg) (src : RM)
  /-- PSRAW mm, imm8, 0F 71 /4 ib (R244). -/
  | psrawImm (p : Prefixes) (dst : MmReg) (imm : Byte)
  /-- PSRLD mm, mm/m64, 0F D2 /r (R239). -/
  | psrld (p : Prefixes) (dst : MmReg) (src : RM)
  /-- PSRLD mm, imm8, 0F 72 /2 ib (R240). -/
  | psrldImm (p : Prefixes) (dst : MmReg) (imm : Byte)
  /-- PSRLQ mm, mm/m64, 0F D3 /r (R241). -/
  | psrlq (p : Prefixes) (dst : MmReg) (src : RM)
  /-- PSRLQ mm, imm8, 0F 73 /2 ib (R242). -/
  | psrlqImm (p : Prefixes) (dst : MmReg) (imm : Byte)
  /-- PSRLW mm, mm/m64, 0F D1 /r (R237). -/
  | psrlw (p : Prefixes) (dst : MmReg) (src : RM)
  /-- PSRLW mm, imm8, 0F 71 /2 ib (R238). -/
  | psrlwImm (p : Prefixes) (dst : MmReg) (imm : Byte)
  /-- PSUBB mm, mm/m64, 0F F8 /r (R148). -/
  | psubb (p : Prefixes) (dst : MmReg) (src : RM)
  /-- PSUBD mm, mm/m64, 0F FA /r (R150). -/
  | psubd (p : Prefixes) (dst : MmReg) (src : RM)
  /-- PSUBSB mm, mm/m64, 0F E8 /r (R151). -/
  | psubsb (p : Prefixes) (dst : MmReg) (src : RM)
  /-- PSUBSW mm, mm/m64, 0F E9 /r (R152). -/
  | psubsw (p : Prefixes) (dst : MmReg) (src : RM)
  /-- PSUBUSB mm, mm/m64, 0F D8 /r (R153). -/
  | psubusb (p : Prefixes) (dst : MmReg) (src : RM)
  /-- PSUBUSW mm, mm/m64, 0F D9 /r (R154). -/
  | psubusw (p : Prefixes) (dst : MmReg) (src : RM)
  /-- PSUBW mm, mm/m64, 0F F9 /r (R149). -/
  | psubw (p : Prefixes) (dst : MmReg) (src : RM)
  /-- PUNPCKHBW mm, mm/m64, 0F 68 /r (R194). -/
  | punpckhbw (p : Prefixes) (dst : MmReg) (src : RM)
  /-- PUNPCKHDQ mm, mm/m64, 0F 6A /r (R196). -/
  | punpckhdq (p : Prefixes) (dst : MmReg) (src : RM)
  /-- PUNPCKHWD mm, mm/m64, 0F 69 /r (R195). -/
  | punpckhwd (p : Prefixes) (dst : MmReg) (src : RM)
  /-- PUNPCKLBW mm, mm/m64, 0F 60 /r (R197). -/
  | punpcklbw (p : Prefixes) (dst : MmReg) (src : RM)
  /-- PUNPCKLDQ mm, mm/m64, 0F 62 /r (R199). -/
  | punpckldq (p : Prefixes) (dst : MmReg) (src : RM)
  /-- PUNPCKLWD mm, mm/m64, 0F 61 /r (R198). -/
  | punpcklwd (p : Prefixes) (dst : MmReg) (src : RM)
  /-- PXOR mm, mm/m64, 0F EF /r (R214). -/
  | pxor (p : Prefixes) (dst : MmReg) (src : RM)
  /-- CPUID, 0F A2 (R261). -/
  | cpuid
  /-- RDMSR, 0F 32 (R274). -/
  | rdmsr
  /-- WRMSR, 0F 30 (R275). -/
  | wrmsr
  /-- RDTSC, 0F 31 (R276). -/
  | rdtsc
  /-- WBINVD, 0F 09 (R277). -/
  | wbinvd
deriving DecidableEq, Repr

/-- The prefixes and the `rm` operand of an instruction that has one. -/
def Instr.operand : Instr → Option (Prefixes × RM)
  | .emms _ => none
  | .movdLoad p _ rm => some (p, rm)
  | .movdStore p _ rm => some (p, rm)
  | .movqLoad p _ rm => some (p, rm)
  | .movqStore p _ rm => some (p, rm)
  | .packssdw p _ rm => some (p, rm)
  | .packsswb p _ rm => some (p, rm)
  | .packuswb p _ rm => some (p, rm)
  | .paddb p _ rm => some (p, rm)
  | .paddd p _ rm => some (p, rm)
  | .paddsb p _ rm => some (p, rm)
  | .paddsw p _ rm => some (p, rm)
  | .paddusb p _ rm => some (p, rm)
  | .paddusw p _ rm => some (p, rm)
  | .paddw p _ rm => some (p, rm)
  | .pand p _ rm => some (p, rm)
  | .pandn p _ rm => some (p, rm)
  | .pcmpeqb p _ rm => some (p, rm)
  | .pcmpeqd p _ rm => some (p, rm)
  | .pcmpeqw p _ rm => some (p, rm)
  | .pcmpgtb p _ rm => some (p, rm)
  | .pcmpgtd p _ rm => some (p, rm)
  | .pcmpgtw p _ rm => some (p, rm)
  | .pmaddwd p _ rm => some (p, rm)
  | .pmulhw p _ rm => some (p, rm)
  | .pmullw p _ rm => some (p, rm)
  | .por p _ rm => some (p, rm)
  | .pslld p _ rm => some (p, rm)
  | .pslldImm _ _ _ => none
  | .psllq p _ rm => some (p, rm)
  | .psllqImm _ _ _ => none
  | .psllw p _ rm => some (p, rm)
  | .psllwImm _ _ _ => none
  | .psrad p _ rm => some (p, rm)
  | .psradImm _ _ _ => none
  | .psraw p _ rm => some (p, rm)
  | .psrawImm _ _ _ => none
  | .psrld p _ rm => some (p, rm)
  | .psrldImm _ _ _ => none
  | .psrlq p _ rm => some (p, rm)
  | .psrlqImm _ _ _ => none
  | .psrlw p _ rm => some (p, rm)
  | .psrlwImm _ _ _ => none
  | .psubb p _ rm => some (p, rm)
  | .psubd p _ rm => some (p, rm)
  | .psubsb p _ rm => some (p, rm)
  | .psubsw p _ rm => some (p, rm)
  | .psubusb p _ rm => some (p, rm)
  | .psubusw p _ rm => some (p, rm)
  | .psubw p _ rm => some (p, rm)
  | .punpckhbw p _ rm => some (p, rm)
  | .punpckhdq p _ rm => some (p, rm)
  | .punpckhwd p _ rm => some (p, rm)
  | .punpcklbw p _ rm => some (p, rm)
  | .punpckldq p _ rm => some (p, rm)
  | .punpcklwd p _ rm => some (p, rm)
  | .pxor p _ rm => some (p, rm)
  | .cpuid => none
  | .rdmsr => none
  | .wrmsr => none
  | .rdtsc => none
  | .wbinvd => none

/-- The prefixes of an MMX instruction; a system instruction carries none (47_system.md R261). -/
def Instr.mmxPrefixes : Instr → Option Prefixes
  | .emms p => some p
  | .movdLoad p _ _ => some p
  | .movdStore p _ _ => some p
  | .movqLoad p _ _ => some p
  | .movqStore p _ _ => some p
  | .packssdw p _ _ => some p
  | .packsswb p _ _ => some p
  | .packuswb p _ _ => some p
  | .paddb p _ _ => some p
  | .paddd p _ _ => some p
  | .paddsb p _ _ => some p
  | .paddsw p _ _ => some p
  | .paddusb p _ _ => some p
  | .paddusw p _ _ => some p
  | .paddw p _ _ => some p
  | .pand p _ _ => some p
  | .pandn p _ _ => some p
  | .pcmpeqb p _ _ => some p
  | .pcmpeqd p _ _ => some p
  | .pcmpeqw p _ _ => some p
  | .pcmpgtb p _ _ => some p
  | .pcmpgtd p _ _ => some p
  | .pcmpgtw p _ _ => some p
  | .pmaddwd p _ _ => some p
  | .pmulhw p _ _ => some p
  | .pmullw p _ _ => some p
  | .por p _ _ => some p
  | .pslld p _ _ => some p
  | .pslldImm p _ _ => some p
  | .psllq p _ _ => some p
  | .psllqImm p _ _ => some p
  | .psllw p _ _ => some p
  | .psllwImm p _ _ => some p
  | .psrad p _ _ => some p
  | .psradImm p _ _ => some p
  | .psraw p _ _ => some p
  | .psrawImm p _ _ => some p
  | .psrld p _ _ => some p
  | .psrldImm p _ _ => some p
  | .psrlq p _ _ => some p
  | .psrlqImm p _ _ => some p
  | .psrlw p _ _ => some p
  | .psrlwImm p _ _ => some p
  | .psubb p _ _ => some p
  | .psubd p _ _ => some p
  | .psubsb p _ _ => some p
  | .psubsw p _ _ => some p
  | .psubusb p _ _ => some p
  | .psubusw p _ _ => some p
  | .psubw p _ _ => some p
  | .punpckhbw p _ _ => some p
  | .punpckhdq p _ _ => some p
  | .punpckhwd p _ _ => some p
  | .punpcklbw p _ _ => some p
  | .punpckldq p _ _ => some p
  | .punpcklwd p _ _ => some p
  | .pxor p _ _ => some p
  | .cpuid => none
  | .rdmsr => none
  | .wrmsr => none
  | .rdtsc => none
  | .wbinvd => none

end Sys2Proof
end

