-- ==== Sys2Proof/WellFormed.lean ====
section
/-! DEFINITION. Which syntax terms are instructions: exactly those that an encoding stands for, under a given default
address size (`d32` true: the default is 32-bit). -/

namespace Sys2Proof

/-- `rm` = 100b is the SIB escape and `mod` = 00b, `rm` = 101b the disp32 form (30_encoding.md R105); `base` = 101b
under `mod` = 00b has no base register (R106). -/
def Addr32.wf : Addr32 → Bool
  | .base r d => r != 4 && (r != 5 || d != .none)
  | .abs _ => true
  | .sib _ _ b d => b != 5 || d != .none
  | .sibNoBase _ _ _ => true

/-- `mod` = 00b, `rm` = 110b is the disp16 form (30_encoding.md R107). -/
def Addr16.wf : Addr16 → Bool
  | .regs r d => r != 6 || d != .none
  | .abs _ => true

/-- Whether 32-bit addressing is in effect: the default, inverted by 67h (30_encoding.md R108, R118). -/
def Prefixes.addr32 (d32 : Bool) (p : Prefixes) : Bool := d32 != p.addrSize

/-- A memory operand has the addressing size that the default and the 67h prefix give (30_encoding.md R118). -/
def RM.wf (d32 : Bool) (p : Prefixes) : RM → Bool
  | .reg _ => true
  | .mem (.a16 a) => a.wf && !p.addr32 d32
  | .mem (.a32 a) => a.wf && p.addr32 d32

/-- A well-formed instruction under the default address size `d32`. -/
def Instr.wf (d32 : Bool) (i : Instr) : Bool :=
  match i.operand with
  | none => true
  | some (p, rm) => rm.wf d32 p

end Sys2Proof
end

