-- ==== Sys2Proof/Decode.lean ====
section
/-! DEFINITION. The decoder, total on any bytes and refusing by name, and the encoder, both written from the tables of
30_encoding.md (R100 to R122). Then `decodeTableWord`, the decoder on a word numbered as spec/opcode_table.json numbers
it. -/

namespace Sys2Proof

/-- Why the decoder gives no instruction. The machine refuses them all (safe: the model stops where the spec describes
nothing). -/
inductive DecodeError where
  /-- The bytes end inside an instruction. -/
  | truncated
  /-- 66h, F2h or F3h (30_encoding.md R116; D11). -/
  | undescribedPrefix (b : Byte)
  /-- F0h or 67h a second time (30_encoding.md R111; D11). -/
  | repeatedPrefix (b : Byte)
  /-- A second segment override (D11). -/
  | twoSegmentOverrides
  /-- A prefix before CPUID, RDMSR, WRMSR, RDTSC or WBINVD (47_system.md R261). -/
  | prefixedSystem (op : Byte)
  /-- 0F 71/72/73 with an undefined /n or with `mod` not 11b (30_encoding.md R114, 60_exceptions.md R301; D12; log 15). -/
  | reservedShift (op : Byte)
  /-- 0F xx with xx outside the table (30_encoding.md R114; D12). -/
  | undescribedOpcode0F (op : Byte)
  /-- An opcode of the base set (30_encoding.md R114, 47_system.md R280; D14). -/
  | baseOpcode (op : Byte)
deriving DecidableEq, Repr

/-! ### Bytes of an encoding -/

/-- The override byte of a segment register (30_encoding.md R101). -/
def SegReg.overrideByte : SegReg → Byte
  | .cs => 0x2E
  | .ss => 0x36
  | .ds => 0x3E
  | .es => 0x26
  | .fs => 0x64
  | .gs => 0x65

/-- The segment register that an override byte names (30_encoding.md R101). -/
def segOverride (b : Byte) : Option SegReg :=
  if b = 0x2E then some .cs
  else if b = 0x36 then some .ss
  else if b = 0x3E then some .ds
  else if b = 0x26 then some .es
  else if b = 0x64 then some .fs
  else if b = 0x65 then some .gs
  else none

/-- The ModR/M byte: `mod` 7:6, `reg` 5:3, `rm` 2:0 (30_encoding.md R103). The SIB byte has the same shape: `scale`,
`index`, `base` (R106). -/
def modRM (mod : Fin 4) (reg rm : Fin 8) : Byte := BitVec.ofNat 8 (mod.val * 64 + reg.val * 8 + rm.val)

/-- Bits 7:6 of a ModR/M or SIB byte. -/
def modField (b : Byte) : Fin 4 := Fin.ofNat 4 (b.toNat / 64)

/-- Bits 5:3 of a ModR/M or SIB byte. -/
def regField (b : Byte) : Fin 8 := Fin.ofNat 8 (b.toNat / 8)

/-- Bits 2:0 of a ModR/M or SIB byte. -/
def rmField (b : Byte) : Fin 8 := Fin.ofNat 8 b.toNat

/-- The two bytes of a disp16, low byte first (30_encoding.md R108). -/
def wordBytes (d : Word) : List Byte := [d.extractLsb' 0 8, d.extractLsb' 8 8]

/-- The four bytes of a disp32, low byte first (30_encoding.md R108). -/
def dwordBytes (d : Dword) : List Byte :=
  [d.extractLsb' 0 8, d.extractLsb' 8 8, d.extractLsb' 16 8, d.extractLsb' 24 8]

/-- Take one byte. -/
def takeByte : List Byte → Except DecodeError (Byte × List Byte)
  | b :: rest => .ok (b, rest)
  | [] => .error .truncated

/-- Take a little-endian disp16 (30_encoding.md R108). -/
def takeWord : List Byte → Except DecodeError (Word × List Byte)
  | b0 :: b1 :: rest => .ok (b1 ++ b0, rest)
  | _ => .error .truncated

/-- Take a little-endian disp32 (30_encoding.md R108). -/
def takeDword : List Byte → Except DecodeError (Dword × List Byte)
  | b0 :: b1 :: b2 :: b3 :: rest => .ok (b3 ++ b2 ++ b1 ++ b0, rest)
  | _ => .error .truncated

/-! ### Prefixes -/

/-- Read prefixes, at most one of each kind, in any order (30_encoding.md R101, R115 to R118; D11). -/
def decodePrefixes : List Byte → Prefixes → Except DecodeError (Prefixes × List Byte)
  | [], p => .ok (p, [])
  | b :: rest, p =>
    if b = 0xF0 then
      if p.lock then .error (.repeatedPrefix b) else decodePrefixes rest { p with lock := true }
    else if b = 0x67 then
      if p.addrSize then .error (.repeatedPrefix b) else decodePrefixes rest { p with addrSize := true }
    else if b = 0x66 ∨ b = 0xF2 ∨ b = 0xF3 then .error (.undescribedPrefix b)
    else
      match segOverride b with
      | some r => if p.seg.isSome then .error .twoSegmentOverrides else decodePrefixes rest { p with seg := some r }
      | none => .ok (p, b :: rest)

/-- The prefix bytes of an instruction, in one order of the several the decoder accepts. -/
def Prefixes.bytes (p : Prefixes) : List Byte :=
  (if p.lock then [0xF0] else []) ++
    (match p.seg with
      | some r => [r.overrideByte]
      | none => []) ++
    (if p.addrSize then [0x67] else [])

/-! ### Operands -/

/-- The displacement of 32-bit addressing that `mod` asks for; `mod` is not 3 here (30_encoding.md R105). -/
def decodeDisp32 (mod : Fin 4) (bytes : List Byte) : Except DecodeError (Disp32 × List Byte) :=
  if mod = 0 then .ok (.none, bytes)
  else if mod = 1 then
    match takeByte bytes with
    | .ok (d, rest) => .ok (.d8 d, rest)
    | .error e => .error e
  else
    match takeDword bytes with
    | .ok (d, rest) => .ok (.d32 d, rest)
    | .error e => .error e

/-- The displacement of 16-bit addressing that `mod` asks for; `mod` is not 3 here (30_encoding.md R107). -/
def decodeDisp16 (mod : Fin 4) (bytes : List Byte) : Except DecodeError (Disp16 × List Byte) :=
  if mod = 0 then .ok (.none, bytes)
  else if mod = 1 then
    match takeByte bytes with
    | .ok (d, rest) => .ok (.d8 d, rest)
    | .error e => .error e
  else
    match takeWord bytes with
    | .ok (d, rest) => .ok (.d16 d, rest)
    | .error e => .error e

/-- The SIB byte and its displacement (30_encoding.md R106). -/
def decodeSib (mod : Fin 4) (bytes : List Byte) : Except DecodeError (Addr32 × List Byte) :=
  match takeByte bytes with
  | .error e => .error e
  | .ok (b, rest) =>
    if rmField b = 5 ∧ mod = 0 then
      match takeDword rest with
      | .ok (d, rest) => .ok (.sibNoBase (modField b) (regField b) d, rest)
      | .error e => .error e
    else
      match decodeDisp32 mod rest with
      | .ok (d, rest) => .ok (.sib (modField b) (regField b) (rmField b) d, rest)
      | .error e => .error e

/-- A memory operand under 32-bit addressing (30_encoding.md R105). -/
def decodeAddr32 (mod : Fin 4) (rm : Fin 8) (bytes : List Byte) : Except DecodeError (Addr32 × List Byte) :=
  if rm = 4 then decodeSib mod bytes
  else if rm = 5 ∧ mod = 0 then
    match takeDword bytes with
    | .ok (d, rest) => .ok (.abs d, rest)
    | .error e => .error e
  else
    match decodeDisp32 mod bytes with
    | .ok (d, rest) => .ok (.base rm d, rest)
    | .error e => .error e

/-- A memory operand under 16-bit addressing (30_encoding.md R107). -/
def decodeAddr16 (mod : Fin 4) (rm : Fin 8) (bytes : List Byte) : Except DecodeError (Addr16 × List Byte) :=
  if rm = 6 ∧ mod = 0 then
    match takeWord bytes with
    | .ok (d, rest) => .ok (.abs d, rest)
    | .error e => .error e
  else
    match decodeDisp16 mod bytes with
    | .ok (d, rest) => .ok (.regs rm d, rest)
    | .error e => .error e

/-- The ModR/M byte with what follows it: the `reg` field and the `rm` operand, under 32-bit addressing when `a32`
(30_encoding.md R103, R104, R108). -/
def decodeRM (a32 : Bool) (bytes : List Byte) : Except DecodeError (Fin 8 × RM × List Byte) :=
  match takeByte bytes with
  | .error e => .error e
  | .ok (b, rest) =>
    if modField b = 3 then .ok (regField b, .reg (rmField b), rest)
    else if a32 then
      match decodeAddr32 (modField b) (rmField b) rest with
      | .ok (a, rest) => .ok (regField b, .mem (.a32 a), rest)
      | .error e => .error e
    else
      match decodeAddr16 (modField b) (rmField b) rest with
      | .ok (a, rest) => .ok (regField b, .mem (.a16 a), rest)
      | .error e => .error e

/-- `mod` and the displacement bytes of a displacement under 32-bit addressing. -/
def Disp32.encode : Disp32 → Fin 4 × List Byte
  | .none => (0, [])
  | .d8 d => (1, [d])
  | .d32 d => (2, dwordBytes d)

/-- `mod` and the displacement bytes of a displacement under 16-bit addressing. -/
def Disp16.encode : Disp16 → Fin 4 × List Byte
  | .none => (0, [])
  | .d8 d => (1, [d])
  | .d16 d => (2, wordBytes d)

/-- ModR/M, SIB and displacement bytes of a 32-bit memory operand beside the `reg` field (30_encoding.md R105, R106). -/
def Addr32.bytes (reg : Fin 8) : Addr32 → List Byte
  | .base r d => modRM d.encode.1 reg r :: d.encode.2
  | .abs d => modRM 0 reg 5 :: dwordBytes d
  | .sib sc ix b d => modRM d.encode.1 reg 4 :: modRM sc ix b :: d.encode.2
  | .sibNoBase sc ix d => modRM 0 reg 4 :: modRM sc ix 5 :: dwordBytes d

/-- ModR/M and displacement bytes of a 16-bit memory operand beside the `reg` field (30_encoding.md R107). -/
def Addr16.bytes (reg : Fin 8) : Addr16 → List Byte
  | .regs rm d => modRM d.encode.1 reg rm :: d.encode.2
  | .abs d => modRM 0 reg 6 :: wordBytes d

/-- The bytes from the ModR/M byte on. -/
def RM.bytes (reg : Fin 8) : RM → List Byte
  | .reg n => [modRM 3 reg n]
  | .mem (.a16 a) => a.bytes reg
  | .mem (.a32 a) => a.bytes reg

/-! ### The opcode map -/

/-- A form with a `reg` register and an `rm` operand. -/
abbrev RmForm := Prefixes → MmReg → RM → Instr

/-- An immediate shift form. -/
abbrev ImmForm := Prefixes → MmReg → Byte → Instr

/-- Second opcode bytes of the Move forms `0F op /r` (30_encoding.md R112). -/
def moveRows : List (Byte × RmForm) := [
  (0x6E, .movdLoad), (0x7E, .movdStore), (0x6F, .movqLoad), (0x7F, .movqStore)]

/-- Second opcode bytes of the Convert forms `0F op /r` (30_encoding.md R112). -/
def convertRows : List (Byte × RmForm) := [
  (0x6B, .packssdw), (0x63, .packsswb), (0x67, .packuswb), (0x68, .punpckhbw),
  (0x6A, .punpckhdq), (0x69, .punpckhwd), (0x60, .punpcklbw), (0x62, .punpckldq),
  (0x61, .punpcklwd)]

/-- Second opcode bytes of the Arithmetic forms `0F op /r` (30_encoding.md R112). -/
def arithmeticRows : List (Byte × RmForm) := [
  (0xFC, .paddb), (0xFE, .paddd), (0xEC, .paddsb), (0xED, .paddsw),
  (0xDC, .paddusb), (0xDD, .paddusw), (0xFD, .paddw), (0xF5, .pmaddwd),
  (0xE5, .pmulhw), (0xD5, .pmullw), (0xF8, .psubb), (0xFA, .psubd),
  (0xE8, .psubsb), (0xE9, .psubsw), (0xD8, .psubusb), (0xD9, .psubusw),
  (0xF9, .psubw)]

/-- Second opcode bytes of the Logical forms `0F op /r` (30_encoding.md R112). -/
def logicalRows : List (Byte × RmForm) := [
  (0xDB, .pand), (0xDF, .pandn), (0xEB, .por), (0xEF, .pxor)]

/-- Second opcode bytes of the Compare forms `0F op /r` (30_encoding.md R112). -/
def compareRows : List (Byte × RmForm) := [
  (0x74, .pcmpeqb), (0x76, .pcmpeqd), (0x75, .pcmpeqw), (0x64, .pcmpgtb),
  (0x66, .pcmpgtd), (0x65, .pcmpgtw)]

/-- Second opcode bytes of the Shift forms `0F op /r` (30_encoding.md R112). -/
def shiftRows : List (Byte × RmForm) := [
  (0xF2, .pslld), (0xF3, .psllq), (0xF1, .psllw), (0xE2, .psrad),
  (0xE1, .psraw), (0xD2, .psrld), (0xD3, .psrlq), (0xD1, .psrlw)]

/-- The forms `0F op /r`. -/
def rmRows : List (Byte × RmForm) :=
  moveRows ++ convertRows ++ arithmeticRows ++ logicalRows ++ compareRows ++ shiftRows

/-- The immediate shifts `0F op /n ib`: opcode byte, n, form (30_encoding.md R110, R112). -/
def immRows : List ((Byte × Fin 8) × ImmForm) := [
  ((0x72, 6), .pslldImm),
  ((0x73, 6), .psllqImm),
  ((0x71, 6), .psllwImm),
  ((0x72, 4), .psradImm),
  ((0x71, 4), .psrawImm),
  ((0x72, 2), .psrldImm),
  ((0x73, 2), .psrlqImm),
  ((0x71, 2), .psrlwImm)]

/-- The system instructions `0F op` (30_encoding.md R121). -/
def systemRows : List (Byte × Instr) := [
  (0xA2, .cpuid), (0x32, .rdmsr), (0x30, .wrmsr), (0x31, .rdtsc), (0x09, .wbinvd)]

/-- What follows 0Fh 71h, 72h or 73h: an immediate shift, or a reserved encoding (30_encoding.md R110, R114; log 15). -/
def decodeImmShift (p : Prefixes) (op : Byte) (bytes : List Byte) : Except DecodeError (Instr × List Byte) :=
  match takeByte bytes with
  | .error e => .error e
  | .ok (b, rest) =>
    match immRows.lookup (op, regField b) with
    | none => .error (.reservedShift op)
    | some form =>
      if modField b = 3 then
        match takeByte rest with
        | .ok (imm, rest) => .ok (form p (rmField b) imm, rest)
        | .error e => .error e
      else .error (.reservedShift op)

/-- How many prefix bytes the prefixes take (30_encoding.md R111). -/
def Prefixes.count (p : Prefixes) : Nat := p.lock.toNat + p.seg.isSome.toNat + p.addrSize.toNat

/-- The instruction after 0Fh (30_encoding.md R102, R112, R114, R121). -/
def decode0F (d32 : Bool) (p : Prefixes) (op : Byte) (bytes : List Byte) : Except DecodeError (Instr × List Byte) :=
  if op = 0x77 then .ok (.emms p, bytes)
  else if op = 0x71 ∨ op = 0x72 ∨ op = 0x73 then decodeImmShift p op bytes
  else
    match rmRows.lookup op with
    | some form =>
      match decodeRM (p.addr32 d32) bytes with
      | .ok (reg, rm, rest) => .ok (form p reg rm, rest)
      | .error e => .error e
    | none =>
      match systemRows.lookup op with
      | some i => if p = {} then .ok (i, bytes) else .error (.prefixedSystem op)
      | none => .error (.undescribedOpcode0F op)

/-- The decoder: the instruction at the head of the bytes under the default address size `d32`, and the bytes after it
(30_encoding.md R100). -/
def decode (d32 : Bool) (bytes : List Byte) : Except DecodeError (Instr × List Byte) :=
  match decodePrefixes bytes {} with
  | .error e => .error e
  | .ok (p, b :: rest) =>
    if b = 0x0F then
      match takeByte rest with
      | .ok (op, rest) => decode0F d32 p op rest
      | .error e => .error e
    else .error (.baseOpcode b)
  | .ok (_, []) => .error .truncated

/-! ### The encoder -/

/-- The bytes of a form `0F op /r`. -/
def encodeRM (op : Byte) (p : Prefixes) (reg : Fin 8) (rm : RM) : List Byte := p.bytes ++ 0x0F :: op :: rm.bytes reg

/-- The bytes of a form `0F op /n ib` (30_encoding.md R110). -/
def encodeImm (op : Byte) (n : Fin 8) (p : Prefixes) (dst : MmReg) (imm : Byte) : List Byte :=
  p.bytes ++ [0x0F, op, modRM 3 n dst, imm]

/-- The bytes of an instruction, in ascending address order (30_encoding.md R100, R112, R121). -/
def encode : Instr → List Byte
  | .emms p => p.bytes ++ [0x0F, 0x77]
  | .movdLoad p reg rm => encodeRM 0x6E p reg rm
  | .movdStore p reg rm => encodeRM 0x7E p reg rm
  | .movqLoad p reg rm => encodeRM 0x6F p reg rm
  | .movqStore p reg rm => encodeRM 0x7F p reg rm
  | .packssdw p reg rm => encodeRM 0x6B p reg rm
  | .packsswb p reg rm => encodeRM 0x63 p reg rm
  | .packuswb p reg rm => encodeRM 0x67 p reg rm
  | .paddb p reg rm => encodeRM 0xFC p reg rm
  | .paddd p reg rm => encodeRM 0xFE p reg rm
  | .paddsb p reg rm => encodeRM 0xEC p reg rm
  | .paddsw p reg rm => encodeRM 0xED p reg rm
  | .paddusb p reg rm => encodeRM 0xDC p reg rm
  | .paddusw p reg rm => encodeRM 0xDD p reg rm
  | .paddw p reg rm => encodeRM 0xFD p reg rm
  | .pand p reg rm => encodeRM 0xDB p reg rm
  | .pandn p reg rm => encodeRM 0xDF p reg rm
  | .pcmpeqb p reg rm => encodeRM 0x74 p reg rm
  | .pcmpeqd p reg rm => encodeRM 0x76 p reg rm
  | .pcmpeqw p reg rm => encodeRM 0x75 p reg rm
  | .pcmpgtb p reg rm => encodeRM 0x64 p reg rm
  | .pcmpgtd p reg rm => encodeRM 0x66 p reg rm
  | .pcmpgtw p reg rm => encodeRM 0x65 p reg rm
  | .pmaddwd p reg rm => encodeRM 0xF5 p reg rm
  | .pmulhw p reg rm => encodeRM 0xE5 p reg rm
  | .pmullw p reg rm => encodeRM 0xD5 p reg rm
  | .por p reg rm => encodeRM 0xEB p reg rm
  | .pslld p reg rm => encodeRM 0xF2 p reg rm
  | .pslldImm p dst imm => encodeImm 0x72 6 p dst imm
  | .psllq p reg rm => encodeRM 0xF3 p reg rm
  | .psllqImm p dst imm => encodeImm 0x73 6 p dst imm
  | .psllw p reg rm => encodeRM 0xF1 p reg rm
  | .psllwImm p dst imm => encodeImm 0x71 6 p dst imm
  | .psrad p reg rm => encodeRM 0xE2 p reg rm
  | .psradImm p dst imm => encodeImm 0x72 4 p dst imm
  | .psraw p reg rm => encodeRM 0xE1 p reg rm
  | .psrawImm p dst imm => encodeImm 0x71 4 p dst imm
  | .psrld p reg rm => encodeRM 0xD2 p reg rm
  | .psrldImm p dst imm => encodeImm 0x72 2 p dst imm
  | .psrlq p reg rm => encodeRM 0xD3 p reg rm
  | .psrlqImm p dst imm => encodeImm 0x73 2 p dst imm
  | .psrlw p reg rm => encodeRM 0xD1 p reg rm
  | .psrlwImm p dst imm => encodeImm 0x71 2 p dst imm
  | .psubb p reg rm => encodeRM 0xF8 p reg rm
  | .psubd p reg rm => encodeRM 0xFA p reg rm
  | .psubsb p reg rm => encodeRM 0xE8 p reg rm
  | .psubsw p reg rm => encodeRM 0xE9 p reg rm
  | .psubusb p reg rm => encodeRM 0xD8 p reg rm
  | .psubusw p reg rm => encodeRM 0xD9 p reg rm
  | .psubw p reg rm => encodeRM 0xF9 p reg rm
  | .punpckhbw p reg rm => encodeRM 0x68 p reg rm
  | .punpckhdq p reg rm => encodeRM 0x6A p reg rm
  | .punpckhwd p reg rm => encodeRM 0x69 p reg rm
  | .punpcklbw p reg rm => encodeRM 0x60 p reg rm
  | .punpckldq p reg rm => encodeRM 0x62 p reg rm
  | .punpcklwd p reg rm => encodeRM 0x61 p reg rm
  | .pxor p reg rm => encodeRM 0xEF p reg rm
  | .cpuid => [0x0F, 0xA2]
  | .rdmsr => [0x0F, 0x32]
  | .wrmsr => [0x0F, 0x30]
  | .rdtsc => [0x0F, 0x31]
  | .wbinvd => [0x0F, 0x09]

/-! ### Instruction length (30_encoding.md R111) -/

/-- Displacement bytes of 32-bit addressing. -/
def Disp32.size : Disp32 → Nat
  | .none => 0
  | .d8 _ => 1
  | .d32 _ => 4

/-- Displacement bytes of 16-bit addressing. -/
def Disp16.size : Disp16 → Nat
  | .none => 0
  | .d8 _ => 1
  | .d16 _ => 2

/-- SIB and displacement bytes of an `rm` operand. -/
def RM.extra : RM → Nat
  | .reg _ => 0
  | .mem (.a16 (.regs _ d)) => d.size
  | .mem (.a16 (.abs _)) => 2
  | .mem (.a32 (.base _ d)) => d.size
  | .mem (.a32 (.abs _)) => 4
  | .mem (.a32 (.sib _ _ _ d)) => 1 + d.size
  | .mem (.a32 (.sibNoBase _ _ _)) => 5

/-- The length of a form with a ModR/M byte and no immediate. -/
def rmLength (p : Prefixes) (rm : RM) : Nat := p.count + 3 + rm.extra

/-- The length of an immediate shift. -/
def immLength (p : Prefixes) : Nat := p.count + 4

/-- The length of EMMS. -/
def emmsLength (p : Prefixes) : Nat := p.count + 2

/-- The length of a system instruction. -/
def systemLength : Nat := 2

/-! ### Words as spec/opcode_table.json numbers them -/

/-- The longest instruction the decoder accepts: three prefixes and eight bytes. -/
def maxLength : Nat := 11

/-- The bytes of a table word: the first byte in bits 7..0, a later byte above it; or, where those bytes are no
instruction, the first byte in the top bits, as the table's own `match` strings have it (30_encoding.md R122; log 35).
Bytes above `nbits` are 0. -/
def tableBytes (nbits w : Nat) : List Byte :=
  let low := (List.range (nbits / 8)).map fun k => BitVec.ofNat 8 (w / 2 ^ (8 * k))
  let pad := List.replicate (maxLength - nbits / 8) (0 : Byte)
  match decode false (low ++ pad) with
  | .ok _ => low ++ pad
  | .error _ => low.reverse ++ pad

/-- The instruction that the decoder reads from a table word, under the 16-bit default addressing that holds after
reset (30_encoding.md R108). -/
def decodeTableWord (nbits w : Nat) : Option Instr :=
  match decode false (tableBytes nbits w) with
  | .ok (i, _) => some i
  | .error _ => none

end Sys2Proof
end

