-- ==== Sys2Proof/Machine/State.lean ====
section
/-! DEFINITION. The state of the machine as plain data (10_state.md, 60_exceptions.md, 70_reset_and_hazards.md), the
reasons a step can stop, and the state after RESET. INVENTORY.md lists every field with its rule and reset value. -/

namespace Sys2Proof.Machine

/-- Eight registers of width `w`, numbered 0 to 7 (10_state.md R21, R33). -/
structure RegFile (w : Nat) where
  r0 : BitVec w
  r1 : BitVec w
  r2 : BitVec w
  r3 : BitVec w
  r4 : BitVec w
  r5 : BitVec w
  r6 : BitVec w
  r7 : BitVec w
deriving DecidableEq, Repr

/-- Eight registers that all hold `v`. -/
def RegFile.all {w : Nat} (v : BitVec w) : RegFile w := ⟨v, v, v, v, v, v, v, v⟩

/-- The operating modes (10_state.md R40). -/
inductive Mode where
  | real
  | virtual8086
  | protectedMode
deriving DecidableEq, Repr

/-- What an access to memory is for: `SegOK` and `Translate` take it as `kind` (20_memory.md R80, R81). -/
inductive Access where
  | read
  | write
  | fetch
deriving DecidableEq, Repr

/-- Which offsets a rule of a segment covers. Log 7. -/
inductive OffsetRange where
  /-- Every byte of the access at or below the limit, as in an ordinary segment. -/
  | upToLimit
  /-- Every byte of the access above the limit and below 2^32, as in an expand-down segment. -/
  | aboveLimit
  /-- The access begins at an offset from `first` to `last`. -/
  | startingIn (first last : Dword)
deriving DecidableEq, Repr

/-- One entry of the `SegOK` parameter (00_scope.md R8, 20_memory.md R80) as plain data: it allows accesses of the listed
kinds, of `size` bytes or of any size, whose offsets the range covers. Log 7. -/
structure SegRule where
  kinds : List Access
  size : Option Nat
  range : OffsetRange
deriving DecidableEq, Repr

/-- The record of a segment register: selector, base and limit (10_state.md R39), and the rules whose union is `SegOK` in
Protected mode (20_memory.md R80): none for a null selector, none of kind `write` for a read-only segment. Log 7. -/
structure SegRecord where
  selector : BitVec 16
  base : Dword
  limit : Dword
  rules : List SegRule
deriving DecidableEq, Repr

/-- The six segment registers (10_state.md R39). -/
structure SegFile where
  es : SegRecord
  cs : SegRecord
  ss : SegRecord
  ds : SegRecord
  fs : SegRecord
  gs : SegRecord
deriving DecidableEq, Repr

/-- One entry of the `Translate` parameter (00_scope.md R8, 20_memory.md R81) as plain data: for accesses of the listed kinds
and privilege levels, of `size` bytes or of any size, the linear address `first` goes to the physical address `target` and the
addresses up to `last` to those that follow it, or they page-fault where there is no target. The bytes of the access up to
the linear address `pageEnd` follow the first in physical memory too. Log 8. -/
structure PageRule where
  first : Dword
  last : Dword
  pageEnd : Dword
  kinds : List Access
  levels : List (Fin 4)
  size : Option Nat
  target : Option Dword
deriving DecidableEq, Repr

/-- The floating-point and MMX state, one storage (10_state.md R22): the MMX registers, bits 79 to 64 of the registers
they are mapped on and the top-of-stack field (R23), the tag word (R26), the pending exception (R31), and what MMX
instructions do not touch (R32). -/
structure Fpu where
  mm : RegFile 64
  high : RegFile 16
  ftw : BitVec 16
  top : BitVec 3
  pending : Bool
  condCodes : BitVec 4
  control : BitVec 16
  instrPtr : BitVec 48
  dataPtr : BitVec 48
deriving DecidableEq, Repr

/-- The six model-specific registers (10_state.md R41 to R46). Of TR12 only bit 3, CI, is stored (R43, 47_system.md
R275). -/
structure Msrs where
  mcar : Qword
  mctr : Qword
  tr12Ci : Bool
  tsc : Qword
  efer : Qword
  whcr : Qword
deriving DecidableEq, Repr

/-- The exceptions, one for each row of 60_exceptions.md R300. -/
inductive Exc where
  | invalidOpcode
  | deviceNotAvailable
  | stackException
  | generalProtection
  | segmentOverrun
  | pageFault
  | floatingPointPending
  | alignmentCheck
deriving DecidableEq, Repr

/-- The interrupt vector of an exception (60_exceptions.md R300). -/
def Exc.vector : Exc → Nat
  | .invalidOpcode => 6
  | .deviceNotAvailable => 7
  | .stackException => 12
  | .generalProtection => 13
  | .segmentOverrun => 13
  | .pageFault => 14
  | .floatingPointPending => 16
  | .alignmentCheck => 17

/-- The outcome `Exception(vector, pc)`: what was raised and the address of the faulting instruction (60_exceptions.md
R312). -/
structure ExceptionRecord where
  kind : Exc
  pc : Dword
deriving DecidableEq, Repr

/-- The registers and the parameters that go with them: what RESET sets and an exception handler may change. -/
structure Cpu where
  /-- EAX, ECX, EDX, EBX, ESP, EBP, ESI, EDI (10_state.md R33). -/
  gpr : RegFile 32
  /-- EIP (10_state.md R35). -/
  pc : Dword
  /-- EFLAGS (10_state.md R36). -/
  eflags : Dword
  /-- CR0 (10_state.md R37). -/
  cr0 : Dword
  /-- CR2, which only the delivery of a page fault writes (60_exceptions.md R312); delivery is not modelled. -/
  cr2 : Dword
  /-- CR4 (10_state.md R38). -/
  cr4 : Dword
  /-- The IDT base (60_exceptions.md R312, R330). -/
  idtBase : Dword
  /-- The SMM base (10_state.md R48, 60_exceptions.md R330). -/
  smmBase : Dword
  /-- The segment registers (10_state.md R39). -/
  segs : SegFile
  /-- `ADDR32_DEFAULT` (00_scope.md R8, 30_encoding.md R108). -/
  addr32Default : Bool
  /-- The `Translate` parameter (20_memory.md R81). -/
  pages : List PageRule
  /-- `MODE` (10_state.md R40). -/
  mode : Mode
  /-- `CPL` (10_state.md R40). -/
  cpl : Fin 4
  /-- The floating-point and MMX state (10_state.md R21 to R32). -/
  fpu : Fpu
  /-- The model-specific registers (10_state.md R41). -/
  msr : Msrs
  /-- FERR#, true when asserted (60_exceptions.md R307). -/
  ferr : Bool
deriving DecidableEq, Repr

/-- A move of the environment. Moves happen only between instructions (60_exceptions.md R320, R325). Log 11. No move declares
a region of the platform (log 28). -/
inductive EnvMove where
  /-- Nothing happens at this boundary: the processor runs one instruction. -/
  | quiet
  /-- RESET with `BIST_RESULT` (70_reset_and_hazards.md R350, R352). -/
  | reset (bist : Dword)
  /-- INIT, with the value that EAX takes, which is not stated (70_reset_and_hazards.md R353). -/
  | init (eax : Dword)
  /-- An NMI request is latched (10_state.md R48). -/
  | nmi
  /-- An SMI# request is latched (10_state.md R48). -/
  | smi
  /-- A FLUSH# request is latched (10_state.md R48). -/
  | flush
  /-- A task switch: CR0.TS is set (10_state.md R37, 60_exceptions.md R302), and nothing else changes. DESIGN CHOICE, unsafe:
  log 41. -/
  | taskSwitch
  /-- The int 7 handler, with the new task's floating-point state (60_exceptions.md R313). -/
  | handlerInt7 (fp : Fpu)
  /-- The handler of any exception, with the registers as it leaves them and the bytes it writes (60_exceptions.md R313).
  Execution resumes at `after.pc`. -/
  | handler (after : Cpu) (writes : List (Dword × Byte))
  /-- An external interrupt is taken at this boundary, its handler runs and returns, with the registers as it leaves them
  and the bytes it writes (60_exceptions.md R320). Execution resumes at `after.pc`. -/
  | interrupt (after : Cpu) (writes : List (Dword × Byte))
  /-- A bus master writes bytes from a physical address on (60_exceptions.md R337). -/
  | busWrite (address : Dword) (bytes : List Byte)
deriving DecidableEq, Repr

/-- What the platform declares of a physical region (20_memory.md R83, R92). -/
inductive RegionKind where
  | readOnly
  | device
deriving DecidableEq, Repr

/-- A region of the physical map: `size` bytes from `base` on. -/
structure Region where
  kind : RegionKind
  base : Nat
  size : Nat
deriving DecidableEq, Repr

/-- One access to a device as the processor sees it (20_memory.md R83): the physical addresses of the operand's 4 or 8
bytes in ascending linear order, and the bytes read or written. Log 42. -/
structure DeviceEvent where
  kind : Access
  addresses : List Nat
  bytes : List Byte
deriving DecidableEq, Repr

/-- Where the program stands with the duty to execute WBINVD before WHCR changes (70_reset_and_hazards.md R372; log 29). -/
inductive WhcrDuty where
  /-- No WBINVD has been executed since RESET, or since WHCR last changed. -/
  | due
  /-- A WBINVD has been executed since. -/
  | done
  /-- WHCR was changed with the WBINVD omitted. -/
  | omitted
deriving DecidableEq, Repr

/-- The machine. -/
structure State extends Cpu where
  /-- `some` while the processor stands in the outcome `Exception(vector, pc)` (60_exceptions.md R312). -/
  exception : Option ExceptionRecord
  /-- A latched NMI (10_state.md R48). -/
  nmiLatch : Bool
  /-- A latched SMI# (10_state.md R48). -/
  smiLatch : Bool
  /-- A latched FLUSH# (10_state.md R48). -/
  flushLatch : Bool
  /-- Physical memory: the bytes that are not 00h, by address (20_memory.md R70; log 27). -/
  mem : List Host.Cell
  /-- The platform's regions. No instruction and no move of the environment changes them, so memory that becomes read-only
  during a run (70_reset_and_hazards.md R373) is not expressed: DESIGN CHOICE, log 28. -/
  platform : List Region
  /-- The physical addresses of the bytes executed so far; the model's own field (20_memory.md R87; log 13). -/
  fetched : List Nat
  /-- The physical addresses of the bytes stored so far by the program; the model's own field (20_memory.md R87; log 13). -/
  stored : List Nat
  /-- The accesses to devices so far, the newest first; the model's own field (20_memory.md R83; log 42). -/
  deviceEvents : List DeviceEvent
  /-- The WBINVD that must precede a change of WHCR; the model's own field (70_reset_and_hazards.md R372; log 29). -/
  whcrDuty : WhcrDuty
  /-- How many draws of free values have been made; the model's own field (log 37). -/
  draws : Nat
  /-- The moves of the environment still to come, one for each boundary; the model's own field (log 11). -/
  env : List EnvMove
deriving DecidableEq, Repr

/-- Why the machine stops with a fault. -/
inductive Fault where
  /-- A step in the outcome `Exception(vector, pc)` with no handler to come: delivery is not modelled (60_exceptions.md
  R312, R314; D8). Raised by `processorStep`. Safe: the hardware goes on with delivery. -/
  | undeliveredException (kind : Exc) (pc : Dword)
deriving DecidableEq, Repr

/-- Why the machine refuses to go on. Each is safe: the spec gives no behaviour there, the hardware goes on with one. -/
inductive Refusal where
  /-- The instruction has no meaning yet. Raised by `exec` alone. Safe. -/
  | notModelled (mnemonic : String)
  /-- The bytes at `pc` are no instruction the spec describes (30_encoding.md R114, R116; D11, D12, D14). Raised by
  `processorStep`. Safe. -/
  | undescribedBytes (e : DecodeError)
  /-- An MMX instruction met a pending floating-point exception with CR0.NE = 0 and FERR# already asserted: what the
  processor does after the assertion is not described (60_exceptions.md R303, R307; D18). Raised by `mmxPrologue`.
  Safe. -/
  | ferrAssertedWithNEClear
  /-- RDMSR or WRMSR of an MSR that Model 7 does not have (47_system.md R274, R275; D17). Safe. -/
  | unimplementedMsr (number : Dword)
  /-- WRMSR sets a bit of WHCR 63:9 (47_system.md R275; D17). Safe. -/
  | whcrReservedBits
  /-- A store to a byte that the program has executed (20_memory.md R87; D10). Raised by `memWrite`. Safe. -/
  | storeToExecutedCode
  /-- The fetch of a byte that the program has stored (20_memory.md R87; D10). Raised by `fetchCheck`. Safe. -/
  | fetchOfStoredByte
  /-- A store to a region the platform declared read-only (20_memory.md R92). Raised by `memWrite`. Safe. -/
  | storeToReadOnlyRegion
  /-- A store to a device at an address that WHCR makes write-allocate, so that it would be cached (70_reset_and_hazards.md
  R372; 93_implementation_defined.md U17). Raised by `memWrite`. Safe. -/
  | storeToWriteAllocatedDevice
  /-- The fetch of an instruction from a region the platform declared a device, whose bytes the spec does not give
  (20_memory.md R83). Raised by `fetchCheck`. Safe. -/
  | fetchFromDevice
  /-- The program has set WHCR.WCDE (10_state.md R46; 93_implementation_defined.md U7). Raised by `processorStep`. Safe. -/
  | wcdeSet
  /-- The program has changed WHCR without a WBINVD before (70_reset_and_hazards.md R372; 93_implementation_defined.md U17).
  Raised by `processorStep`. Safe. -/
  | whcrChangedWithoutWbinvd
  /-- The instruction's bytes run past the code segment (10_state.md R35, 60_exceptions.md R311; D14). Raised by
  `fetchCheck`. Safe. -/
  | codeSegmentOverrun
  /-- `pc` would wrap at 2^32 (10_state.md R35; D14). Raised by `fetchCheck`. Safe. -/
  | pcWrap
  /-- A handler's move while the processor does not stand in the exception it handles (60_exceptions.md R313), or an
  interrupt's while it stands in one (R320). Raised by `environmentStep`. Safe. -/
  | handlerUnavailable
  /-- A handler's move that leaves registers no machine can hold (10_state.md R40, R45, R46). Raised by
  `environmentStep`. Safe. -/
  | illegalHandlerState
deriving DecidableEq, Repr

/-- The processor signature 0000_0570h + STEPPING (47_system.md R265, 70_reset_and_hazards.md R351). -/
def signature : Dword := 0x00000570 + Config.stepping.zeroExtend 32

/-- The rule that allows every access within the limit (00_scope.md R8, the default; D7). -/
def openRule : SegRule := { kinds := [.read, .write, .fetch], size := none, range := .upToLimit }

/-- A segment record of Real mode: limit FFFFh, every access allowed (20_memory.md R79; the selector and base are the
family's, log 18). -/
def realSegment (selector : BitVec 16) (base : Dword) : SegRecord :=
  { selector, base, limit := 0xFFFF, rules := [openRule] }

/-- The segment registers after RESET (10_state.md R50; log 18). -/
def resetSegs : SegFile :=
  { es := realSegment 0 0, cs := realSegment 0xF000 0xFFFF0000, ss := realSegment 0 0
    ds := realSegment 0 0, fs := realSegment 0 0, gs := realSegment 0 0 }

/-- The floating-point state after RESET with self-test (10_state.md R50; log 18). -/
def resetFpu : Fpu :=
  { mm := .all 0, high := .all 0, ftw := 0x5555, top := 0, pending := false
    condCodes := 0, control := 0x0040, instrPtr := 0, dataPtr := 0 }

/-- The model-specific registers after RESET (10_state.md R41; TR12 and TSC log 18). -/
def resetMsrs : Msrs := { mcar := 0, mctr := 0, tr12Ci := false, tsc := 0, efer := 0, whcr := 0 }

/-- The general registers after RESET or INIT: EDX holds the signature, EAX the given value, the others the family's 0
(70_reset_and_hazards.md R351; log 18). -/
def resetGpr (eax : Dword) : RegFile 32 :=
  { r0 := eax, r1 := 0, r2 := signature, r3 := 0, r4 := 0, r5 := 0, r6 := 0, r7 := 0 }

/-- The registers after RESET with the given value of EAX (70_reset_and_hazards.md R351, 10_state.md R50; log 18). -/
def resetCpu (eax : Dword) : Cpu :=
  { gpr := resetGpr eax, pc := 0x0000FFF0, eflags := 0x00000002, cr0 := 0x60000010, cr2 := 0, cr4 := 0
    idtBase := 0, smmBase := 0x00030000, segs := resetSegs, addr32Default := false, pages := []
    mode := .real, cpl := 0, fpu := resetFpu, msr := resetMsrs, ferr := false }

/-- The machine right after RESET, with nothing in memory (70_reset_and_hazards.md R350 to R354). -/
def State.reset : State :=
  { toCpu := resetCpu Config.bistResult, exception := none, nmiLatch := false, smiLatch := false
    flushLatch := false, mem := [], platform := [], fetched := [], stored := [], deviceEvents := []
    whcrDuty := .due, draws := 0, env := [] }

end Sys2Proof.Machine
end

