-- ==== Sys2Proof/Machine/Flags.lean ====
section
/-! DEFINITION. The named bits of EFLAGS, CR0 and CR4 (10_state.md R36 to R38; the positions other than ID and MCE are
the spec's general knowledge, log 32). No in-scope instruction computes a flag (R36). -/

namespace Sys2Proof.Machine

/-- EFLAGS.VM, bit 17 (10_state.md R36). -/
def State.flagVM (s : State) : Bool := s.eflags.getLsbD 17
/-- EFLAGS.AC, bit 18 (10_state.md R36). -/
def State.flagAC (s : State) : Bool := s.eflags.getLsbD 18
/-- EFLAGS.ID, bit 21, a bit of storage (47_system.md R262). -/
def State.flagID (s : State) : Bool := s.eflags.getLsbD 21
/-- CR0.PE, bit 0 (10_state.md R37). -/
def State.cr0PE (s : State) : Bool := s.cr0.getLsbD 0
/-- CR0.EM, bit 2 (10_state.md R37). -/
def State.cr0EM (s : State) : Bool := s.cr0.getLsbD 2
/-- CR0.TS, bit 3 (10_state.md R37). -/
def State.cr0TS (s : State) : Bool := s.cr0.getLsbD 3
/-- CR0.NE, bit 5 (10_state.md R37). -/
def State.cr0NE (s : State) : Bool := s.cr0.getLsbD 5
/-- CR0.AM, bit 18 (10_state.md R37). -/
def State.cr0AM (s : State) : Bool := s.cr0.getLsbD 18
/-- CR0.NW, bit 29 (10_state.md R37). -/
def State.cr0NW (s : State) : Bool := s.cr0.getLsbD 29
/-- CR0.CD, bit 30 (10_state.md R37). -/
def State.cr0CD (s : State) : Bool := s.cr0.getLsbD 30
/-- CR0.PG, bit 31 (10_state.md R37). -/
def State.cr0PG (s : State) : Bool := s.cr0.getLsbD 31
/-- CR4.TSD, bit 2 (10_state.md R38). -/
def State.cr4TSD (s : State) : Bool := s.cr4.getLsbD 2
/-- CR4.MCE, bit 6, with no effect on the operation of the processor (10_state.md R38). -/
def State.cr4MCE (s : State) : Bool := s.cr4.getLsbD 6

/-- The mask of CR0.TS. -/
def cr0TSMask : Dword := 0x00000008

/-- CR0 with TS set, as a task switch leaves it (10_state.md R37). -/
def setTS (cr0 : Dword) : Dword := cr0 ||| cr0TSMask

/-- CR0 with TS cleared, as the int 7 handler leaves it (60_exceptions.md R313). -/
def clearTS (cr0 : Dword) : Dword := cr0 &&& ~~~cr0TSMask

/-- The mask of CR0.CD and CR0.NW, which INIT preserves (10_state.md R51). -/
def cacheBitsMask : Dword := 0x60000000

/-- CR0 with CD and NW taken from `old` (10_state.md R51). -/
def keepCacheBits (old fresh : Dword) : Dword := (old &&& cacheBitsMask) ||| (fresh &&& ~~~cacheBitsMask)

/-- The operating mode that CR0.PE and EFLAGS.VM give (10_state.md R40). -/
def Cpu.modeFromBits (c : Cpu) : Mode :=
  if !c.cr0.getLsbD 0 then .real else if c.eflags.getLsbD 17 then .virtual8086 else .protectedMode

/-- Registers that a machine can hold: the mode is the one CR0.PE and EFLAGS.VM give, the privilege level is 0 in Real mode,
3 in Virtual 8086 mode and the low two bits of the CS selector in Protected mode (10_state.md R40; level 0 in Real mode
log 39), and the reserved bits of EFER and WHCR are 0 (R45, R46). -/
def Cpu.legal (c : Cpu) : Bool :=
  c.mode == c.modeFromBits && (c.mode != .real || c.cpl == 0) && (c.mode != .virtual8086 || c.cpl == 3) &&
    (c.mode != .protectedMode || c.cpl.val == c.segs.cs.selector.toNat % 4) &&
    c.msr.efer >>> 1 == 0 && c.msr.whcr >>> 9 == 0

end Sys2Proof.Machine
end

