-- ==== Sys2Proof/Machine/Memory.lean ====
section
/-! DEFINITION. Physical memory as a list of (address, byte) pairs in one canonical form: addresses strictly rising and
below 2^32, no byte 00h listed (20_memory.md R70, R72; log 27). -/

namespace Sys2Proof.Machine

/-- What an unlisted byte of memory reads as. DESIGN CHOICE, unsafe: log 27. -/
def unlistedByte : Byte := 0

/-- The size of the physical address space (00_scope.md R8). -/
def memorySize : Nat := 2 ^ 32

/-- Read one byte. -/
def memByte : List Host.Cell → Nat → Byte
  | [], _ => unlistedByte
  | (k, b) :: rest, a => if k = a then b else memByte rest a

/-- Remove the entry of an address from a rising list. -/
def memErase : List Host.Cell → Nat → List Host.Cell
  | [], _ => []
  | (k, b) :: rest, a => if k = a then rest else (k, b) :: memErase rest a

/-- Put an entry into a rising list, replacing the one at its address. -/
def memInsert : List Host.Cell → Nat → Byte → List Host.Cell
  | [], a, v => [(a, v)]
  | (k, b) :: rest, a, v =>
    if a < k then (a, v) :: (k, b) :: rest
    else if k = a then (a, v) :: rest
    else (k, b) :: memInsert rest a v

/-- Write one byte, keeping the canonical form. -/
def memSetByte (m : List Host.Cell) (a : Nat) (v : Byte) : List Host.Cell :=
  if v = unlistedByte then memErase m a else memInsert m a v

/-- Write bytes at the addresses given beside them. -/
def memSetBytes (m : List Host.Cell) : List (Nat × Byte) → List Host.Cell
  | [] => m
  | (a, v) :: rest => memSetBytes (memSetByte m a v) rest

/-- The canonical form from a lower bound on the addresses on. -/
def memWfFrom : Nat → List Host.Cell → Bool
  | _, [] => true
  | low, (k, b) :: rest => decide (low ≤ k) && decide (k < memorySize) && b != unlistedByte && memWfFrom (k + 1) rest

/-- The canonical form. -/
def Memory.wf (m : List Host.Cell) : Bool := memWfFrom 0 m

/-- The little-endian value of bytes, the lowest address first (20_memory.md R72). -/
def leValue : List Byte → Nat
  | [] => 0
  | b :: rest => b.toNat + 256 * leValue rest

/-- The `n` low bytes of a value, lowest first (20_memory.md R72). -/
def leBytes {w : Nat} (n : Nat) (v : BitVec w) : List Byte := (List.range n).map fun k => v.extractLsb' (8 * k) 8

/-- Whether an address lies in a platform region of the given kind. -/
def inRegion (regions : List Region) (kind : RegionKind) (a : Nat) : Bool :=
  regions.any fun r => r.kind == kind && decide (r.base ≤ a) && decide (a < r.base + r.size)

/-- The field WAELIM of WHCR, bits 7 to 1 (10_state.md R46). -/
def whcrLimitField (whcr : Qword) : Nat := (whcr.extractLsb' 1 7).toNat

/-- Whether the limit mechanism write-allocates at a physical address: a cache-fill policy that changes no architectural
result (20_memory.md R89). -/
def writeAllocateByLimit (whcr : Qword) (a : Nat) : Bool :=
  whcrLimitField whcr != 0 && decide (a < whcrLimitField whcr * 0x400000) &&
    !(decide (0xA0000 ≤ a) && decide (a ≤ 0xFFFFF)) &&
    !(decide (0xF00000 ≤ a) && decide (a ≤ 0xFFFFFF) && !whcr.getLsbD 0)

/-- Add addresses to a list without repeats. -/
def addAddresses (old new : List Nat) : List Nat := (new.filter fun a => !old.contains a) ++ old

end Sys2Proof.Machine
end

