-- ==== Sys2Proof/Machine/Ops.lean ====
section
/-! DEFINITION. The named operations that the instructions share: registers, raising an exception and returning from one,
the prologue and the end of an MMX instruction, and the two access primitives with their checks. -/

namespace Sys2Proof.Machine

/-- What a step of the machine answers. -/
abbrev Result := Host.Outcome State Fault Refusal

/-! ### Registers -/

/-- Read register `i`. -/
def RegFile.get {w : Nat} (f : RegFile w) (i : Fin 8) : BitVec w :=
  match i with
  | 0 => f.r0
  | 1 => f.r1
  | 2 => f.r2
  | 3 => f.r3
  | 4 => f.r4
  | 5 => f.r5
  | 6 => f.r6
  | 7 => f.r7

/-- Write register `i`. -/
def RegFile.set {w : Nat} (f : RegFile w) (i : Fin 8) (v : BitVec w) : RegFile w :=
  match i with
  | 0 => { f with r0 := v }
  | 1 => { f with r1 := v }
  | 2 => { f with r2 := v }
  | 3 => { f with r3 := v }
  | 4 => { f with r4 := v }
  | 5 => { f with r5 := v }
  | 6 => { f with r6 := v }
  | 7 => { f with r7 := v }

/-- `GPR[i]` (00_scope.md R12). -/
def State.gprAt (s : State) (i : Gpr) : Dword := s.gpr.get i

/-- `GPR[i] <- v` (00_scope.md R12). -/
def State.setGpr (s : State) (i : Gpr) (v : Dword) : State := { s with gpr := s.gpr.set i v }

/-- `MM[i]` (00_scope.md R12). -/
def State.mmAt (s : State) (i : MmReg) : Qword := s.fpu.mm.get i

/-- `MM[i] <- v`, which sets bits 79 to 64 of the floating-point register to ones (10_state.md R23). -/
def State.setMm (s : State) (i : MmReg) (v : Qword) : State :=
  { s with fpu := { s.fpu with mm := s.fpu.mm.set i v, high := s.fpu.high.set i 0xFFFF } }

/-- `pc <- pc + length` (10_state.md R35). -/
def State.advance (s : State) (length : Nat) : State := { s with pc := s.pc + BitVec.ofNat 32 length }

/-- The tag word and the top-of-stack field, which every MMX instruction writes (10_state.md R23, R26). -/
def State.setTags (s : State) (tags : BitVec 16) : State := { s with fpu := { s.fpu with ftw := tags, top := 0 } }

/-- The segment register's record (10_state.md R39). -/
def SegFile.get (f : SegFile) : SegReg → SegRecord
  | .es => f.es
  | .cs => f.cs
  | .ss => f.ss
  | .ds => f.ds
  | .fs => f.fs
  | .gs => f.gs

/-! ### Exceptions -/

/-- The state in which `raise #XX` leaves the processor: the outcome `Exception(vector, pc)`, FERR# asserted for a pending
floating-point exception, everything else as before the instruction (60_exceptions.md R307, R310, R312). -/
def takeException (e : Exc) (s : State) : State :=
  { s with ferr := s.ferr || e == .floatingPointPending, exception := some { kind := e, pc := s.pc } }

/-- Resume at `pc` after the handler's work (60_exceptions.md R313). -/
def resumeAt (pc : Dword) (s : State) : State := { s with pc := pc, exception := none }

/-- A computation that may raise an exception or be refused before it has changed anything (60_exceptions.md R310). -/
inductive Check (α : Type) where
  | ok (a : α)
  | raised (e : Exc)
  /-- FERR# is asserted and nothing more (60_exceptions.md R307, CR0.NE = 0; log 24). -/
  | ferrOnly
  | refused (r : Refusal)
deriving DecidableEq, Repr

/-- Go on where nothing was raised or refused. -/
def Check.bind {α β : Type} (c : Check α) (f : α → Check β) : Check β :=
  match c with
  | .ok a => f a
  | .raised e => .raised e
  | .ferrOnly => .ferrOnly
  | .refused r => .refused r

/-- `assert FERR#`, with nothing else changed (60_exceptions.md R303, R307). -/
def assertFerr (s : State) : State := { s with ferr := true }

/-- End an instruction that began in `s`: its new state, the exception it raises, the assertion of FERR#, or its
refusal. -/
def Check.finish (s : State) (c : Check State) : Result :=
  match c with
  | .ok t => .next t
  | .raised e => .next (takeException e s)
  | .ferrOnly => .next (assertFerr s)
  | .refused r => .refused r

/-- The checks every MMX instruction makes before it reads an operand (60_exceptions.md R303). With a pending
floating-point exception and CR0.NE = 0, FERR# is asserted first, and an instruction that finds it asserted is refused
(R307; D18; log 24). The refusal is the next step's and looks at the state as it stands then, so that a move of the environment
in between may let the program go on: DESIGN CHOICE, log 24. -/
def mmxPrologue (p : Prefixes) (s : State) : Check Unit :=
  if p.lock then .raised .invalidOpcode
  else if s.cr0EM then .raised .invalidOpcode
  else if s.cr0TS then .raised .deviceNotAvailable
  else if s.fpu.pending then
    if s.cr0NE then .raised .floatingPointPending
    else if s.ferr then .refused .ferrAssertedWithNEClear
    else .ferrOnly
  else .ok ()

/-- How every MMX instruction but EMMS ends: `mmx_epilogue()`, then the advance of `pc` (10_state.md R27, R35). -/
def State.mmxDone (s : State) (length : Nat) : State := (s.setTags 0x0000).advance length

/-- Privilege level 0 is required, which Virtual 8086 mode never has (47_system.md R274 to R277; D23; log 25). -/
def requireCpl0 (s : State) : Check Unit :=
  if s.cpl ≠ 0 ∨ s.mode = .virtual8086 then .raised .generalProtection else .ok ()

/-! ### Memory access (20_memory.md R76) -/

/-- Whether an access of `n` bytes from `off` on lies in a range of a segment with the given limit. No access wraps within
the limit (20_memory.md R80; log 7). -/
def OffsetRange.covers (limit off : Dword) (n : Nat) : OffsetRange → Bool
  | .upToLimit => decide (off.toNat + n - 1 ≤ limit.toNat)
  | .aboveLimit => decide (limit < off) && decide (off.toNat + n ≤ 2 ^ 32)
  | .startingIn first last => decide (first ≤ off) && decide (off ≤ last)

/-- Whether one rule allows an access (20_memory.md R80; log 7). -/
def SegRule.allows (limit off : Dword) (n : Nat) (kind : Access) (r : SegRule) : Bool :=
  r.kinds.contains kind && r.size.all (· == n) && r.range.covers limit off n

/-- `SegOK` of Protected mode: some rule of the segment allows the access (20_memory.md R80; log 7). -/
def SegRecord.ok (g : SegRecord) (off : Dword) (n : Nat) (kind : Access) : Bool :=
  g.rules.any (SegRule.allows g.limit off n kind)

/-- Check 1: the segment (20_memory.md R76, R78, R79, R80). -/
def segCheck (s : State) (seg : SegReg) (off : Dword) (n : Nat) (kind : Access) : Check Unit :=
  match s.mode with
  | .protectedMode =>
    if (s.segs.get seg).ok off n kind then .ok ()
    else if seg = .ss then .raised .stackException
    else .raised .generalProtection
  | _ =>
    if off.toNat + n - 1 ≤ 0xFFFF then .ok ()
    else if seg = .ss then .raised .stackException
    else .raised .segmentOverrun

/-- Step 2: the linear address (20_memory.md R76). -/
def linear (s : State) (seg : SegReg) (off : Dword) : Dword := (s.segs.get seg).base + off

/-- Whether alignment checking is on (20_memory.md R75). -/
def alignmentChecked (s : State) : Bool := s.cr0AM && s.flagAC && s.cpl == 3 && s.mode != .real

/-- Check 3: alignment, on the linear address (20_memory.md R75, R76). -/
def alignCheck (s : State) (lin : Dword) (n : Nat) : Check Unit :=
  if alignmentChecked s && lin.toNat % n != 0 then .raised .alignmentCheck else .ok ()

/-- Whether a page rule speaks of an access of `size` bytes at a linear address (20_memory.md R81; log 8). -/
def PageRule.applies (lin : Dword) (size : Nat) (kind : Access) (cpl : Fin 4) (r : PageRule) : Bool :=
  decide (r.first ≤ lin) && decide (lin ≤ r.last) && r.kinds.contains kind && r.levels.contains cpl && r.size.all (· == size)

/-- `Translate(lin, n, kind, CPL)`: the physical address, and how many bytes after it belong to the same page; `none` for a page
fault. The first page rule that applies decides; where there is none and in Real mode it is the identity, byte by byte
(20_memory.md R81; log 8). -/
def translateAt (s : State) (kind : Access) (n : Nat) (lin : Dword) : Option (Dword × Nat) :=
  if s.mode = .real then some (lin, 0)
  else
    match s.pages.find? (PageRule.applies lin n kind s.cpl) with
    | none => some (lin, 0)
    | some r => r.target.map fun target => (target + (lin - r.first), (r.pageEnd - lin).toNat)

/-- The physical address of an access's byte at `lin`, and how many bytes after it belong to the same page, when `before` says
so of the byte before: the next address within a page, asked of `Translate` where a page begins (20_memory.md R76, R81). -/
def translateNext (s : State) (kind : Access) (n : Nat) (lin : Dword) (before : Dword × Nat) : Option (Dword × Nat) :=
  match before.2 with
  | left + 1 => some (before.1 + 1, left)
  | 0 => translateAt s kind n lin

/-- The physical addresses of `count` bytes of an access of `n` bytes, from the one at `lin` on; `none` where a page faults.
After the byte at FFFF_FFFFh comes the one at 0, in linear and in physical addresses: DESIGN CHOICE, log 43. -/
def translateBytes (s : State) (kind : Access) (n : Nat) (lin : Dword) (before : Dword × Nat) : Nat → Option (List Nat)
  | 0 => some []
  | count + 1 =>
    match translateNext s kind n lin before with
    | none => none
    | some here =>
      match translateBytes s kind n (lin + 1) here count with
      | none => none
      | some rest => some (here.1.toNat :: rest)

/-- The physical addresses of the `n` bytes of an access, page by page, `none` for a page fault (20_memory.md R76, R81;
log 8). -/
def translate (s : State) (kind : Access) (lin : Dword) (n : Nat) : Option (List Nat) := translateBytes s kind n lin (0, 0) n

/-- Checks 1 to 4: the physical addresses of the operand's bytes, in ascending linear order (20_memory.md R76). -/
def accessAddresses (s : State) (seg : SegReg) (off : Dword) (n : Nat) (kind : Access) : Check (List Nat) :=
  (segCheck s seg off n kind).bind fun _ =>
    (alignCheck s (linear s seg off) n).bind fun _ =>
      match translate s kind (linear s seg off) n with
      | none => .raised .pageFault
      | some addresses => .ok addresses

/-- The byte at a physical address as an access reads it: a device's byte is a free value (20_memory.md R83; log 42). -/
def loadByte (s : State) (a : Nat) : Byte :=
  if inRegion s.platform .device a then Config.deviceByte s.draws a else memByte s.mem a

/-- The events after an access: one more where it touches a device (20_memory.md R83; log 42). -/
def deviceEventsAfter (s : State) (kind : Access) (addresses : List Nat) (bytes : List Byte) : List DeviceEvent :=
  if addresses.any (inRegion s.platform .device) then { kind, addresses, bytes } :: s.deviceEvents else s.deviceEvents

/-- The state after a read: the read of a device is one event, and one draw of free values (20_memory.md R83; log 42). -/
def afterRead (s : State) (addresses : List Nat) : State :=
  { s with
    draws := if addresses.any (inRegion s.platform .device) then s.draws + 1 else s.draws
    deviceEvents := deviceEventsAfter s .read addresses (addresses.map (loadByte s)) }

/-- `MemRead(seg, off, n)`: the bytes with the lowest address first, and the state after the read (20_memory.md R76, R83). -/
def memRead (s : State) (seg : SegReg) (off : Dword) (n : Nat) : Check (List Byte × State) :=
  (accessAddresses s seg off n .read).bind fun addresses => .ok (addresses.map (loadByte s), afterRead s addresses)

/-- Memory after a store of bytes at physical addresses; a device's bytes go to the device (20_memory.md R83). -/
def storeBytes (s : State) (addresses : List Nat) (bytes : List Byte) : List Host.Cell :=
  memSetBytes s.mem ((addresses.zip bytes).filter fun c => !inRegion s.platform .device c.1)

/-- `MemWrite(seg, off, n, v)` with the bytes of `v`, the lowest address first (20_memory.md R76, R83, R87, R92;
70_reset_and_hazards.md R372). -/
def memWrite (s : State) (seg : SegReg) (off : Dword) (bytes : List Byte) : Check State :=
  (accessAddresses s seg off bytes.length .write).bind fun addresses =>
    if addresses.any (inRegion s.platform .readOnly) then .refused .storeToReadOnlyRegion
    else if addresses.any fun a => inRegion s.platform .device a && writeAllocateByLimit s.msr.whcr a then
      .refused .storeToWriteAllocatedDevice
    else if addresses.any s.fetched.contains then .refused .storeToExecutedCode
    else
      .ok { s with
        mem := storeBytes s addresses bytes
        stored := addAddresses s.stored addresses
        deviceEvents := deviceEventsAfter s .write addresses bytes }

end Sys2Proof.Machine
end

