-- ==== Sys2Proof/Machine/Operands.lean ====
section
/-! DEFINITION. Operand forms: effective addresses (30_encoding.md R105 to R107), the segment they go through (R117), and
reading or writing the `rm` operand (R104). -/

namespace Sys2Proof.Machine

/-- A displacement of 32-bit addressing as a number (30_encoding.md R105). -/
def dispValue32 : Disp32 → Dword
  | .none => 0
  | .d8 d => d.signExtend 32
  | .d32 d => d

/-- A displacement of 16-bit addressing as a number (30_encoding.md R107). -/
def dispValue16 : Disp16 → Word
  | .none => 0
  | .d8 d => d.signExtend 16
  | .d16 d => d

/-- `Index` of the SIB form: no index where the number is 4 (30_encoding.md R106). -/
def indexValue (s : State) (scale : Fin 4) (index : Gpr) : Dword :=
  if index = 4 then 0 else s.gprAt index <<< scale.val

/-- The low 16 bits of a general-purpose register (30_encoding.md R107). -/
def low16 (s : State) (i : Gpr) : Word := (s.gprAt i).setWidth 16

/-- The registers of row `rm` of the 16-bit table; BX is 3, BP 5, SI 6, DI 7 (30_encoding.md R107). -/
def sum16 (s : State) (rm : Fin 8) : Word :=
  match rm with
  | 0 => low16 s 3 + low16 s 6
  | 1 => low16 s 3 + low16 s 7
  | 2 => low16 s 5 + low16 s 6
  | 3 => low16 s 5 + low16 s 7
  | 4 => low16 s 6
  | 5 => low16 s 7
  | 6 => low16 s 5
  | 7 => low16 s 3

/-- The effective address: modulo 2^32 under 32-bit addressing, modulo 2^16 and zero-extended under 16-bit
(30_encoding.md R105 to R107). -/
def effectiveAddress (s : State) : MemOperand → Dword
  | .a32 (.base r d) => s.gprAt r + dispValue32 d
  | .a32 (.abs d) => d
  | .a32 (.sib scale index base d) => s.gprAt base + indexValue s scale index + dispValue32 d
  | .a32 (.sibNoBase scale index d) => d + indexValue s scale index
  | .a16 (.regs rm d) => (sum16 s rm + dispValue16 d).setWidth 32
  | .a16 (.abs d) => d.setWidth 32

/-- The default segment: SS where the base register is EBP, ESP or BP, else DS (30_encoding.md R105 to R107). -/
def defaultSegment : MemOperand → SegReg
  | .a32 (.base r _) => if r = 5 then .ss else .ds
  | .a32 (.abs _) => .ds
  | .a32 (.sib _ _ base _) => if base = 4 ∨ base = 5 then .ss else .ds
  | .a32 (.sibNoBase _ _ _) => .ds
  | .a16 (.regs rm _) => if rm = 2 ∨ rm = 3 ∨ rm = 6 then .ss else .ds
  | .a16 (.abs _) => .ds

/-- The segment used: an override if there is one, else the default (20_memory.md R77, 30_encoding.md R117). -/
def segmentOf (p : Prefixes) (m : MemOperand) : SegReg := p.seg.getD (defaultSegment m)

/-- `SRC64`, and the state after it is read (30_encoding.md R104). -/
def readSrc64 (p : Prefixes) (rm : RM) (s : State) : Check (Qword × State) :=
  match rm with
  | .reg n => .ok (s.mmAt n, s)
  | .mem m =>
    (memRead s (segmentOf p m) (effectiveAddress s m) 8).bind fun r => .ok (BitVec.ofNat 64 (leValue r.1), r.2)

/-- `SRC32`, the source of the MOVD load form, and the state after it is read (30_encoding.md R104). -/
def readSrc32 (p : Prefixes) (rm : RM) (s : State) : Check (Dword × State) :=
  match rm with
  | .reg n => .ok (s.gprAt n, s)
  | .mem m =>
    (memRead s (segmentOf p m) (effectiveAddress s m) 4).bind fun r => .ok (BitVec.ofNat 32 (leValue r.1), r.2)

/-- The destination of the MOVQ store form (45_move.md R224). -/
def writeDst64 (p : Prefixes) (rm : RM) (v : Qword) (s : State) : Check State :=
  match rm with
  | .reg n => .ok (s.setMm n v)
  | .mem m => memWrite s (segmentOf p m) (effectiveAddress s m) (leBytes 8 v)

/-- The destination of the MOVD store form (45_move.md R222). -/
def writeDst32 (p : Prefixes) (rm : RM) (v : Dword) (s : State) : Check State :=
  match rm with
  | .reg n => .ok (s.setGpr n v)
  | .mem m => memWrite s (segmentOf p m) (effectiveAddress s m) (leBytes 4 v)

/-- The frame of the forms `mmreg1, mmreg2/mem64` whose result goes to `mmreg1` (40_arithmetic.md R140, 42_compare.md
R175, 43_convert.md R190, 44_logical.md R210, 46_shift.md R230 form A): `f DEST SRC` is the result. -/
def mmxRegMem (f : Qword → Qword → Qword) (p : Prefixes) (dst : MmReg) (src : RM) (s : State) : Result :=
  ((mmxPrologue p s).bind fun _ =>
    (readSrc64 p src s).bind fun r =>
      .ok ((r.2.setMm dst (f (s.mmAt dst) r.1)).mmxDone (rmLength p src))).finish s

/-- The frame of the immediate shifts (46_shift.md R230 form B): `f DEST COUNT` is the result. -/
def mmxRegImm (f : Qword → Nat → Qword) (p : Prefixes) (dst : MmReg) (imm : Byte) (s : State) : Result :=
  ((mmxPrologue p s).bind fun _ =>
    .ok ((s.setMm dst (f (s.mmAt dst) imm.toNat)).mmxDone (immLength p))).finish s

end Sys2Proof.Machine
end

