-- ==== Sys2Proof/Machine/Packed.lean ====
section
/-! DEFINITION. Packed elements of 64 bits (00_scope.md R9 to R12): the elements `B`, `W`, `D` of a value, values built
from their elements, saturation, and the three element shifts of 46_shift.md R230. -/

namespace Sys2Proof.Machine

/-- `B(v,i)`, byte `i` of `v`, byte 0 the least significant (00_scope.md R10). -/
def byteAt (v : Qword) (i : Nat) : BitVec 8 := v.extractLsb' (8 * i) 8
/-- `W(v,i)`, word `i` of `v` (00_scope.md R10). -/
def wordAt (v : Qword) (i : Nat) : BitVec 16 := v.extractLsb' (16 * i) 16
/-- `D(v,i)`, doubleword `i` of `v` (00_scope.md R10). -/
def dwordAt (v : Qword) (i : Nat) : BitVec 32 := v.extractLsb' (32 * i) 32

/-- The value whose byte `i` is `f i`. -/
def ofBytes (f : Nat → BitVec 8) : Qword := f 7 ++ f 6 ++ f 5 ++ f 4 ++ f 3 ++ f 2 ++ f 1 ++ f 0
/-- The value whose word `i` is `f i`. -/
def ofWords (f : Nat → BitVec 16) : Qword := f 3 ++ f 2 ++ f 1 ++ f 0
/-- The value whose doubleword `i` is `f i`. -/
def ofDwords (f : Nat → BitVec 32) : Qword := f 1 ++ f 0

/-- Byte by byte from the two operands; no element's result depends on another (40_arithmetic.md R140). -/
def zipBytes (f : BitVec 8 → BitVec 8 → BitVec 8) (d s : Qword) : Qword := ofBytes fun i => f (byteAt d i) (byteAt s i)
/-- Word by word from the two operands. -/
def zipWords (f : BitVec 16 → BitVec 16 → BitVec 16) (d s : Qword) : Qword := ofWords fun i => f (wordAt d i) (wordAt s i)
/-- Doubleword by doubleword from the two operands. -/
def zipDwords (f : BitVec 32 → BitVec 32 → BitVec 32) (d s : Qword) : Qword :=
  ofDwords fun i => f (dwordAt d i) (dwordAt s i)

/-- `sat_s_N(n)` (00_scope.md R12). -/
def satS (w : Nat) (n : Int) : BitVec w :=
  if n < -(2 : Int) ^ (w - 1) then BitVec.ofInt w (-(2 : Int) ^ (w - 1))
  else if n > (2 : Int) ^ (w - 1) - 1 then BitVec.ofInt w ((2 : Int) ^ (w - 1) - 1)
  else BitVec.ofInt w n

/-- `sat_u_N(n)` (00_scope.md R12). -/
def satU (w : Nat) (n : Int) : BitVec w :=
  if n < 0 then 0
  else if n > (2 : Int) ^ w - 1 then BitVec.ofInt w ((2 : Int) ^ w - 1)
  else BitVec.ofInt w n

/-- `shl_w(x, c)` (46_shift.md R230). -/
def shlElem {w : Nat} (x : BitVec w) (c : Nat) : BitVec w := if w ≤ c then 0 else x <<< c

/-- `shr_w(x, c)` (46_shift.md R230). -/
def shrElem {w : Nat} (x : BitVec w) (c : Nat) : BitVec w := if w ≤ c then 0 else x >>> c

/-- `sar_w(x, c)` (46_shift.md R230). -/
def sarElem {w : Nat} (x : BitVec w) (c : Nat) : BitVec w :=
  if w ≤ c then (if x.msb then BitVec.allOnes w else 0) else x.sshiftRight c

/-- The 32-bit signed product of two words (40_arithmetic.md R156). -/
def product (a b : BitVec 16) : BitVec 32 := BitVec.ofInt 32 (a.toInt * b.toInt)

/-- All ones where the comparison holds, all zeros elsewhere (42_compare.md R175). -/
def maskOf (w : Nat) (holds : Bool) : BitVec w := if holds then BitVec.allOnes w else 0

end Sys2Proof.Machine
end

