-- ==== Sys2Proof/Machine/Arithmetic.lean ====
section
/-! DEFINITION. The arithmetic instructions (40_arithmetic.md), in the frame of R140. -/

namespace Sys2Proof.Machine

/-- PADDB mm, mm/m64: bytes added modulo 2^8 (R141). -/
def execPaddb (p : Prefixes) (dst : MmReg) (src : RM) (s : State) : Result :=
  mmxRegMem (zipBytes fun d v => d + v) p dst src s

/-- PADDW mm, mm/m64: words added modulo 2^16 (R142). -/
def execPaddw (p : Prefixes) (dst : MmReg) (src : RM) (s : State) : Result :=
  mmxRegMem (zipWords fun d v => d + v) p dst src s

/-- PADDD mm, mm/m64: doublewords added modulo 2^32 (R143). -/
def execPaddd (p : Prefixes) (dst : MmReg) (src : RM) (s : State) : Result :=
  mmxRegMem (zipDwords fun d v => d + v) p dst src s

/-- PADDSB mm, mm/m64: signed bytes added and saturated (R144). -/
def execPaddsb (p : Prefixes) (dst : MmReg) (src : RM) (s : State) : Result :=
  mmxRegMem (zipBytes fun d v => satS 8 (d.toInt + v.toInt)) p dst src s

/-- PADDSW mm, mm/m64: signed words added and saturated (R145). -/
def execPaddsw (p : Prefixes) (dst : MmReg) (src : RM) (s : State) : Result :=
  mmxRegMem (zipWords fun d v => satS 16 (d.toInt + v.toInt)) p dst src s

/-- PADDUSB mm, mm/m64: unsigned bytes added and saturated (R146). -/
def execPaddusb (p : Prefixes) (dst : MmReg) (src : RM) (s : State) : Result :=
  mmxRegMem (zipBytes fun d v => satU 8 ((d.toNat : Int) + (v.toNat : Int))) p dst src s

/-- PADDUSW mm, mm/m64: unsigned words added and saturated (R147). -/
def execPaddusw (p : Prefixes) (dst : MmReg) (src : RM) (s : State) : Result :=
  mmxRegMem (zipWords fun d v => satU 16 ((d.toNat : Int) + (v.toNat : Int))) p dst src s

/-- PSUBB mm, mm/m64: source bytes subtracted modulo 2^8 (R148). -/
def execPsubb (p : Prefixes) (dst : MmReg) (src : RM) (s : State) : Result :=
  mmxRegMem (zipBytes fun d v => d - v) p dst src s

/-- PSUBW mm, mm/m64: source words subtracted modulo 2^16 (R149). -/
def execPsubw (p : Prefixes) (dst : MmReg) (src : RM) (s : State) : Result :=
  mmxRegMem (zipWords fun d v => d - v) p dst src s

/-- PSUBD mm, mm/m64: source doublewords subtracted modulo 2^32 (R150). -/
def execPsubd (p : Prefixes) (dst : MmReg) (src : RM) (s : State) : Result :=
  mmxRegMem (zipDwords fun d v => d - v) p dst src s

/-- PSUBSB mm, mm/m64: signed source bytes subtracted, saturated (R151). -/
def execPsubsb (p : Prefixes) (dst : MmReg) (src : RM) (s : State) : Result :=
  mmxRegMem (zipBytes fun d v => satS 8 (d.toInt - v.toInt)) p dst src s

/-- PSUBSW mm, mm/m64: signed source words subtracted, saturated (R152). -/
def execPsubsw (p : Prefixes) (dst : MmReg) (src : RM) (s : State) : Result :=
  mmxRegMem (zipWords fun d v => satS 16 (d.toInt - v.toInt)) p dst src s

/-- PSUBUSB mm, mm/m64: unsigned source bytes subtracted, saturated (R153). -/
def execPsubusb (p : Prefixes) (dst : MmReg) (src : RM) (s : State) : Result :=
  mmxRegMem (zipBytes fun d v => satU 8 ((d.toNat : Int) - (v.toNat : Int))) p dst src s

/-- PSUBUSW mm, mm/m64: unsigned source words subtracted, saturated (R154). -/
def execPsubusw (p : Prefixes) (dst : MmReg) (src : RM) (s : State) : Result :=
  mmxRegMem (zipWords fun d v => satU 16 ((d.toNat : Int) - (v.toNat : Int))) p dst src s

/-- PMADDWD mm, mm/m64: signed word products added in pairs modulo 2^32 (R155). -/
def execPmaddwd (p : Prefixes) (dst : MmReg) (src : RM) (s : State) : Result :=
  mmxRegMem (fun d v => ofDwords fun i => product (wordAt d (2 * i)) (wordAt v (2 * i)) + product (wordAt d (2 * i + 1)) (wordAt v (2 * i + 1))) p dst src s

/-- PMULHW mm, mm/m64: the high word of each signed product (R156). -/
def execPmulhw (p : Prefixes) (dst : MmReg) (src : RM) (s : State) : Result :=
  mmxRegMem (zipWords fun d v => (product d v).extractLsb' 16 16) p dst src s

/-- PMULLW mm, mm/m64: the low word of each signed product (R157). -/
def execPmullw (p : Prefixes) (dst : MmReg) (src : RM) (s : State) : Result :=
  mmxRegMem (zipWords fun d v => (product d v).extractLsb' 0 16) p dst src s

end Sys2Proof.Machine
end

