-- ==== Sys2Proof/Machine/Compare.lean ====
section
/-! DEFINITION. The compare instructions (42_compare.md), in the frame of R175. Greater-than is signed, the destination on the left. -/

namespace Sys2Proof.Machine

/-- PCMPEQB mm, mm/m64: a mask of the equal bytes (R176). -/
def execPcmpeqb (p : Prefixes) (dst : MmReg) (src : RM) (s : State) : Result :=
  mmxRegMem (zipBytes fun d v => maskOf 8 (d == v)) p dst src s

/-- PCMPEQW mm, mm/m64: a mask of the equal words (R177). -/
def execPcmpeqw (p : Prefixes) (dst : MmReg) (src : RM) (s : State) : Result :=
  mmxRegMem (zipWords fun d v => maskOf 16 (d == v)) p dst src s

/-- PCMPEQD mm, mm/m64: a mask of the equal doublewords (R178). -/
def execPcmpeqd (p : Prefixes) (dst : MmReg) (src : RM) (s : State) : Result :=
  mmxRegMem (zipDwords fun d v => maskOf 32 (d == v)) p dst src s

/-- PCMPGTB mm, mm/m64: a mask of the greater bytes (R179). -/
def execPcmpgtb (p : Prefixes) (dst : MmReg) (src : RM) (s : State) : Result :=
  mmxRegMem (zipBytes fun d v => maskOf 8 (decide (d.toInt > v.toInt))) p dst src s

/-- PCMPGTW mm, mm/m64: a mask of the greater words (R180). -/
def execPcmpgtw (p : Prefixes) (dst : MmReg) (src : RM) (s : State) : Result :=
  mmxRegMem (zipWords fun d v => maskOf 16 (decide (d.toInt > v.toInt))) p dst src s

/-- PCMPGTD mm, mm/m64: a mask of the greater doublewords (R181). -/
def execPcmpgtd (p : Prefixes) (dst : MmReg) (src : RM) (s : State) : Result :=
  mmxRegMem (zipDwords fun d v => maskOf 32 (decide (d.toInt > v.toInt))) p dst src s

end Sys2Proof.Machine
end

