-- ==== Sys2Proof/Machine/Convert.lean ====
section
/-! DEFINITION. The pack and unpack instructions (43_convert.md), in the frame of R190. -/

namespace Sys2Proof.Machine

/-- The eight words of the two operands, the destination's in the low positions (43_convert.md R190). -/
def packWords (f : BitVec 16 → BitVec 8) (d v : Qword) : Qword :=
  ofBytes fun i => if i < 4 then f (wordAt d i) else f (wordAt v (i - 4))

/-- Interleave: element `2i` from the destination, element `2i + 1` from the source, from the byte numbered `low` on
(43_convert.md R190). -/
def interleaveBytes (low : Nat) (d v : Qword) : Qword := ofWords fun i => byteAt v (low + i) ++ byteAt d (low + i)

/-- Interleave words, from the word numbered `low` on. -/
def interleaveWords (low : Nat) (d v : Qword) : Qword := ofDwords fun i => wordAt v (low + i) ++ wordAt d (low + i)

/-- Interleave doublewords, the doubleword numbered `low`. -/
def interleaveDwords (low : Nat) (d v : Qword) : Qword := dwordAt v low ++ dwordAt d low

/-- PACKSSWB mm, mm/m64: signed words to signed bytes, saturated (R191). -/
def execPacksswb (p : Prefixes) (dst : MmReg) (src : RM) (s : State) : Result :=
  mmxRegMem (packWords fun x => satS 8 x.toInt) p dst src s

/-- PACKSSDW mm, mm/m64: signed doublewords to signed words, saturated (R192). -/
def execPackssdw (p : Prefixes) (dst : MmReg) (src : RM) (s : State) : Result :=
  mmxRegMem (fun d v => ofWords fun i => satS 16 (if i < 2 then dwordAt d i else dwordAt v (i - 2)).toInt) p dst src s

/-- PACKUSWB mm, mm/m64: signed words to unsigned bytes, saturated (R193). -/
def execPackuswb (p : Prefixes) (dst : MmReg) (src : RM) (s : State) : Result :=
  mmxRegMem (packWords fun x => satU 8 x.toInt) p dst src s

/-- PUNPCKHBW mm, mm/m64: interleave the high bytes (R194). -/
def execPunpckhbw (p : Prefixes) (dst : MmReg) (src : RM) (s : State) : Result :=
  mmxRegMem (interleaveBytes 4) p dst src s

/-- PUNPCKHWD mm, mm/m64: interleave the high words (R195). -/
def execPunpckhwd (p : Prefixes) (dst : MmReg) (src : RM) (s : State) : Result :=
  mmxRegMem (interleaveWords 2) p dst src s

/-- PUNPCKHDQ mm, mm/m64: interleave the high doublewords (R196). -/
def execPunpckhdq (p : Prefixes) (dst : MmReg) (src : RM) (s : State) : Result :=
  mmxRegMem (interleaveDwords 1) p dst src s

/-- PUNPCKLBW mm, mm/m64: interleave the low bytes (R197). -/
def execPunpcklbw (p : Prefixes) (dst : MmReg) (src : RM) (s : State) : Result :=
  mmxRegMem (interleaveBytes 0) p dst src s

/-- PUNPCKLWD mm, mm/m64: interleave the low words (R198). -/
def execPunpcklwd (p : Prefixes) (dst : MmReg) (src : RM) (s : State) : Result :=
  mmxRegMem (interleaveWords 0) p dst src s

/-- PUNPCKLDQ mm, mm/m64: interleave the low doublewords (R199). -/
def execPunpckldq (p : Prefixes) (dst : MmReg) (src : RM) (s : State) : Result :=
  mmxRegMem (interleaveDwords 0) p dst src s

end Sys2Proof.Machine
end

