-- ==== Sys2Proof/Machine/Empty.lean ====
section
/-! DEFINITION. EMMS (41_empty.md). -/

namespace Sys2Proof.Machine

/-- EMMS: all eight tags become empty; no MMX register changes (R170, 10_state.md R28). -/
def execEmms (p : Prefixes) (s : State) : Result :=
  ((mmxPrologue p s).bind fun _ => .ok ((s.setTags 0xFFFF).advance (emmsLength p))).finish s

end Sys2Proof.Machine
end

