-- ==== Sys2Proof/Machine/Logical.lean ====
section
/-! DEFINITION. The logical instructions (44_logical.md), in the frame of R210. No flag is written. -/

namespace Sys2Proof.Machine

/-- PAND mm, mm/m64: bitwise AND (R211). -/
def execPand (p : Prefixes) (dst : MmReg) (src : RM) (s : State) : Result :=
  mmxRegMem (fun d v => d &&& v) p dst src s

/-- PANDN mm, mm/m64: the destination inverted, then AND (R212). -/
def execPandn (p : Prefixes) (dst : MmReg) (src : RM) (s : State) : Result :=
  mmxRegMem (fun d v => ~~~d &&& v) p dst src s

/-- POR mm, mm/m64: bitwise OR (R213). -/
def execPor (p : Prefixes) (dst : MmReg) (src : RM) (s : State) : Result :=
  mmxRegMem (fun d v => d ||| v) p dst src s

/-- PXOR mm, mm/m64: bitwise exclusive OR (R214). -/
def execPxor (p : Prefixes) (dst : MmReg) (src : RM) (s : State) : Result :=
  mmxRegMem (fun d v => d ^^^ v) p dst src s

end Sys2Proof.Machine
end

