-- ==== Sys2Proof/Machine/Move.lean ====
section
/-! DEFINITION. MOVD and MOVQ in their load and store forms (45_move.md), in the frame of R220. -/

namespace Sys2Proof.Machine

/-- MOVD mm, r/m32: the upper half becomes zero (R221). -/
def execMovdLoad (p : Prefixes) (dst : MmReg) (src : RM) (s : State) : Result :=
  ((mmxPrologue p s).bind fun _ =>
    (readSrc32 p src s).bind fun r => .ok ((r.2.setMm dst (r.1.setWidth 64)).mmxDone (rmLength p src))).finish s

/-- MOVD r/m32, mm: bits 31 to 0 (R222). -/
def execMovdStore (p : Prefixes) (src : MmReg) (dst : RM) (s : State) : Result :=
  ((mmxPrologue p s).bind fun _ =>
    (writeDst32 p dst ((s.mmAt src).setWidth 32) s).bind fun t => .ok (t.mmxDone (rmLength p dst))).finish s

/-- MOVQ mm, mm/m64 (R223). -/
def execMovqLoad (p : Prefixes) (dst : MmReg) (src : RM) (s : State) : Result :=
  mmxRegMem (fun _ v => v) p dst src s

/-- MOVQ mm/m64, mm (R224). -/
def execMovqStore (p : Prefixes) (src : MmReg) (dst : RM) (s : State) : Result :=
  ((mmxPrologue p s).bind fun _ =>
    (writeDst64 p dst (s.mmAt src) s).bind fun t => .ok (t.mmxDone (rmLength p dst))).finish s

end Sys2Proof.Machine
end

