-- ==== Sys2Proof/Machine/Shift.lean ====
section
/-! DEFINITION. The shift instructions (46_shift.md) in their two forms: the count is the whole second operand as an
unsigned number, or imm8 (R230). Counts of the width and more: D4, log 4. -/

namespace Sys2Proof.Machine

/-- Every word by the same count. -/
def shiftWords (f : BitVec 16 → Nat → BitVec 16) (d : Qword) (c : Nat) : Qword := ofWords fun i => f (wordAt d i) c

/-- Every doubleword by the same count. -/
def shiftDwords (f : BitVec 32 → Nat → BitVec 32) (d : Qword) (c : Nat) : Qword := ofDwords fun i => f (dwordAt d i) c

/-- PSLLW mm, mm/m64: words shifted left (R231). -/
def execPsllw (p : Prefixes) (dst : MmReg) (src : RM) (s : State) : Result :=
  mmxRegMem (fun d v => shiftWords shlElem d v.toNat) p dst src s

/-- PSLLW mm, imm8: words shifted left (R232). -/
def execPsllwImm (p : Prefixes) (dst : MmReg) (imm : Byte) (s : State) : Result :=
  mmxRegImm (fun d c => shiftWords shlElem d c) p dst imm s

/-- PSLLD mm, mm/m64: doublewords shifted left (R233). -/
def execPslld (p : Prefixes) (dst : MmReg) (src : RM) (s : State) : Result :=
  mmxRegMem (fun d v => shiftDwords shlElem d v.toNat) p dst src s

/-- PSLLD mm, imm8: doublewords shifted left (R234). -/
def execPslldImm (p : Prefixes) (dst : MmReg) (imm : Byte) (s : State) : Result :=
  mmxRegImm (fun d c => shiftDwords shlElem d c) p dst imm s

/-- PSLLQ mm, mm/m64: the quadword shifted left (R235). -/
def execPsllq (p : Prefixes) (dst : MmReg) (src : RM) (s : State) : Result :=
  mmxRegMem (fun d v => shlElem d v.toNat) p dst src s

/-- PSLLQ mm, imm8: the quadword shifted left (R236). -/
def execPsllqImm (p : Prefixes) (dst : MmReg) (imm : Byte) (s : State) : Result :=
  mmxRegImm (fun d c => shlElem d c) p dst imm s

/-- PSRLW mm, mm/m64: words shifted right, zero fill (R237). -/
def execPsrlw (p : Prefixes) (dst : MmReg) (src : RM) (s : State) : Result :=
  mmxRegMem (fun d v => shiftWords shrElem d v.toNat) p dst src s

/-- PSRLW mm, imm8: words shifted right, zero fill (R238). -/
def execPsrlwImm (p : Prefixes) (dst : MmReg) (imm : Byte) (s : State) : Result :=
  mmxRegImm (fun d c => shiftWords shrElem d c) p dst imm s

/-- PSRLD mm, mm/m64: doublewords shifted right, zero fill (R239). -/
def execPsrld (p : Prefixes) (dst : MmReg) (src : RM) (s : State) : Result :=
  mmxRegMem (fun d v => shiftDwords shrElem d v.toNat) p dst src s

/-- PSRLD mm, imm8: doublewords shifted right, zero fill (R240). -/
def execPsrldImm (p : Prefixes) (dst : MmReg) (imm : Byte) (s : State) : Result :=
  mmxRegImm (fun d c => shiftDwords shrElem d c) p dst imm s

/-- PSRLQ mm, mm/m64: the quadword shifted right, zero fill (R241). -/
def execPsrlq (p : Prefixes) (dst : MmReg) (src : RM) (s : State) : Result :=
  mmxRegMem (fun d v => shrElem d v.toNat) p dst src s

/-- PSRLQ mm, imm8: the quadword shifted right, zero fill (R242). -/
def execPsrlqImm (p : Prefixes) (dst : MmReg) (imm : Byte) (s : State) : Result :=
  mmxRegImm (fun d c => shrElem d c) p dst imm s

/-- PSRAW mm, mm/m64: words shifted right, sign fill (R243). -/
def execPsraw (p : Prefixes) (dst : MmReg) (src : RM) (s : State) : Result :=
  mmxRegMem (fun d v => shiftWords sarElem d v.toNat) p dst src s

/-- PSRAW mm, imm8: words shifted right, sign fill (R244). -/
def execPsrawImm (p : Prefixes) (dst : MmReg) (imm : Byte) (s : State) : Result :=
  mmxRegImm (fun d c => shiftWords sarElem d c) p dst imm s

/-- PSRAD mm, mm/m64: doublewords shifted right, sign fill (R245). -/
def execPsrad (p : Prefixes) (dst : MmReg) (src : RM) (s : State) : Result :=
  mmxRegMem (fun d v => shiftDwords sarElem d v.toNat) p dst src s

/-- PSRAD mm, imm8: doublewords shifted right, sign fill (R246). -/
def execPsradImm (p : Prefixes) (dst : MmReg) (imm : Byte) (s : State) : Result :=
  mmxRegImm (fun d c => shiftDwords sarElem d c) p dst imm s

end Sys2Proof.Machine
end

