-- ==== Sys2Proof/Machine/System.lean ====
section
/-! DEFINITION. CPUID, RDMSR, WRMSR, RDTSC and WBINVD (47_system.md). None runs the MMX prologue or touches the tag word
(R260). -/

namespace Sys2Proof.Machine

/-! ### CPUID -/

/-- The four outputs of CPUID. -/
structure CpuidResult where
  eax : Dword
  ebx : Dword
  ecx : Dword
  edx : Dword
deriving DecidableEq, Repr

/-- `cpuid_table(f)` on Model 7; `free` gives what a Reserved or Undefined register receives (47_system.md R264 to R273;
log 16). -/
def cpuidTable (f : Dword) (free : Gpr → Dword) : CpuidResult :=
  if f = 0x00000000 then ⟨0x00000001, 0x68747541, 0x444D4163, 0x69746E65⟩
  else if f = 0x00000001 then ⟨0x00000570 + Config.stepping.zeroExtend 32, free 3, free 1, 0x008001BF⟩
  else if f = 0x80000000 then ⟨0x80000005, free 3, free 1, free 2⟩
  else if f = 0x80000001 then ⟨0x00000670 + Config.stepping.zeroExtend 32, free 3, free 1, 0x008005BF⟩
  else if f = 0x80000002 then ⟨0x2D444D41, 0x6D74364B, 0x202F7720, 0x746C756D⟩
  else if f = 0x80000003 then ⟨0x64656D69, 0x65206169, 0x6E657478, 0x6E6F6973⟩
  else if f = 0x80000004 then ⟨0x00000073, 0x00000000, 0x00000000, 0x00000000⟩
  else if f = 0x80000005 then ⟨free 0, 0x02800140, 0x20020220, 0x20020220⟩
  else ⟨free 0, free 3, free 1, free 2⟩

/-- Write EAX, EBX, ECX and EDX. -/
def State.setCpuid (s : State) (r : CpuidResult) : State :=
  (((s.setGpr 0 r.eax).setGpr 3 r.ebx).setGpr 1 r.ecx).setGpr 2 r.edx

/-- CPUID: no exception, no privilege, every mode (R261). -/
def execCpuid (s : State) : Result :=
  let r := cpuidTable (s.gprAt 0) (Config.cpuidFree s.draws)
  .next (({ s with draws := s.draws + 1 }.setCpuid r).advance systemLength)

/-! ### Model-specific registers -/

/-- EDX:EAX <- v (47_system.md R274). -/
def State.setEdxEax (s : State) (v : Qword) : State := (s.setGpr 2 (v.extractLsb' 32 32)).setGpr 0 (v.extractLsb' 0 32)

/-- EDX:EAX as one value (47_system.md R275). -/
def State.edxEax (s : State) : Qword := s.gprAt 2 ++ s.gprAt 0

/-- A read of the time stamp counter: the counter has gone on by the clock cycles since it was last loaded or read, a free
number (10_state.md R44; log 20). -/
def readTsc (s : State) : Qword × State :=
  let t := s.msr.tsc + BitVec.ofNat 64 (Config.clockCycles s.draws)
  (t, { s with msr := { s.msr with tsc := t }, draws := s.draws + 1 })

/-- The bit of TR12 that is stored, CI (10_state.md R43). -/
def tr12CiMask : Qword := 0x8

/-- A read of TR12: bit 3 as last written, the other bits free (10_state.md R43; log 21). -/
def readTr12 (s : State) : Qword × State :=
  ((Config.tr12Free s.draws &&& ~~~tr12CiMask) ||| (if s.msr.tr12Ci then tr12CiMask else 0),
    { s with draws := s.draws + 1 })

/-- The bits of EFER that are not reserved (10_state.md R45). -/
def eferMask : Qword := 0x1

/-- The bits of WHCR that are not reserved (10_state.md R46). -/
def whcrMask : Qword := 0x1FF

/-- `MSR[n]` as RDMSR reads it, and the state with the counter moved on; reserved bits of EFER and WHCR read 0
(47_system.md R274). -/
def readMsr (n : Dword) (s : State) : Check (Qword × State) :=
  if n = 0x00000000 then .ok (s.msr.mcar, s)
  else if n = 0x00000001 then .ok (s.msr.mctr, s)
  else if n = 0x0000000E then .ok (readTr12 s)
  else if n = 0x00000010 then .ok (readTsc s)
  else if n = 0xC0000080 then .ok (s.msr.efer &&& eferMask, s)
  else if n = 0xC0000082 then .ok (s.msr.whcr &&& whcrMask, s)
  else .refused (.unimplementedMsr n)

/-- The duty after a change of WHCR: met once more only after another WBINVD (70_reset_and_hazards.md R372; log 29). -/
def WhcrDuty.spent : WhcrDuty → WhcrDuty
  | .due => .omitted
  | .done => .due
  | .omitted => .omitted

/-- The duty after WBINVD (70_reset_and_hazards.md R372; log 29). -/
def WhcrDuty.met : WhcrDuty → WhcrDuty
  | .due => .done
  | .done => .done
  | .omitted => .omitted

/-- `MSR[n] <- v` as WRMSR writes it (47_system.md R275; WCDE: log 23; the WBINVD before a change of WHCR: log 29). -/
def writeMsr (n : Dword) (v : Qword) (s : State) : Check State :=
  if n = 0x00000000 then .ok { s with msr := { s.msr with mcar := v } }
  else if n = 0x00000001 then .ok { s with msr := { s.msr with mctr := v } }
  else if n = 0x0000000E then .ok { s with msr := { s.msr with tr12Ci := v.getLsbD 3 } }
  else if n = 0x00000010 then .ok { s with msr := { s.msr with tsc := v } }
  else if n = 0xC0000080 then
    if v &&& ~~~eferMask = 0 then .ok { s with msr := { s.msr with efer := v } } else .raised .generalProtection
  else if n = 0xC0000082 then
    if v &&& ~~~whcrMask = 0 then
      .ok { s with msr := { s.msr with whcr := v }, whcrDuty := if v = s.msr.whcr then s.whcrDuty else s.whcrDuty.spent }
    else .refused .whcrReservedBits
  else .refused (.unimplementedMsr n)

/-- RDMSR (R274). -/
def execRdmsr (s : State) : Result :=
  ((requireCpl0 s).bind fun _ =>
    (readMsr (s.gprAt 1) s).bind fun r => .ok ((r.2.setEdxEax r.1).advance systemLength)).finish s

/-- WRMSR (R275). -/
def execWrmsr (s : State) : Result :=
  ((requireCpl0 s).bind fun _ =>
    (writeMsr (s.gprAt 1) s.edxEax s).bind fun t => .ok (t.advance systemLength)).finish s

/-- RDTSC: CR4.TSD restricts it to privilege level 0 (R276; D23). -/
def execRdtsc (s : State) : Result :=
  (if s.cr4TSD && s.cpl != 0 then Check.raised .generalProtection
    else .ok (((readTsc s).2.setEdxEax (readTsc s).1).advance systemLength)).finish s

/-! ### Caches -/

/-- WBINVD: no cache is held, so only `pc` advances (R277; log 33); the model notes that it was executed (log 29). -/
def execWbinvd (s : State) : Result :=
  ((requireCpl0 s).bind fun _ => .ok ({ s with whcrDuty := s.whcrDuty.met }.advance systemLength)).finish s

end Sys2Proof.Machine
end

