-- ==== Sys2Proof/Machine/Fetch.lean ====
section
/-! DEFINITION. Fetching an instruction's bytes (20_memory.md R73, R87; 10_state.md R35). -/

namespace Sys2Proof.Machine

/-- The default address size: `ADDR32_DEFAULT` in Protected mode, 16-bit in Real and Virtual 8086 mode (30_encoding.md
R108). -/
def default32 (s : State) : Bool := s.mode == .protectedMode && s.addr32Default

/-- The physical addresses and contents of `n` code bytes in ascending linear order, as far as they are translated. `Translate` is
asked for each byte on its own, with width 1, while `SegOK` is asked for the whole instruction with its length: DESIGN CHOICE,
log 17. -/
def codeBytes (s : State) (lin : Dword) : Nat → List (Nat × Byte)
  | 0 => []
  | n + 1 =>
    match translateAt s .fetch 1 lin with
    | none => []
    | some (a, _) => (a.toNat, memByte s.mem a.toNat) :: codeBytes s (lin + 1) n

/-- The bytes at `pc`, enough for any instruction (20_memory.md R73). -/
def codeAt (s : State) : List (Nat × Byte) := codeBytes s (linear s .cs s.pc) maxLength

/-- Whether `n` bytes at `pc` lie in the code segment: `SegOK` in Protected mode, offsets to FFFFh in Real and Virtual 8086
mode (00_scope.md R8, 20_memory.md R79, R80). -/
def codeInSegment (s : State) (n : Nat) : Bool :=
  match s.mode with
  | .protectedMode => s.segs.cs.ok s.pc n .fetch
  | _ => decide (s.pc.toNat + n - 1 ≤ 0xFFFF)

/-- Why an instruction whose bytes lie at the given physical addresses is not run: it runs off the end of the code
(10_state.md R35; log 17), lies in a device (20_memory.md R83), or holds a byte the program stored (R87; log 13). -/
def fetchCheck (s : State) (addresses : List Nat) : Option Refusal :=
  if 2 ^ 32 ≤ s.pc.toNat + addresses.length then some .pcWrap
  else if !codeInSegment s addresses.length then some .codeSegmentOverrun
  else if addresses.any (inRegion s.platform .device) then some .fetchFromDevice
  else if addresses.any s.stored.contains then some .fetchOfStoredByte
  else none

/-- Record that the bytes at the given physical addresses are executed (20_memory.md R87; log 13). -/
def State.recordFetch (s : State) (addresses : List Nat) : State :=
  { s with fetched := addAddresses s.fetched addresses }

/-- WHCR.WCDE, bit 8 (10_state.md R46). -/
def wcdeMask : Qword := 0x100

/-- Why the program is outside the spec whatever comes next: it has set WHCR.WCDE (10_state.md R46, 47_system.md R275;
93_implementation_defined.md U7; log 23), or changed WHCR with no WBINVD before (70_reset_and_hazards.md R372; U17;
log 29). WCDE is read as it stands: a program goes on whose WCDE an interrupt's handler has cleared before its next
instruction (DESIGN CHOICE, log 23). -/
def programRefusal (s : State) : Option Refusal :=
  if s.msr.whcr &&& wcdeMask ≠ 0 then some .wcdeSet
  else if s.whcrDuty = .omitted then some .whcrChangedWithoutWbinvd
  else none

/-- Bytes placed at `pc`, with the processor ready to fetch them: no exception outstanding, no reason to refuse the program,
no move of the environment to come, and the bytes no longer counted as stored by the program (log 36). -/
def placeCode (s : State) (bytes : List Byte) : State :=
  let addresses := (codeAt s).map (·.1)
  { s with
    mem := memSetBytes s.mem (addresses.zip bytes)
    stored := s.stored.filter fun a => !addresses.contains a
    msr := { s.msr with whcr := s.msr.whcr &&& ~~~wcdeMask }
    whcrDuty := if s.whcrDuty = .omitted then .due else s.whcrDuty
    exception := none
    env := [] }

end Sys2Proof.Machine
end

