-- ==== Sys2Proof/Machine/Environment.lean ====
section
/-! DEFINITION. One instruction of the processor, and the moves of the environment: RESET, INIT, the latched signals, a task
switch, exception handlers and bus masters (60_exceptions.md, 70_reset_and_hazards.md; log 11). -/

namespace Sys2Proof.Machine

/-- One instruction: fetch, decode, execute (20_memory.md R84). In the outcome `Exception(vector, pc)` the processor does not
go on (60_exceptions.md R312). -/
def processorStep (s : State) : Result :=
  match s.exception with
  | some e => .fault (.undeliveredException e.kind e.pc)
  | none =>
    match programRefusal s with
    | some r => .refused r
    | none =>
      match decode (default32 s) ((codeAt s).map (·.2)) with
      | .error e => .refused (.undescribedBytes e)
      | .ok (i, rest) =>
        let addresses := ((codeAt s).take ((codeAt s).length - rest.length)).map (·.1)
        match fetchCheck s addresses with
        | some r => .refused r
        | none => exec i (s.recordFetch addresses)

/-- RESET with `BIST_RESULT`; memory and the platform are outside the processor (70_reset_and_hazards.md R350 to
R354). -/
def resetMove (bist : Dword) (s : State) : State :=
  { s with
    toCpu := { resetCpu bist with pages := s.pages }
    exception := none
    nmiLatch := false
    smiLatch := false
    flushLatch := false
    fetched := []
    stored := []
    whcrDuty := .due }

/-- INIT: the floating-point state, the MSRs, the SMM base, CR0.CD, CR0.NW and latched SMI# and FLUSH# are kept, a pending
NMI is discarded, the rest is as after RESET with EAX not a self-test result (70_reset_and_hazards.md R353, 10_state.md
R51; log 31). -/
def initMove (eax : Dword) (s : State) : State :=
  { s with
    toCpu :=
      { resetCpu eax with
        cr0 := keepCacheBits s.cr0 (resetCpu eax).cr0
        smmBase := s.smmBase
        pages := s.pages
        fpu := s.fpu
        msr := s.msr }
    exception := none
    nmiLatch := false }

/-- The bytes of a bus master's write with their addresses, modulo 2^32. -/
def busCells (address : Dword) : List Byte → List (Nat × Byte)
  | [] => []
  | b :: rest => (address.toNat, b) :: busCells (address + 1) rest

/-- The int 7 handler (60_exceptions.md R313): the new task's floating-point state, CR0.TS cleared, the same instruction
again. -/
def handlerInt7 (fp : Fpu) (s : State) : Result :=
  match s.exception with
  | some ⟨.deviceNotAvailable, pc⟩ => .next (resumeAt pc { s with fpu := fp, cr0 := clearTS s.cr0 })
  | _ => .refused .handlerUnavailable

/-- What a handler did when it returns: the registers as it leaves them, the bytes it wrote, execution at its `pc`
(60_exceptions.md R313, R320). -/
def handlerReturn (after : Cpu) (writes : List (Dword × Byte)) (s : State) : Result :=
  if after.legal then
    .next (resumeAt after.pc
      { s with toCpu := after, mem := memSetBytes s.mem (writes.map fun w => (w.1.toNat, w.2)) })
  else .refused .illegalHandlerState

/-- The handler of any exception (60_exceptions.md R313). -/
def handlerMove (after : Cpu) (writes : List (Dword × Byte)) (s : State) : Result :=
  if s.exception = none then .refused .handlerUnavailable else handlerReturn after writes s

/-- An external interrupt with its handler, between two instructions (60_exceptions.md R320; log 30). It is taken whatever the
program has done to WHCR, and its handler may clear WCDE before the program is refused for it (DESIGN CHOICE, log 23). In the same
way it may clear a pending floating-point exception or set CR0.NE after FERR# was asserted (DESIGN CHOICE, log 24). -/
def interruptMove (after : Cpu) (writes : List (Dword × Byte)) (s : State) : Result :=
  if s.exception = none then handlerReturn after writes s else .refused .handlerUnavailable

/-- What one move of the environment does (60_exceptions.md R320, R322). A task switch sets CR0.TS and leaves the registers, `pc`
and the segments as they were (10_state.md R37; DESIGN CHOICE, unsafe: log 41). -/
def environmentStep (m : EnvMove) (s : State) : Result :=
  match m with
  | .quiet => processorStep s
  | .reset bist => .next (resetMove bist s)
  | .init eax => .next (initMove eax s)
  | .nmi => .next { s with nmiLatch := true }
  | .smi => .next { s with smiLatch := true }
  | .flush => .next { s with flushLatch := true }
  | .taskSwitch => .next { s with cr0 := setTS s.cr0 }
  | .handlerInt7 fp => handlerInt7 fp s
  | .handler after writes => handlerMove after writes s
  | .interrupt after writes => interruptMove after writes s
  | .busWrite address bytes => .next { s with mem := memSetBytes s.mem (busCells address bytes) }

end Sys2Proof.Machine
end

