-- ==== Sys2Proof/Machine/Step.lean ====
section
/-! DEFINITION. The step of the machine, and the placing of a table word where the step fetches. -/

namespace Sys2Proof.Machine

/-- One step: the environment's next move at this boundary if one is left, else one instruction (60_exceptions.md R320;
log 11). -/
def step (s : State) : Host.Outcome State Fault Refusal :=
  match s.env with
  | [] => processorStep s
  | m :: rest => environmentStep m { s with env := rest }

/-- The state with a table word's instruction at `pc` (log 36), its bytes as `tableBytes` lays them out (log 35). -/
def State.withFetchWord (s : State) (nbits w : Nat) : State := placeCode s (tableBytes nbits w)

end Sys2Proof.Machine
end

