-- ==== Sys2Proof/Machine/Smm.lean ====
section
/-! DEFINITION. The two items of the SMM state-save area that the spec gives (60_exceptions.md R330, R331; 20_memory.md
R91). SMM entry is outside the model (00_scope.md R7). -/

namespace Sys2Proof.Machine

/-- The address at which SMM entry saves the IDT base (60_exceptions.md R330). -/
def smmIdtBaseAddress (s : State) : Dword := s.smmBase + 0xFF90

/-- The address of the I/O trap dword (60_exceptions.md R331). -/
def smmIoTrapAddress (s : State) : Dword := s.smmBase + 0xFFA4

/-- The fields of the I/O trap dword (60_exceptions.md R331). Which value of `input` means input is not stated. -/
structure IoTrap where
  port : BitVec 16
  repString : Bool
  ioString : Bool
  valid : Bool
  input : Bool
deriving DecidableEq, Repr

/-- The I/O trap dword by its fields (60_exceptions.md R331). -/
def ioTrapFields (d : Dword) : IoTrap :=
  { port := d.extractLsb' 16 16, repString := d.getLsbD 3, ioString := d.getLsbD 2, valid := d.getLsbD 1
    input := d.getLsbD 0 }

/-- The dword in memory at a physical address, little-endian (20_memory.md R72). -/
def dwordInMemory (s : State) (a : Dword) : Dword :=
  BitVec.ofNat 32 (leValue ((List.range 4).map fun k => memByte s.mem (a + BitVec.ofNat 32 k).toNat))

/-- The I/O trap dword that SMM entry left (60_exceptions.md R331). -/
def smmIoTrap (s : State) : IoTrap := ioTrapFields (dwordInMemory s (smmIoTrapAddress s))

end Sys2Proof.Machine
end

