-- ==== Sys2Proof/Safety.lean ====
section
/-! DEFINITION. What claims speak of: the invariant of every step, when an MMX instruction may run, and the software
duties that the spec states as properties of a state. -/

namespace Sys2Proof.Machine

/-- The conditions under which `mmx_prologue()` passes: no LOCK prefix, CR0.EM = 0, CR0.TS = 0, no pending floating-point
exception (60_exceptions.md R303, 70_reset_and_hazards.md R351). -/
def MmxReady (p : Prefixes) (s : State) : Prop :=
  p.lock = false ∧ s.cr0EM = false ∧ s.cr0TS = false ∧ s.fpu.pending = false

/-- The state after an MMX instruction of `length` bytes that gave MMX register `dst` the value `r`: bits 79 to 64 of the
floating-point register are ones, every tag is valid, the top-of-stack field is 0, `pc` has advanced, and nothing else has
changed (10_state.md R23, R27, R35; log 3). -/
def mmxResult (s : State) (dst : MmReg) (r : Qword) (length : Nat) : State :=
  { s with
    pc := s.pc + BitVec.ofNat 32 length
    fpu := { s.fpu with mm := s.fpu.mm.set dst r, high := s.fpu.high.set dst 0xFFFF, ftw := 0x0000, top := 0 } }

/-- The state in which a store of an MMX instruction of `length` bytes leaves the processor, with memory `m`, the accesses
to devices `events`, and the stored addresses recorded (10_state.md R27, R35; logs 13, 42). -/
def storeResult (s : State) (m : List Host.Cell) (events : List DeviceEvent) (addresses : List Nat) (length : Nat) : State :=
  { s with
    pc := s.pc + BitVec.ofNat 32 length
    fpu := { s.fpu with ftw := 0x0000, top := 0 }
    mem := m
    stored := addAddresses s.stored addresses
    deviceEvents := events }

/-- The operand's bytes are all memory's, none a device's (20_memory.md R83). -/
def NoDevice (s : State) (addresses : List Nat) : Prop := ∀ a ∈ addresses, inRegion s.platform .device a = false

/-- One of the operand's bytes is a device's (20_memory.md R83). -/
def TouchesDevice (s : State) (addresses : List Nat) : Prop := ∃ a ∈ addresses, inRegion s.platform .device a = true

/-- `u` is `s` after a source of `n` bytes was read: the same, or with one more read of a device, `n` bytes wide, and one
more draw (20_memory.md R83; log 42). -/
def ReadEffect (n : Nat) (s u : State) : Prop :=
  u = s ∨ ∃ e : DeviceEvent, e.kind = .read ∧ e.addresses.length = n ∧ e.bytes.length = n ∧
    u = { s with draws := s.draws + 1, deviceEvents := e :: s.deviceEvents }

/-- An access of `n` bytes from offset `off` on lies in a range of a segment with the given limit (20_memory.md R80; log 7). -/
def InRange (limit off : Dword) (n : Nat) : OffsetRange → Prop
  | .upToLimit => off.toNat + n - 1 ≤ limit.toNat
  | .aboveLimit => limit.toNat < off.toNat ∧ off.toNat + n ≤ 2 ^ 32
  | .startingIn first last => first.toNat ≤ off.toNat ∧ off.toNat ≤ last.toNat

/-- `SegOK` of Protected mode: some rule of the segment allows the kind, the width and the offsets (20_memory.md R80;
log 7). -/
def SegAllows (g : SegRecord) (off : Dword) (n : Nat) (k : Access) : Prop :=
  ∃ r ∈ g.rules, k ∈ r.kinds ∧ (r.size = none ∨ r.size = some n) ∧ InRange g.limit off n r.range

/-- A relation holds of every byte of two operands and a result (00_scope.md R10). -/
def EachByte (rel : BitVec 8 → BitVec 8 → BitVec 8 → Prop) (d v r : Qword) : Prop :=
  ∀ k < 8, rel (byteAt d k) (byteAt v k) (byteAt r k)

/-- A relation holds of every word of two operands and a result (00_scope.md R10). -/
def EachWord (rel : BitVec 16 → BitVec 16 → BitVec 16 → Prop) (d v r : Qword) : Prop :=
  ∀ k < 4, rel (wordAt d k) (wordAt v k) (wordAt r k)

/-- A relation holds of every doubleword of two operands and a result (00_scope.md R10). -/
def EachDword (rel : BitVec 32 → BitVec 32 → BitVec 32 → Prop) (d v r : Qword) : Prop :=
  ∀ k < 2, rel (dwordAt d k) (dwordAt v k) (dwordAt r k)

/-- An instruction of the form `mmreg1, mmreg2/mem64` completes whenever the prologue passes and its source can be read
as `v`, it gives `mmreg1` a value that stands in the relation `good` to the old `mmreg1` and `v`, and it changes nothing
else but what the reading of a device changes (40_arithmetic.md R140, 42_compare.md R175, 43_convert.md R190, 44_logical.md R210, 46_shift.md R230 form A). -/
def Computes (form : Prefixes → MmReg → RM → Instr) (good : Qword → Qword → Qword → Prop) : Prop :=
  ∀ (s u : State) (p : Prefixes) (dst : MmReg) (src : RM) (v : Qword),
    MmxReady p s → readSrc64 p src s = .ok (v, u) →
      ReadEffect 8 s u ∧
      ∃ r, good (s.mmAt dst) v r ∧ exec (form p dst src) s = .next (mmxResult u dst r (rmLength p src))

/-- The same for an immediate shift, whose count is `imm8` read as unsigned (46_shift.md R230 form B). -/
def ComputesImm (form : Prefixes → MmReg → Byte → Instr) (good : Qword → Nat → Qword → Prop) : Prop :=
  ∀ (s : State) (p : Prefixes) (dst : MmReg) (imm : Byte),
    MmxReady p s →
      ∃ r, good (s.mmAt dst) imm.toNat r ∧ exec (form p dst imm) s = .next (mmxResult s dst r (immLength p))

/-- In every state in which it may run, the instruction gives `mmreg1` the value `r` where `mmreg1` held `a` and the source
reads as `b`. -/
def Gives (form : Prefixes → MmReg → RM → Instr) (a b r : Qword) : Prop :=
  ∀ (s u : State) (p : Prefixes) (dst : MmReg) (src : RM),
    MmxReady p s → s.mmAt dst = a → readSrc64 p src s = .ok (b, u) →
      ∃ t, exec (form p dst src) s = .next t ∧ t.mmAt dst = r

/-- The same for an immediate shift by `imm`. -/
def GivesImm (form : Prefixes → MmReg → Byte → Instr) (a : Qword) (imm : Byte) (r : Qword) : Prop :=
  ∀ (s : State) (p : Prefixes) (dst : MmReg),
    MmxReady p s → s.mmAt dst = a → ∃ t, exec (form p dst imm) s = .next t ∧ t.mmAt dst = r

/-- One of three elements is all ones and the other two are all zeros. -/
def OneAllOnes {w : Nat} (x y z : BitVec w) : Prop :=
  (x = BitVec.allOnes w ∧ y = 0 ∧ z = 0) ∨ (x = 0 ∧ y = BitVec.allOnes w ∧ z = 0) ∨
    (x = 0 ∧ y = 0 ∧ z = BitVec.allOnes w)

/-- The state after a two-byte instruction that wrote EDX:EAX, and nothing else (47_system.md R274, R276). -/
def edxEaxResult (s : State) (v : Qword) : State :=
  { s with pc := s.pc + 2, gpr := (s.gpr.set 2 (v.extractLsb' 32 32)).set 0 (v.extractLsb' 0 32) }

/-- Width and kind of the memory access of a form with a memory operand (20_memory.md R71, R74). -/
def accessOf : Instr → Nat × Access
  | .movdLoad _ _ _ => (4, .read)
  | .movdStore _ _ _ => (4, .write)
  | .movqStore _ _ _ => (8, .write)
  | _ => (8, .read)

/-- A store to these physical addresses is none of those the model refuses: to a read-only region (20_memory.md R92), to a
device where WHCR write-allocates (70_reset_and_hazards.md R372; 93_implementation_defined.md U17), to an executed byte
(20_memory.md R87). -/
def StorePermitted (s : State) (addresses : List Nat) : Prop :=
  ∀ a ∈ addresses, inRegion s.platform .readOnly a = false ∧
    (inRegion s.platform .device a = true → writeAllocateByLimit s.msr.whcr a = false) ∧ a ∉ s.fetched

/-- An instruction begun in `s` did not complete: it raised an exception, or it asserted FERR# and did nothing else. -/
def NotCompleted (s t : State) : Prop := (∃ e, t = takeException e s) ∨ t = assertFerr s

/-- No byte has been both executed and stored by the program (20_memory.md R87). -/
def CodeUntouched (s : State) : Prop := ∀ a ∈ s.fetched, a ∉ s.stored

/-- What every step keeps: memory in its canonical form, registers that a machine can hold (10_state.md R40, R45, R46), and
no executed byte stored to (20_memory.md R87). -/
structure State.Inv (s : State) : Prop where
  memory : Memory.wf s.mem = true
  registers : s.toCpu.legal = true
  code : CodeUntouched s

/-- The property that a module of MMX code must leave: every tag empty (70_reset_and_hazards.md R370). -/
def MmxModuleClosed (s : State) : Prop := s.fpu.ftw = 0xFFFF

/-- Two states that agree on everything but the outcome `Exception(vector, pc)` and FERR# (60_exceptions.md R310). -/
def SameButException (s t : State) : Prop := t = { s with exception := t.exception, ferr := t.ferr }

end Sys2Proof.Machine
end

