-- ==== Sys2Proof/Certificates/Slice0/Obligations.lean ====
section
/-! DEFINITION. The statements for the provers. OBLIGATIONS.json lists each with its rules. -/

open Sys2Proof Sys2Proof.Machine

/-! ### Encoding -/

/-- Decoding the encoding of a well-formed instruction gives it back, whatever follows it, under either default address
size (30_encoding.md R100 to R112, R121). -/
def Obligations.EncodeDecodeRoundTrip : Prop :=
  ∀ (d32 : Bool) (i : Instr) (rest : List Byte), i.wf d32 = true → decode d32 (encode i ++ rest) = .ok (i, rest)

/-- Instructions written out byte by byte from the tables decode to what they stand for. -/
def Obligations.SpecWordsDecode : Prop :=
  decode true [0x0F, 0x77] = .ok (.emms {}, []) ∧
  decode true [0x0F, 0xFC, 0xC8] = .ok (.paddb {} 1 (.reg 0), []) ∧
  decode true [0x0F, 0x6F, 0x04, 0x8B] = .ok (.movqLoad {} 0 (.mem (.a32 (.sib 2 1 3 .none))), []) ∧
  decode false [0x0F, 0x6F, 0x06, 0x34, 0x12] = .ok (.movqLoad {} 0 (.mem (.a16 (.abs 0x1234))), []) ∧
  decode true [0x26, 0x0F, 0x7F, 0x07] =
    .ok (.movqStore { seg := some .es } 0 (.mem (.a32 (.base 7 .none))), []) ∧
  decode true [0x0F, 0x73, 0xF7, 0x20] = .ok (.psllqImm {} 7 32, []) ∧
  decode true [0x0F, 0xA2] = .ok (.cpuid, [])

/-- The encodings 0F 71/72/73 with an undefined /n, or with `mod` other than 11b, decode to the reserved encoding, and a step
that meets one is refused (60_exceptions.md R301, last sentence; D12, U11; 30_encoding.md R114 prints invalid opcode: log 15). -/
def Obligations.ReservedShiftEncodings : Prop :=
  (∀ (d32 : Bool) (p : Prefixes) (op b : Byte) (rest : List Byte),
    (op = 0x71 ∨ op = 0x72 ∨ op = 0x73) →
    (modField b ≠ 3 ∨ (regField b ≠ 2 ∧ regField b ≠ 4 ∧ regField b ≠ 6) ∨ (op = 0x73 ∧ regField b = 4)) →
      decode d32 (p.bytes ++ 0x0F :: op :: b :: rest) = .error (.reservedShift op)) ∧
  ∀ (s : State) (op : Byte), s.env = [] → s.exception = none → programRefusal s = none →
    decode (default32 s) ((codeAt s).map (·.2)) = .error (.reservedShift op) →
      step s = .refused (.undescribedBytes (.reservedShift op))

/-- What the decoder refuses, each by its name, and that a step refuses it: the undescribed bytes 66h, F2h and F3h, a repeated
F0h or 67h, a second segment override, a system instruction after any of the described ones, every second byte after 0Fh
outside the 57 forms and the five system instructions, and every first byte that is neither 0Fh nor a prefix
(30_encoding.md R111, R114, R116, 47_system.md R261, R280; D11, D12, D14). -/
def Obligations.UndescribedEncodingsRefused : Prop :=
  (∀ (d32 : Bool) (p : Prefixes) (rest : List Byte),
    (∀ b ∈ [(0x66 : Byte), 0xF2, 0xF3], decode d32 (p.bytes ++ b :: rest) = .error (.undescribedPrefix b)) ∧
    (p.lock = true → decode d32 (p.bytes ++ 0xF0 :: rest) = .error (.repeatedPrefix 0xF0)) ∧
    (p.addrSize = true → decode d32 (p.bytes ++ 0x67 :: rest) = .error (.repeatedPrefix 0x67)) ∧
    (∀ r : SegReg, p.seg.isSome = true → decode d32 (p.bytes ++ r.overrideByte :: rest) = .error .twoSegmentOverrides) ∧
    (∀ b ∈ [(0xA2 : Byte), 0x30, 0x31, 0x32, 0x09], p ≠ {} →
      decode d32 (p.bytes ++ 0x0F :: b :: rest) = .error (.prefixedSystem b)) ∧
    (∀ b : Byte,
      b ∉ [(0x09 : Byte), 0x30, 0x31, 0x32, 0x60, 0x61, 0x62, 0x63, 0x64, 0x65, 0x66, 0x67, 0x68, 0x69, 0x6A, 0x6B, 0x6E, 0x6F,
        0x71, 0x72, 0x73, 0x74, 0x75, 0x76, 0x77, 0x7E, 0x7F, 0xA2, 0xD1, 0xD2, 0xD3, 0xD5, 0xD8, 0xD9, 0xDB, 0xDC, 0xDD, 0xDF,
        0xE1, 0xE2, 0xE5, 0xE8, 0xE9, 0xEB, 0xEC, 0xED, 0xEF, 0xF1, 0xF2, 0xF3, 0xF5, 0xF8, 0xF9, 0xFA, 0xFC, 0xFD, 0xFE] →
      decode d32 (p.bytes ++ 0x0F :: b :: rest) = .error (.undescribedOpcode0F b)) ∧
    (∀ b : Byte, b ∉ [(0x0F : Byte), 0xF0, 0x67, 0x66, 0xF2, 0xF3, 0x26, 0x2E, 0x36, 0x3E, 0x64, 0x65] →
      decode d32 (p.bytes ++ b :: rest) = .error (.baseOpcode b))) ∧
  ∀ (s : State) (e : DecodeError), s.env = [] → s.exception = none → programRefusal s = none →
    decode (default32 s) ((codeAt s).map (·.2)) = .error e →
      step s = .refused (.undescribedBytes e)

/-! ### The step -/

/-- When the bytes at `pc` decode to an instruction and may be fetched, a step runs it, on the state that also records which
bytes were fetched, whether no move of the environment is left or the next one is `quiet`, unless the program has broken a
duty of WHCR (20_memory.md R84; logs 11, 13, 17, 23, 29). -/
def Obligations.StepRunsDecodedInstruction : Prop :=
  ∀ (s : State) (i : Instr) (rest : List Byte), s.exception = none → programRefusal s = none →
    decode (default32 s) ((codeAt s).map (·.2)) = .ok (i, rest) →
    fetchCheck s (((codeAt s).take ((codeAt s).length - rest.length)).map (·.1)) = none →
      (s.env = [] →
        step s = exec i (s.recordFetch (((codeAt s).take ((codeAt s).length - rest.length)).map (·.1)))) ∧
      ∀ moves, s.env = .quiet :: moves →
        step s = exec i (State.recordFetch { s with env := moves }
          (((codeAt s).take ((codeAt s).length - rest.length)).map (·.1)))

/-- When memory holds the encoding of a well-formed instruction at `pc` and those bytes may be fetched, a step runs that
instruction, whatever follows it in memory. -/
def Obligations.EncodedInstructionRuns : Prop :=
  ∀ (s : State) (i : Instr), s.env = [] → s.exception = none → programRefusal s = none → i.wf (default32 s) = true →
    ((codeAt s).map (·.2)).take (encode i).length = encode i →
    fetchCheck s (((codeAt s).take (encode i).length).map (·.1)) = none →
      step s = exec i (s.recordFetch (((codeAt s).take (encode i).length).map (·.1)))

/-- Every instruction that completes advances `pc` by the length of its encoding, whatever it is (10_state.md R35, 30_encoding.md
R111, 47_system.md R279). -/
def Obligations.PcAdvancesByEncodedLength : Prop :=
  ∀ (i : Instr) (s t : State), exec i s = .next t →
    NotCompleted s t ∨ t.pc = s.pc + BitVec.ofNat 32 (encode i).length

/-- Every step from a state that meets the invariant leads to a state that meets it: memory in canonical form, legal
registers (10_state.md R40, R45, R46), no executed byte stored to (20_memory.md R87; logs 13, 27, 39). -/
def Obligations.StepKeepsInvariant : Prop := ∀ s t : State, s.Inv → step s = .next t → t.Inv

/-- The state after RESET meets the invariant; memory, mode and privilege level are the model's values (logs 18, 27). -/
def Obligations.ResetMeetsInvariant : Prop := State.reset.Inv

/-! ### Exceptions -/

/-- LOCK before any MMX instruction, in any state: invalid opcode, and no state changed (30_encoding.md R115; the outcome
`Exception(6, pc)` is held in `exception`, log 9). -/
def Obligations.LockRaisesInvalidOpcode : Prop :=
  ∀ (i : Instr) (p : Prefixes) (s : State), i.mmxPrefixes = some p → p.lock = true →
    exec i s = .next { s with exception := some { kind := .invalidOpcode, pc := s.pc } } ∧ Exc.invalidOpcode.vector = 6

/-- The order of the checks of `mmx_prologue()`, before any operand is read: LOCK, CR0.EM, CR0.TS, the pending
floating-point exception. With CR0.NE = 0 FERR# is asserted and the instruction is then refused (60_exceptions.md R303,
R307, R311; D5, D18; log 24). -/
def Obligations.PrologueOrder : Prop :=
  ∀ (i : Instr) (p : Prefixes) (s : State), i.mmxPrefixes = some p →
    (p.lock = true ∨ s.cr0EM = true → exec i s = .next (takeException .invalidOpcode s)) ∧
    (p.lock = false → s.cr0EM = false →
      (s.cr0TS = true → exec i s = .next (takeException .deviceNotAvailable s)) ∧
      (s.cr0TS = false → s.fpu.pending = true →
        (s.cr0NE = true → exec i s = .next (takeException .floatingPointPending s)) ∧
        (s.cr0NE = false → s.ferr = false → exec i s = .next (assertFerr s)) ∧
        (s.cr0NE = false → s.ferr = true → exec i s = .refused .ferrAssertedWithNEClear)))

/-- An instruction that raises an exception changes nothing but the outcome, which holds the address of the instruction, and
FERR#, which only the pending floating-point exception asserts (60_exceptions.md R310, R312, R307). -/
def Obligations.ExceptionsLeaveStateUnchanged : Prop :=
  ∀ (i : Instr) (s t : State) (r : ExceptionRecord), s.exception = none → exec i s = .next t → t.exception = some r →
    r.pc = s.pc ∧ t = { s with exception := some r, ferr := s.ferr || r.kind == .floatingPointPending }

/-- Which exceptions can arise where: in no mode others than Table 1 marks, 6, 7 and 16 alone without a memory operand,
and none but general protection from the system instructions (60_exceptions.md R300). -/
def Obligations.ExceptionsByModeAndForm : Prop :=
  ∀ (i : Instr) (s t : State) (r : ExceptionRecord), s.exception = none → exec i s = .next t → t.exception = some r →
    (i.mmxPrefixes.isSome = true →
      (s.mode = .real → r.kind ≠ .generalProtection ∧ r.kind ≠ .pageFault ∧ r.kind ≠ .alignmentCheck) ∧
      (s.mode = .virtual8086 → r.kind ≠ .generalProtection) ∧
      (s.mode = .protectedMode → r.kind ≠ .segmentOverrun) ∧
      ((∀ p m, i.operand ≠ some (p, .mem m)) →
        r.kind = .invalidOpcode ∨ r.kind = .deviceNotAvailable ∨ r.kind = .floatingPointPending)) ∧
    (i.mmxPrefixes = none → r.kind = .generalProtection ∧ i ≠ .cpuid)

/-- The checks of a memory access in their order: segment, alignment on the linear address, translation (20_memory.md R75,
R76, R78, R79, R80, R81; D5, D6, D7; logs 5 to 8). -/
def Obligations.AccessCheckOrder : Prop :=
  ∀ (s : State) (g : SegReg) (off : Dword) (n : Nat) (k : Access), n = 4 ∨ n = 8 →
    let beyond : Prop :=
      if s.mode = .protectedMode then ¬SegAllows (s.segs.get g) off n k else 0xFFFF < off.toNat + n - 1
    let lin := (s.segs.get g).base + off
    let misaligned : Prop :=
      s.cr0AM = true ∧ s.flagAC = true ∧ s.cpl = 3 ∧ s.mode ≠ .real ∧ lin.toNat % n ≠ 0
    (beyond → g = .ss → accessAddresses s g off n k = .raised .stackException) ∧
    (beyond → g ≠ .ss → s.mode = .protectedMode → accessAddresses s g off n k = .raised .generalProtection) ∧
    (beyond → g ≠ .ss → s.mode ≠ .protectedMode → accessAddresses s g off n k = .raised .segmentOverrun) ∧
    (¬beyond → misaligned → accessAddresses s g off n k = .raised .alignmentCheck) ∧
    (¬beyond → ¬misaligned → translate s k lin n = none → accessAddresses s g off n k = .raised .pageFault) ∧
    (¬beyond → ¬misaligned → ∀ l, translate s k lin n = some l → accessAddresses s g off n k = .ok l)

/-- What an access of a form with a memory operand raises, the instruction raises, whichever of the 48 forms it is: an
8-byte read, but 4 bytes for MOVD and a write for the two stores (20_memory.md R71, R74, R76, 60_exceptions.md R310). -/
def Obligations.AccessExceptionEndsInstruction : Prop :=
  ∀ (i : Instr) (p : Prefixes) (m : MemOperand) (s : State) (e : Exc), i.operand = some (p, .mem m) → MmxReady p s →
    accessAddresses s (segmentOf p m) (effectiveAddress s m) (accessOf i).1 (accessOf i).2 = .raised e →
      exec i s = .next (takeException e s)

/-- A store to a declared read-only region, to a device at an address that WHCR write-allocates, and to an executed byte are
refused by name, in that order (20_memory.md R92, R87, R89, 70_reset_and_hazards.md R372; U17; logs 13, 28, 29). -/
def Obligations.RefusedAccesses : Prop :=
  ∀ (i : Instr) (p : Prefixes) (m : MemOperand) (s : State) (l : List Nat), i.operand = some (p, .mem m) → MmxReady p s →
    accessAddresses s (segmentOf p m) (effectiveAddress s m) (accessOf i).1 (accessOf i).2 = .ok l → (accessOf i).2 = .write →
      ((∃ a ∈ l, inRegion s.platform .readOnly a = true) → exec i s = .refused .storeToReadOnlyRegion) ∧
      ((∀ a ∈ l, inRegion s.platform .readOnly a = false) →
        ((∃ a ∈ l, inRegion s.platform .device a = true ∧ writeAllocateByLimit s.msr.whcr a = true) →
          exec i s = .refused .storeToWriteAllocatedDevice) ∧
        ((∀ a ∈ l, inRegion s.platform .device a = true → writeAllocateByLimit s.msr.whcr a = false) →
          (∃ a ∈ l, a ∈ s.fetched) → exec i s = .refused .storeToExecutedCode))

/-- RDMSR, WRMSR and WBINVD raise general protection at any privilege level but 0 and in Virtual 8086 mode; RDTSC does at any
level but 0 when CR4.TSD = 1 (47_system.md R274 to R277, 60_exceptions.md R316; D23; log 25). -/
def Obligations.PrivilegedInstructions : Prop :=
  ∀ s : State,
    (s.cpl ≠ 0 ∨ s.mode = .virtual8086 →
      exec .rdmsr s = .next (takeException .generalProtection s) ∧
      exec .wrmsr s = .next (takeException .generalProtection s) ∧
      exec .wbinvd s = .next (takeException .generalProtection s)) ∧
    (s.cr4TSD = true → s.cpl ≠ 0 → exec .rdtsc s = .next (takeException .generalProtection s))

/-! ### Arithmetic, compare, convert, logical -/

/-- PADDB, PADDW, PADDD: each element's sum modulo its width, no carry into the next (40_arithmetic.md R140 to R143). -/
def Obligations.WrappingAdd : Prop :=
  Computes .paddb (EachByte fun a b c => c.toNat = (a.toNat + b.toNat) % 2 ^ 8) ∧
  Computes .paddw (EachWord fun a b c => c.toNat = (a.toNat + b.toNat) % 2 ^ 16) ∧
  Computes .paddd (EachDword fun a b c => c.toNat = (a.toNat + b.toNat) % 2 ^ 32)

/-- PSUBB, PSUBW, PSUBD: each element of the source subtracted from the destination's, modulo the width (40_arithmetic.md R140,
R148 to R150). -/
def Obligations.WrappingSubtract : Prop :=
  Computes .psubb (EachByte fun a b c => (c.toNat : Int) = ((a.toNat : Int) - b.toNat) % 2 ^ 8) ∧
  Computes .psubw (EachWord fun a b c => (c.toNat : Int) = ((a.toNat : Int) - b.toNat) % 2 ^ 16) ∧
  Computes .psubd (EachDword fun a b c => (c.toNat : Int) = ((a.toNat : Int) - b.toNat) % 2 ^ 32)

/-- PADDSB, PADDSW, PSUBSB, PSUBSW: the exact signed sum or difference, clamped to the signed range (40_arithmetic.md R140, R144,
R145, R151, R152). -/
def Obligations.SignedSaturation : Prop :=
  Computes .paddsb (EachByte fun a b c => c.toInt = max (-128) (min 127 (a.toInt + b.toInt))) ∧
  Computes .paddsw (EachWord fun a b c => c.toInt = max (-32768) (min 32767 (a.toInt + b.toInt))) ∧
  Computes .psubsb (EachByte fun a b c => c.toInt = max (-128) (min 127 (a.toInt - b.toInt))) ∧
  Computes .psubsw (EachWord fun a b c => c.toInt = max (-32768) (min 32767 (a.toInt - b.toInt)))

/-- PADDUSB, PADDUSW, PSUBUSB, PSUBUSW: the unsigned sum clamped from above, the unsigned difference from below
(40_arithmetic.md R140, R146, R147, R153, R154). -/
def Obligations.UnsignedSaturation : Prop :=
  Computes .paddusb (EachByte fun a b c => c.toNat = min 255 (a.toNat + b.toNat)) ∧
  Computes .paddusw (EachWord fun a b c => c.toNat = min 65535 (a.toNat + b.toNat)) ∧
  Computes .psubusb (EachByte fun a b c => (c.toNat : Int) = max 0 ((a.toNat : Int) - b.toNat)) ∧
  Computes .psubusw (EachWord fun a b c => (c.toNat : Int) = max 0 ((a.toNat : Int) - b.toNat))

/-- PMULHW and PMULLW: the high and the low word of the exact signed product; PMADDWD: the sum of two of them, modulo 2^32
(40_arithmetic.md R140, R155 to R157). -/
def Obligations.Multiply : Prop :=
  Computes .pmulhw (EachWord fun a b c => c.toInt = a.toInt * b.toInt / 65536) ∧
  Computes .pmullw (EachWord fun a b c => (c.toNat : Int) = a.toInt * b.toInt % 65536) ∧
  Computes .pmaddwd fun d v r =>
    ∀ k < 2, ((dwordAt r k).toNat : Int) =
      ((wordAt d (2 * k)).toInt * (wordAt v (2 * k)).toInt +
        (wordAt d (2 * k + 1)).toInt * (wordAt v (2 * k + 1)).toInt) % 2 ^ 32

/-- PCMPEQB, PCMPEQW, PCMPEQD: all ones where the elements are equal, else all zeros (42_compare.md R175 to R178). -/
def Obligations.CompareEqual : Prop :=
  Computes .pcmpeqb (EachByte fun a b c => c = if a = b then 0xFF else 0x00) ∧
  Computes .pcmpeqw (EachWord fun a b c => c = if a = b then 0xFFFF else 0x0000) ∧
  Computes .pcmpeqd (EachDword fun a b c => c = if a = b then 0xFFFFFFFF else 0x00000000)

/-- PCMPGTB, PCMPGTW, PCMPGTD: all ones where the destination's element is greater as a signed number, else all zeros
(42_compare.md R175, R179 to R181). -/
def Obligations.CompareGreater : Prop :=
  Computes .pcmpgtb (EachByte fun a b c => c = if b.toInt < a.toInt then 0xFF else 0x00) ∧
  Computes .pcmpgtw (EachWord fun a b c => c = if b.toInt < a.toInt then 0xFFFF else 0x0000) ∧
  Computes .pcmpgtd (EachDword fun a b c => c = if b.toInt < a.toInt then 0xFFFFFFFF else 0x00000000)

/-- PACKSSWB, PACKSSDW, PACKUSWB: the destination's elements in the low half and the source's in the high half, each
clamped to the narrower range (43_convert.md R190 to R193). -/
def Obligations.PackSaturates : Prop :=
  (Computes .packsswb fun d v r => ∀ k < 4,
    (byteAt r k).toInt = max (-128) (min 127 (wordAt d k).toInt) ∧
    (byteAt r (4 + k)).toInt = max (-128) (min 127 (wordAt v k).toInt)) ∧
  (Computes .packssdw fun d v r => ∀ k < 2,
    (wordAt r k).toInt = max (-32768) (min 32767 (dwordAt d k).toInt) ∧
    (wordAt r (2 + k)).toInt = max (-32768) (min 32767 (dwordAt v k).toInt)) ∧
  Computes .packuswb fun d v r => ∀ k < 4,
    ((byteAt r k).toNat : Int) = max 0 (min 255 (wordAt d k).toInt) ∧
    ((byteAt r (4 + k)).toNat : Int) = max 0 (min 255 (wordAt v k).toInt)

/-- PUNPCKHBW, PUNPCKHWD, PUNPCKHDQ: the high halves interleaved, the destination's element below the source's (43_convert.md
R190, R194 to R196). -/
def Obligations.UnpackHigh : Prop :=
  (Computes .punpckhbw fun d v r => ∀ k < 4,
    byteAt r (2 * k) = byteAt d (4 + k) ∧ byteAt r (2 * k + 1) = byteAt v (4 + k)) ∧
  (Computes .punpckhwd fun d v r => ∀ k < 2,
    wordAt r (2 * k) = wordAt d (2 + k) ∧ wordAt r (2 * k + 1) = wordAt v (2 + k)) ∧
  Computes .punpckhdq fun d v r => dwordAt r 0 = dwordAt d 1 ∧ dwordAt r 1 = dwordAt v 1

/-- PUNPCKLBW, PUNPCKLWD, PUNPCKLDQ: the low halves interleaved in the same way; a memory source is 8 bytes all the same
(43_convert.md R190, R197 to R199). -/
def Obligations.UnpackLow : Prop :=
  (Computes .punpcklbw fun d v r => ∀ k < 4,
    byteAt r (2 * k) = byteAt d k ∧ byteAt r (2 * k + 1) = byteAt v k) ∧
  (Computes .punpcklwd fun d v r => ∀ k < 2,
    wordAt r (2 * k) = wordAt d k ∧ wordAt r (2 * k + 1) = wordAt v k) ∧
  Computes .punpckldq fun d v r => dwordAt r 0 = dwordAt d 0 ∧ dwordAt r 1 = dwordAt v 0

/-- PAND, PANDN, POR, PXOR, bit by bit; PANDN inverts the destination (44_logical.md R210 to R214). -/
def Obligations.LogicalBitwise : Prop :=
  (Computes .pand fun d v r => ∀ k < 64, r.getLsbD k = (d.getLsbD k && v.getLsbD k)) ∧
  (Computes .pandn fun d v r => ∀ k < 64, r.getLsbD k = (!d.getLsbD k && v.getLsbD k)) ∧
  (Computes .por fun d v r => ∀ k < 64, r.getLsbD k = (d.getLsbD k || v.getLsbD k)) ∧
  Computes .pxor fun d v r => ∀ k < 64, r.getLsbD k = (d.getLsbD k != v.getLsbD k)

/-! ### Shifts -/

/-- The left shifts in both forms: every element times a power of two, modulo its width; counts of the width and more
give 0 (46_shift.md R230 to R236; D4; log 4). -/
def Obligations.ShiftLeft : Prop :=
  (Computes .psllw fun d v r => ∀ k < 4, (wordAt r k).toNat = (wordAt d k).toNat * 2 ^ v.toNat % 2 ^ 16) ∧
  (ComputesImm .psllwImm fun d c r => ∀ k < 4, (wordAt r k).toNat = (wordAt d k).toNat * 2 ^ c % 2 ^ 16) ∧
  (Computes .pslld fun d v r => ∀ k < 2, (dwordAt r k).toNat = (dwordAt d k).toNat * 2 ^ v.toNat % 2 ^ 32) ∧
  (ComputesImm .pslldImm fun d c r => ∀ k < 2, (dwordAt r k).toNat = (dwordAt d k).toNat * 2 ^ c % 2 ^ 32) ∧
  (Computes .psllq fun d v r => r.toNat = d.toNat * 2 ^ v.toNat % 2 ^ 64) ∧
  ComputesImm .psllqImm fun d c r => r.toNat = d.toNat * 2 ^ c % 2 ^ 64

/-- The logical right shifts in both forms: every element divided by a power of two; counts of the width and more give 0
(46_shift.md R230, R237 to R242; D4; log 4). -/
def Obligations.ShiftRightLogical : Prop :=
  (Computes .psrlw fun d v r => ∀ k < 4, (wordAt r k).toNat = (wordAt d k).toNat / 2 ^ v.toNat) ∧
  (ComputesImm .psrlwImm fun d c r => ∀ k < 4, (wordAt r k).toNat = (wordAt d k).toNat / 2 ^ c) ∧
  (Computes .psrld fun d v r => ∀ k < 2, (dwordAt r k).toNat = (dwordAt d k).toNat / 2 ^ v.toNat) ∧
  (ComputesImm .psrldImm fun d c r => ∀ k < 2, (dwordAt r k).toNat = (dwordAt d k).toNat / 2 ^ c) ∧
  (Computes .psrlq fun d v r => r.toNat = d.toNat / 2 ^ v.toNat) ∧
  ComputesImm .psrlqImm fun d c r => r.toNat = d.toNat / 2 ^ c

/-- The arithmetic right shifts in both forms: every element divided by a power of two as a signed number, rounded
down; counts of the width and more give the sign in every bit (46_shift.md R230, R243 to R246; D4; log 4). -/
def Obligations.ShiftRightArithmetic : Prop :=
  (Computes .psraw fun d v r => ∀ k < 4, (wordAt r k).toInt = (wordAt d k).toInt / 2 ^ v.toNat) ∧
  (ComputesImm .psrawImm fun d c r => ∀ k < 4, (wordAt r k).toInt = (wordAt d k).toInt / 2 ^ c) ∧
  (Computes .psrad fun d v r => ∀ k < 2, (dwordAt r k).toInt = (dwordAt d k).toInt / 2 ^ v.toNat) ∧
  ComputesImm .psradImm fun d c r => ∀ k < 2, (dwordAt r k).toInt = (dwordAt d k).toInt / 2 ^ c

/-! ### Moves and EMMS -/

/-- MOVQ load gives the register the source; MOVD load gives it the 32 bits of a general-purpose register or of memory
under 32 zeros (45_move.md R221, R223). -/
def Obligations.MoveLoads : Prop :=
  (Computes .movqLoad fun _ v r => r = v) ∧
  ∀ (s u : State) (p : Prefixes) (dst : MmReg) (src : RM) (v : Dword), MmxReady p s → readSrc32 p src s = .ok (v, u) →
    ReadEffect 4 s u ∧
    ∃ r, dwordAt r 0 = v ∧ dwordAt r 1 = 0 ∧
      exec (.movdLoad p dst src) s = .next (mmxResult u dst r (rmLength p src))

/-- The store forms with a register on the `rm` side: MOVD writes bits 31 to 0 to a general-purpose register and no MMX
register, MOVQ writes an MMX register; nothing else changes but the tags, the top-of-stack field and `pc` (45_move.md
R222, R224). -/
def Obligations.MoveStoresToRegisters : Prop :=
  ∀ (s : State) (p : Prefixes) (src : MmReg) (n : Fin 8), MmxReady p s →
    exec (.movqStore p src (.reg n)) s = .next (mmxResult s n (s.mmAt src) (rmLength p (.reg n))) ∧
    exec (.movdStore p src (.reg n)) s =
      .next { s with
        gpr := s.gpr.set n (dwordAt (s.mmAt src) 0)
        pc := s.pc + BitVec.ofNat 32 (rmLength p (.reg n))
        fpu := { s.fpu with ftw := 0x0000, top := 0 } }

/-- The store forms with a memory operand: the bytes of the register, the low byte at the first of the operand's physical
addresses, and every other byte of memory as before; where the operand lies on a device, the device is written once, in the
width of the operand, and its bytes are not memory's; no register changes but the tags, the top-of-stack field and `pc`
(45_move.md R222, R224, 20_memory.md R72, R76, R83; log 42). Where pages put two bytes of the operand at one address, it holds
the last of them (the model's choice, log 8). -/
def Obligations.MoveStoresToMemory : Prop :=
  ∀ (s : State) (p : Prefixes) (src : MmReg) (m : MemOperand) (l : List Nat), Memory.wf s.mem = true → MmxReady p s →
    StorePermitted s l →
    (accessAddresses s (segmentOf p m) (effectiveAddress s m) 8 .write = .ok l →
      ∃ mem events, exec (.movqStore p src (.mem m)) s = .next (storeResult s mem events l (rmLength p (.mem m))) ∧
        (∀ k < 8, ∃ a, l[k]? = some a ∧
          (inRegion s.platform .device a = false → (∀ j, k < j → l[j]? ≠ some a) → memByte mem a = byteAt (s.mmAt src) k)) ∧
        (∀ a, a ∉ l ∨ inRegion s.platform .device a = true → memByte mem a = memByte s.mem a) ∧
        (NoDevice s l → events = s.deviceEvents) ∧
        (TouchesDevice s l → events =
          { kind := .write, addresses := l, bytes := (List.range 8).map (byteAt (s.mmAt src)) } :: s.deviceEvents)) ∧
    (accessAddresses s (segmentOf p m) (effectiveAddress s m) 4 .write = .ok l →
      ∃ mem events, exec (.movdStore p src (.mem m)) s = .next (storeResult s mem events l (rmLength p (.mem m))) ∧
        (∀ k < 4, ∃ a, l[k]? = some a ∧
          (inRegion s.platform .device a = false → (∀ j, k < j → l[j]? ≠ some a) → memByte mem a = byteAt (s.mmAt src) k)) ∧
        (∀ a, a ∉ l ∨ inRegion s.platform .device a = true → memByte mem a = memByte s.mem a) ∧
        (NoDevice s l → events = s.deviceEvents) ∧
        (TouchesDevice s l → events =
          { kind := .write, addresses := l, bytes := (List.range 4).map (byteAt (s.mmAt src)) } :: s.deviceEvents))

/-- A memory source is read little-endian from the operand's physical addresses, and the reading changes nothing; where the
operand lies on a device, the device is read once, in the width of the operand, and may give any byte (20_memory.md R72,
R76, R83; D2; logs 2, 42). -/
def Obligations.MemorySourceIsLittleEndian : Prop :=
  ∀ (s : State) (p : Prefixes) (m : MemOperand) (l : List Nat),
    (accessAddresses s (segmentOf p m) (effectiveAddress s m) 8 .read = .ok l →
      ∃ v u, readSrc64 p (.mem m) s = .ok (v, u) ∧
        (∀ k < 8, ∃ a, l[k]? = some a ∧ (inRegion s.platform .device a = false → byteAt v k = memByte s.mem a)) ∧
        (NoDevice s l → u = s) ∧
        (TouchesDevice s l → u =
          { s with
            draws := s.draws + 1
            deviceEvents :=
              { kind := .read, addresses := l, bytes := (List.range 8).map (byteAt v) } :: s.deviceEvents })) ∧
    (accessAddresses s (segmentOf p m) (effectiveAddress s m) 4 .read = .ok l →
      ∃ v u, readSrc32 p (.mem m) s = .ok (v, u) ∧
        (∀ k < 4, ∃ a, l[k]? = some a ∧
          (inRegion s.platform .device a = false → v.extractLsb' (8 * k) 8 = memByte s.mem a)) ∧
        (NoDevice s l → u = s) ∧
        (TouchesDevice s l → u =
          { s with
            draws := s.draws + 1
            deviceEvents :=
              { kind := .read, addresses := l, bytes := (List.range 4).map fun k => v.extractLsb' (8 * k) 8 } ::
                s.deviceEvents }))

/-- EMMS marks all eight registers empty and changes no MMX register: besides the tags, the top-of-stack field (R23, D3; log 3)
and `pc`, nothing changes (41_empty.md R170, 10_state.md R28). -/
def Obligations.EmmsEmptiesTags : Prop :=
  ∀ (s : State) (p : Prefixes), MmxReady p s →
    exec (.emms p) s =
      .next { s with
        pc := s.pc + BitVec.ofNat 32 (p.count + 2)
        fpu := { s.fpu with ftw := 0xFFFF, top := 0 } }

/-! ### System instructions -/

/-- CPUID, in every state: the printed values of Model 7, any value where the tables print none, the four registers and
`pc` the only registers that change (47_system.md R261, R264, R265, R269 to R273). The model's choices in it: the stepping is
an opaque constant (log 1), the outputs that no table prints are free values (log 16), each drawn with the counter `draws`
(log 37). -/
def Obligations.CpuidValues : Prop :=
  ∀ s : State, ∃ a b c d : Dword,
    exec .cpuid s =
      .next { s with
        gpr := (((s.gpr.set 0 a).set 3 b).set 1 c).set 2 d
        pc := s.pc + 2
        draws := s.draws + 1 } ∧
    (s.gprAt 0 = 0x00000000 → a = 0x00000001 ∧ b = 0x68747541 ∧ c = 0x444D4163 ∧ d = 0x69746E65) ∧
    (s.gprAt 0 = 0x00000001 → a = 0x00000570 + Config.stepping.setWidth 32 ∧ d = 0x008001BF) ∧
    (s.gprAt 0 = 0x80000000 → a = 0x80000005) ∧
    (s.gprAt 0 = 0x80000001 → a = 0x00000670 + Config.stepping.setWidth 32 ∧ d = 0x008005BF) ∧
    (s.gprAt 0 = 0x80000002 → a = 0x2D444D41 ∧ b = 0x6D74364B ∧ c = 0x202F7720 ∧ d = 0x746C756D) ∧
    (s.gprAt 0 = 0x80000003 → a = 0x64656D69 ∧ b = 0x65206169 ∧ c = 0x6E657478 ∧ d = 0x6E6F6973) ∧
    (s.gprAt 0 = 0x80000004 → a = 0x00000073 ∧ b = 0 ∧ c = 0 ∧ d = 0) ∧
    (s.gprAt 0 = 0x80000005 → b = 0x02800140 ∧ c = 0x20020220 ∧ d = 0x20020220)

/-- RDMSR at privilege level 0: the stored registers whole, EFER and WHCR with their reserved bits 0, TR12 with bit 3 as
written and any other bits, the time stamp counter advanced by some number of clock cycles (47_system.md R274, 10_state.md
R42 to R46; D16, D17; logs 20, 21). -/
def Obligations.RdmsrReads : Prop :=
  ∀ s : State, s.cpl = 0 → s.mode ≠ .virtual8086 →
    (s.gprAt 1 = 0x00000000 → exec .rdmsr s = .next (edxEaxResult s s.msr.mcar)) ∧
    (s.gprAt 1 = 0x00000001 → exec .rdmsr s = .next (edxEaxResult s s.msr.mctr)) ∧
    (s.gprAt 1 = 0x0000000E →
      ∃ v : Qword, v.getLsbD 3 = s.msr.tr12Ci ∧
        exec .rdmsr s = .next (edxEaxResult { s with draws := s.draws + 1 } v)) ∧
    (s.gprAt 1 = 0x00000010 →
      ∃ cycles : Nat, exec .rdmsr s =
        .next (edxEaxResult
          { s with msr := { s.msr with tsc := s.msr.tsc + BitVec.ofNat 64 cycles }, draws := s.draws + 1 }
          (s.msr.tsc + BitVec.ofNat 64 cycles))) ∧
    (s.gprAt 1 = 0xC0000080 →
      ∃ v : Qword, (∀ k, v.getLsbD k = (decide (k = 0) && s.msr.efer.getLsbD k)) ∧
        exec .rdmsr s = .next (edxEaxResult s v)) ∧
    (s.gprAt 1 = 0xC0000082 →
      ∃ v : Qword, (∀ k, v.getLsbD k = (decide (k < 9) && s.msr.whcr.getLsbD k)) ∧
        exec .rdmsr s = .next (edxEaxResult s v))

/-- WRMSR at privilege level 0 writes the selected register and nothing else but `pc`: of TR12 bit 3 alone, EFER where
bits 63 to 1 of the value are 0, WHCR where bits 63 to 9 are 0 (47_system.md R275; D17; log 23). A change of WHCR uses up the
WBINVD before it, and is noted where there was none (70_reset_and_hazards.md R372; log 29). -/
def Obligations.WrmsrWrites : Prop :=
  ∀ (s : State) (v : Qword), s.cpl = 0 → s.mode ≠ .virtual8086 → v = s.gprAt 2 ++ s.gprAt 0 →
    (s.gprAt 1 = 0x00000000 → exec .wrmsr s = .next { s with pc := s.pc + 2, msr := { s.msr with mcar := v } }) ∧
    (s.gprAt 1 = 0x00000001 → exec .wrmsr s = .next { s with pc := s.pc + 2, msr := { s.msr with mctr := v } }) ∧
    (s.gprAt 1 = 0x0000000E →
      exec .wrmsr s = .next { s with pc := s.pc + 2, msr := { s.msr with tr12Ci := v.getLsbD 3 } }) ∧
    (s.gprAt 1 = 0x00000010 → exec .wrmsr s = .next { s with pc := s.pc + 2, msr := { s.msr with tsc := v } }) ∧
    (s.gprAt 1 = 0xC0000080 → v.toNat < 2 →
      exec .wrmsr s = .next { s with pc := s.pc + 2, msr := { s.msr with efer := v } }) ∧
    (s.gprAt 1 = 0xC0000082 → v.toNat < 512 →
      ∃ duty, exec .wrmsr s = .next { s with pc := s.pc + 2, msr := { s.msr with whcr := v }, whcrDuty := duty } ∧
        (v = s.msr.whcr → duty = s.whcrDuty) ∧ (v ≠ s.msr.whcr → s.whcrDuty = .done → duty = .due) ∧
        (v ≠ s.msr.whcr → s.whcrDuty ≠ .done → duty = .omitted))

/-- Where RDMSR and WRMSR at privilege level 0 do not complete: a reserved bit of EFER raises general protection, a
reserved bit of WHCR and a number that names no register of Model 7 are refused (47_system.md R274, R275, 10_state.md R47;
D17; logs 22, 23). And which programs a step refuses after WRMSR: one that has set WHCR.WCDE (10_state.md R46; U7; log 23) and
one that has changed WHCR with no WBINVD before (70_reset_and_hazards.md R372; U17; log 29). -/
def Obligations.MsrStops : Prop :=
  (∀ (s : State) (v : Qword), s.cpl = 0 → s.mode ≠ .virtual8086 → v = s.gprAt 2 ++ s.gprAt 0 →
    (s.gprAt 1 = 0xC0000080 → 2 ≤ v.toNat → exec .wrmsr s = .next (takeException .generalProtection s)) ∧
    (s.gprAt 1 = 0xC0000082 → 512 ≤ v.toNat → exec .wrmsr s = .refused .whcrReservedBits) ∧
    (s.gprAt 1 ∉ [(0x00000000 : Dword), 0x00000001, 0x0000000E, 0x00000010, 0xC0000080, 0xC0000082] →
      exec .rdmsr s = .refused (.unimplementedMsr (s.gprAt 1)) ∧
      exec .wrmsr s = .refused (.unimplementedMsr (s.gprAt 1)))) ∧
  ∀ s : State, s.env = [] → s.exception = none →
    (s.msr.whcr.getLsbD 8 = true → step s = .refused .wcdeSet) ∧
    (s.msr.whcr.getLsbD 8 = false → s.whcrDuty = .omitted → step s = .refused .whcrChangedWithoutWbinvd) ∧
    (s.msr.whcr.getLsbD 8 = false → s.whcrDuty ≠ .omitted → programRefusal s = none)

/-- RDTSC where CR4.TSD = 0 or at privilege level 0: EDX:EAX receives the counter, advanced by some number of clock cycles
(47_system.md R276, 10_state.md R44; D16; log 20). -/
def Obligations.RdtscReads : Prop :=
  ∀ s : State, s.cr4TSD = false ∨ s.cpl = 0 →
    ∃ cycles : Nat, exec .rdtsc s =
      .next (edxEaxResult
        { s with msr := { s.msr with tsc := s.msr.tsc + BitVec.ofNat 64 cycles }, draws := s.draws + 1 }
        (s.msr.tsc + BitVec.ofNat 64 cycles))

/-- WBINVD at privilege level 0 changes no architectural state but `pc` (47_system.md R277, 20_memory.md R88; log 33); the model
notes that it was executed, for the next change of WHCR (70_reset_and_hazards.md R372; log 29). -/
def Obligations.WbinvdAdvances : Prop :=
  ∀ s : State, s.cpl = 0 → s.mode ≠ .virtual8086 →
    ∃ duty, exec .wbinvd s = .next { s with pc := s.pc + 2, whcrDuty := duty } ∧
      (s.whcrDuty ≠ .omitted → duty = .done) ∧ (s.whcrDuty = .omitted → duty = .omitted)

/-! ### Frames over all instructions -/

/-- The tag word after any MMX instruction but EMMS: unchanged where it raised an exception; where it raised none, all eight
tags are valid (10_state.md R27), unless it only asserted FERR# and changed nothing else: that clause, `t = assertFerr s`, is the
model's choice for a pending floating-point exception with CR0.NE = 0 (60_exceptions.md R307; D18; log 24). -/
def Obligations.TagWordRule : Prop :=
  ∀ (i : Instr) (p : Prefixes) (s t : State), i.mmxPrefixes = some p → i ≠ .emms p → s.exception = none →
    exec i s = .next t →
      (t.exception ≠ none → t.fpu.ftw = s.fpu.ftw) ∧ (t.exception = none → t = assertFerr s ∨ t.fpu.ftw = 0x0000)

/-- What no instruction writes: EFLAGS, the control registers, the segment registers, the mode, the privilege level, the
pending floating-point exception and the floating-point state that MMX does not touch, the latches, and what belongs to
the platform (10_state.md R31, R32, R36, R37). -/
def Obligations.ControlStateNeverWritten : Prop :=
  ∀ (i : Instr) (s t : State), exec i s = .next t →
    t.eflags = s.eflags ∧ t.cr0 = s.cr0 ∧ t.cr2 = s.cr2 ∧ t.cr4 = s.cr4 ∧ t.idtBase = s.idtBase ∧
    t.smmBase = s.smmBase ∧ t.segs = s.segs ∧ t.addr32Default = s.addr32Default ∧ t.pages = s.pages ∧
    t.mode = s.mode ∧ t.cpl = s.cpl ∧ t.fpu.pending = s.fpu.pending ∧ t.fpu.condCodes = s.fpu.condCodes ∧
    t.fpu.control = s.fpu.control ∧ t.fpu.instrPtr = s.fpu.instrPtr ∧ t.fpu.dataPtr = s.fpu.dataPtr ∧
    t.nmiLatch = s.nmiLatch ∧ t.smiLatch = s.smiLatch ∧ t.flushLatch = s.flushLatch ∧ t.platform = s.platform ∧
    t.fetched = s.fetched ∧ t.env = s.env

/-- Which instructions write a general-purpose register, and which: MOVD to the one it names, CPUID to EAX, EBX, ECX and
EDX, RDMSR and RDTSC to EAX and EDX (10_state.md R34). -/
def Obligations.GeneralRegisterWriters : Prop :=
  ∀ (i : Instr) (s t : State) (n : Gpr), exec i s = .next t → t.gprAt n ≠ s.gprAt n →
    (∃ p src, i = .movdStore p src (.reg n)) ∨
    (i = .cpuid ∧ (n = 0 ∨ n = 1 ∨ n = 2 ∨ n = 3)) ∨
    ((i = .rdmsr ∨ i = .rdtsc) ∧ (n = 0 ∨ n = 2))

/-- Only the two store forms with a memory operand change memory or the record of stored bytes (20_memory.md R71, 45_move.md
R220), and an instruction accesses devices at most once, through its memory operand, in the operand's direction and width
(20_memory.md R83; log 42). -/
def Obligations.MemoryWriters : Prop :=
  ∀ (i : Instr) (s t : State), exec i s = .next t →
    ((∃ p src m, i = .movdStore p src (.mem m) ∨ i = .movqStore p src (.mem m)) ∨
      (t.mem = s.mem ∧ t.stored = s.stored)) ∧
    (t.deviceEvents = s.deviceEvents ∨
      ∃ p m e, i.operand = some (p, .mem m) ∧ t.deviceEvents = e :: s.deviceEvents ∧ e.kind = (accessOf i).2 ∧
        e.addresses.length = (accessOf i).1 ∧ e.bytes.length = (accessOf i).1)

/-- Only WRMSR changes an MSR, but for the time stamp counter, which RDTSC and RDMSR may advance (10_state.md R42 to R46); no MMX
instruction changes one, and none draws a free value but through a memory operand. The model's choices in it: R44 increments
the counter at every clock, the model advances it at a read alone (log 20), it counts the draws of free values (logs 37, 42),
and it keeps the duty of WBINVD, which only WRMSR and WBINVD change (log 29). -/
def Obligations.MsrWriters : Prop :=
  ∀ (i : Instr) (s t : State), exec i s = .next t →
    (i ≠ .wrmsr → t.msr = { s.msr with tsc := t.msr.tsc }) ∧
    (i ≠ .wrmsr → i ≠ .rdmsr → i ≠ .rdtsc → t.msr = s.msr) ∧
    (i ≠ .wrmsr → i ≠ .wbinvd → t.whcrDuty = s.whcrDuty) ∧
    (i.mmxPrefixes.isSome = true → t.msr = s.msr ∧ ((∀ p m, i.operand ≠ some (p, .mem m)) → t.draws = s.draws))

/-- None of the five system instructions is an MMX instruction: none touches the tag word, an MMX register or any other
floating-point state, none changes CR0 or FERR#, and with any others in their place, a pending floating-point exception among
them, each does the same, so that none runs `mmx_prologue()` and none is affected by CR0.EM or CR0.TS (47_system.md R260). -/
def Obligations.SystemInstructionsIgnoreMmxState : Prop :=
  ∀ (i : Instr) (s : State) (f : Fpu) (c : Dword) (b : Bool), i ∈ [Instr.cpuid, .rdmsr, .wrmsr, .rdtsc, .wbinvd] →
    i.mmxPrefixes = none ∧
    (∀ t, exec i s = .next t →
      t.fpu = s.fpu ∧ t.cr0 = s.cr0 ∧ t.ferr = s.ferr ∧
        exec i { s with fpu := f, cr0 := c, ferr := b } = .next { t with fpu := f, cr0 := c, ferr := b }) ∧
    ∀ r, exec i s = .refused r → exec i { s with fpu := f, cr0 := c, ferr := b } = .refused r

/-! ### The environment -/

/-- RESET from any state sets what the spec states: EAX the self-test result, EDX the signature, four MSRs 0, the fetch at
FFFF_FFF0h (70_reset_and_hazards.md R350 to R352, R354). That memory stays as it is, is the model's choice (log 40), as are the
stepping (log 1) and the moves still to come (log 11). -/
def Obligations.ResetStatedValues : Prop :=
  ∀ (s : State) (bist : Dword) (moves : List EnvMove), s.env = .reset bist :: moves →
    ∃ t, step s = .next t ∧ t.gprAt 0 = bist ∧ t.gprAt 2 = 0x00000570 + Config.stepping.setWidth 32 ∧
      t.msr.efer = 0 ∧ t.msr.whcr = 0 ∧ t.msr.mcar = 0 ∧ t.msr.mctr = 0 ∧
      linear t .cs t.pc = 0xFFFFFFF0 ∧ t.exception = none ∧ t.mem = s.mem ∧ t.env = moves

/-- INIT from any state: what it keeps, what it discards, and the fetch at FFFF_FFF0h (70_reset_and_hazards.md R353, 10_state.md
R51, 60_exceptions.md R325; CR0.EM and CR0.TS take the family's reset value 0, log 18). -/
def Obligations.InitKeepsAndSets : Prop :=
  ∀ (s : State) (eax : Dword) (moves : List EnvMove), s.env = .init eax :: moves →
    ∃ t, step s = .next t ∧ t.fpu = s.fpu ∧ t.msr = s.msr ∧ t.cr0CD = s.cr0CD ∧ t.cr0NW = s.cr0NW ∧
      t.cr0EM = false ∧ t.cr0TS = false ∧ t.smmBase = s.smmBase ∧ t.smiLatch = s.smiLatch ∧
      t.flushLatch = s.flushLatch ∧ t.nmiLatch = false ∧ t.gprAt 2 = 0x00000570 + Config.stepping.setWidth 32 ∧
      linear t .cs t.pc = 0xFFFFFFF0 ∧ t.exception = none ∧ t.mem = s.mem ∧ t.env = moves

/-- The int 7 handler's move in the outcome `Exception(7, pc)`: the new floating-point state, CR0.TS cleared and no other bit of
CR0 changed, the same instruction next; nothing else changes (60_exceptions.md R313; log 10). -/
def Obligations.Int7HandlerResumes : Prop :=
  ∀ (s : State) (f : Fpu) (pc : Dword) (moves : List EnvMove), s.env = .handlerInt7 f :: moves →
    s.exception = some { kind := .deviceNotAvailable, pc } →
      ∃ cr0, step s = .next { s with fpu := f, cr0, pc, exception := none, env := moves } ∧
        ∀ k, cr0.getLsbD k = (s.cr0.getLsbD k && decide (k ≠ 3))

/-- A task switch makes the next MMX instruction raise device not available, and after the int 7 handler has loaded a
state with no pending exception the same instruction passes its prologue (60_exceptions.md R302, R313). That the switch
changes nothing but CR0.TS, so that the same `pc` goes on, is the model's choice (log 41). -/
def Obligations.TaskSwitchTrapsThenRestarts : Prop :=
  ∀ (i : Instr) (p : Prefixes) (s : State) (f : Fpu) (moves : List EnvMove), i.mmxPrefixes = some p → p.lock = false →
    s.cr0EM = false → s.env = .taskSwitch :: .handlerInt7 f :: moves → f.pending = false →
      ∃ t u w, step s = .next t ∧ exec i t = .next u ∧ u = takeException .deviceNotAvailable t ∧
        step u = .next w ∧ w.pc = s.pc ∧ w.fpu = f ∧ w.exception = none ∧ MmxReady p w

/-! ### Laws -/

/-- The laws that R182 infers from R176 to R181, for the three widths: equality is symmetric; a value equals itself in every lane and is greater than
itself in none; in any one lane exactly one of greater, less and equal is all ones, and the other two are all zeros. -/
def Obligations.CompareLaws : Prop :=
  (∀ a b : Qword, ∃ e g l, Gives .pcmpeqb a b e ∧ Gives .pcmpeqb b a e ∧ Gives .pcmpgtb a b g ∧ Gives .pcmpgtb b a l ∧
    Gives .pcmpeqb a a (BitVec.allOnes 64) ∧ Gives .pcmpgtb a a 0 ∧
    ∀ k < 8, OneAllOnes (byteAt e k) (byteAt g k) (byteAt l k)) ∧
  (∀ a b : Qword, ∃ e g l, Gives .pcmpeqw a b e ∧ Gives .pcmpeqw b a e ∧ Gives .pcmpgtw a b g ∧ Gives .pcmpgtw b a l ∧
    Gives .pcmpeqw a a (BitVec.allOnes 64) ∧ Gives .pcmpgtw a a 0 ∧
    ∀ k < 4, OneAllOnes (wordAt e k) (wordAt g k) (wordAt l k)) ∧
  ∀ a b : Qword, ∃ e g l, Gives .pcmpeqd a b e ∧ Gives .pcmpeqd b a e ∧ Gives .pcmpgtd a b g ∧ Gives .pcmpgtd b a l ∧
    Gives .pcmpeqd a a (BitVec.allOnes 64) ∧ Gives .pcmpgtd a a 0 ∧
    ∀ k < 2, OneAllOnes (dwordAt e k) (dwordAt g k) (dwordAt l k)

/-- The laws that R215 infers from R211 to R214: PAND, POR and PXOR commute and associate, PANDN does not commute, the masked choice takes each bit
from `a` where `m` is 1 and from `b` where it is 0, and what each gives on equal operands. -/
def Obligations.LogicalLaws : Prop :=
  (∀ form : Prefixes → MmReg → RM → Instr, form = .pand ∨ form = .por ∨ form = .pxor → ∀ a b c : Qword,
    ∃ ab bc r, Gives form a b ab ∧ Gives form b a ab ∧ Gives form b c bc ∧ Gives form ab c r ∧ Gives form a bc r) ∧
  (∃ a b x y : Qword, Gives .pandn a b x ∧ Gives .pandn b a y ∧ x ≠ y) ∧
  (∀ a b m : Qword, ∃ x y r, Gives .pand m a x ∧ Gives .pandn m b y ∧ Gives .por x y r ∧
    ∀ k < 64, r.getLsbD k = if m.getLsbD k then a.getLsbD k else b.getLsbD k) ∧
  ∀ a : Qword, Gives .pxor a a 0 ∧ Gives .pandn a a 0 ∧ Gives .pand a a a ∧ Gives .por a a a

/-- Laws that R158 infers from R141 to R157: subtracting what was added restores the destination; the wrapping additions and the multiplications
commute; PMULHW over PMULLW is the exact signed product of each pair of words. -/
def Obligations.ArithmeticLaws : Prop :=
  ∀ a b : Qword,
    (∃ x, Gives .paddb a b x ∧ Gives .paddb b a x ∧ Gives .psubb x b a) ∧
    (∃ x, Gives .paddw a b x ∧ Gives .paddw b a x ∧ Gives .psubw x b a) ∧
    (∃ x, Gives .paddd a b x ∧ Gives .paddd b a x ∧ Gives .psubd x b a) ∧
    (∃ x, Gives .pmaddwd a b x ∧ Gives .pmaddwd b a x) ∧
    ∃ h l, Gives .pmulhw a b h ∧ Gives .pmulhw b a h ∧ Gives .pmullw a b l ∧ Gives .pmullw b a l ∧
      ∀ k < 4, (wordAt h k ++ wordAt l k).toInt = (wordAt a k).toInt * (wordAt b k).toInt

/-- The laws that R200 infers from R191 to R199: unpacking bytes against zero zero-extends them, and packing the two halves gives the value back;
PUNPCKLDQ and PUNPCKHDQ pair the doublewords; a pack of values in range keeps their low parts. -/
def Obligations.ConvertLaws : Prop :=
  (∀ a : Qword, ∃ lo hi, Gives .punpcklbw a 0 lo ∧ Gives .punpckhbw a 0 hi ∧ Gives .packuswb lo hi a ∧
    ∀ k < 4, wordAt lo k = (byteAt a k).setWidth 16 ∧ wordAt hi k = (byteAt a (4 + k)).setWidth 16) ∧
  (∀ a b : Qword, Gives .punpckldq a b (dwordAt b 0 ++ dwordAt a 0) ∧ Gives .punpckhdq a b (dwordAt b 1 ++ dwordAt a 1)) ∧
  ∀ a b : Qword,
    ((∀ k < 4, -128 ≤ (wordAt a k).toInt ∧ (wordAt a k).toInt ≤ 127 ∧ -128 ≤ (wordAt b k).toInt ∧
        (wordAt b k).toInt ≤ 127) →
      ∃ r, Gives .packsswb a b r ∧
        ∀ k < 4, byteAt r k = (wordAt a k).setWidth 8 ∧ byteAt r (4 + k) = (wordAt b k).setWidth 8) ∧
    ((∀ k < 4, 0 ≤ (wordAt a k).toInt ∧ (wordAt a k).toInt ≤ 255 ∧ 0 ≤ (wordAt b k).toInt ∧ (wordAt b k).toInt ≤ 255) →
      ∃ r, Gives .packuswb a b r ∧
        ∀ k < 4, byteAt r k = (wordAt a k).setWidth 8 ∧ byteAt r (4 + k) = (wordAt b k).setWidth 8) ∧
    ((∀ k < 2, -32768 ≤ (dwordAt a k).toInt ∧ (dwordAt a k).toInt ≤ 32767 ∧ -32768 ≤ (dwordAt b k).toInt ∧
        (dwordAt b k).toInt ≤ 32767) →
      ∃ r, Gives .packssdw a b r ∧
        ∀ k < 2, wordAt r k = (dwordAt a k).setWidth 16 ∧ wordAt r (2 + k) = (dwordAt b k).setWidth 16)

/-- The five laws that R247 infers from R230 and R180: the two forms agree, shifts compose, left then right clears the top bits, a full
arithmetic shift is the mask of the negative elements, and an arithmetic shift of a non-negative element is a logical
one. -/
def Obligations.ShiftLaws : Prop :=
  (∀ (a : Qword) (c : Byte),
    ∀ f ∈ [((.psllw, .psllwImm) : RmForm × ImmForm), (.pslld, .pslldImm), (.psllq, .psllqImm), (.psrlw, .psrlwImm),
        (.psrld, .psrldImm), (.psrlq, .psrlqImm), (.psraw, .psrawImm), (.psrad, .psradImm)],
      ∃ r, Gives f.1 a (c.setWidth 64) r ∧ GivesImm f.2 a c r) ∧
  (∀ (w : Nat) (x : BitVec w) (c d : Nat),
    shlElem (shlElem x c) d = shlElem x (c + d) ∧ shrElem (shrElem x c) d = shrElem x (c + d) ∧
      sarElem (sarElem x c) d = sarElem x (c + d)) ∧
  (∀ (a : Qword) (c : Nat),
    (c < 16 → ∃ x r, Gives .psllw a (BitVec.ofNat 64 c) x ∧ Gives .psrlw x (BitVec.ofNat 64 c) r ∧
      ∀ k < 4, ∀ j < 16, (wordAt r k).getLsbD j = (decide (j < 16 - c) && (wordAt a k).getLsbD j)) ∧
    (c < 32 → ∃ x r, Gives .pslld a (BitVec.ofNat 64 c) x ∧ Gives .psrld x (BitVec.ofNat 64 c) r ∧
      ∀ k < 2, ∀ j < 32, (dwordAt r k).getLsbD j = (decide (j < 32 - c) && (dwordAt a k).getLsbD j)) ∧
    (c < 64 → ∃ x r, Gives .psllq a (BitVec.ofNat 64 c) x ∧ Gives .psrlq x (BitVec.ofNat 64 c) r ∧
      ∀ j < 64, r.getLsbD j = (decide (j < 64 - c) && a.getLsbD j))) ∧
  (∀ a : Qword,
    (∃ r, Gives .psraw a 15 r ∧ Gives .pcmpgtw 0 a r) ∧ ∃ r, Gives .psrad a 31 r ∧ Gives .pcmpgtd 0 a r) ∧
  ∀ (w : Nat) (x : BitVec w) (c : Nat), c < w → x.msb = false → sarElem x c = shrElem x c

/-- The laws that R225 infers from R221 to R224 and R72: what a store put into memory or a general-purpose register a load of
the same place brings back, all 64 bits of MOVQ and the low 32 of MOVD; a load and a store through an MMX register keep the 32-bit
value. The same place in memory is one that reads and writes of the operand reach at the same physical addresses, all different
and none of them a device's (logs 8, 42). -/
def Obligations.MoveRoundTrips : Prop :=
  (∀ (s : State) (p : Prefixes) (src dst : MmReg) (m : MemOperand) (l : List Nat), Memory.wf s.mem = true → MmxReady p s →
    accessAddresses s (segmentOf p m) (effectiveAddress s m) 8 .write = .ok l →
    accessAddresses s (segmentOf p m) (effectiveAddress s m) 8 .read = .ok l → StorePermitted s l → NoDevice s l → l.Nodup →
      ∃ t u, exec (.movqStore p src (.mem m)) s = .next t ∧ exec (.movqLoad p dst (.mem m)) t = .next u ∧
        u.mmAt dst = s.mmAt src) ∧
  (∀ (s : State) (p : Prefixes) (src dst : MmReg) (m : MemOperand) (l : List Nat), Memory.wf s.mem = true → MmxReady p s →
    accessAddresses s (segmentOf p m) (effectiveAddress s m) 4 .write = .ok l →
    accessAddresses s (segmentOf p m) (effectiveAddress s m) 4 .read = .ok l → StorePermitted s l → NoDevice s l → l.Nodup →
      ∃ t u, exec (.movdStore p src (.mem m)) s = .next t ∧ exec (.movdLoad p dst (.mem m)) t = .next u ∧
        u.mmAt dst = (dwordAt (s.mmAt src) 0).setWidth 64) ∧
  (∀ (s : State) (p q : Prefixes) (src dst : MmReg) (n : Gpr), MmxReady p s → MmxReady q s →
    ∃ t u, exec (.movdStore p src (.reg n)) s = .next t ∧ exec (.movdLoad q dst (.reg n)) t = .next u ∧
      u.mmAt dst = (dwordAt (s.mmAt src) 0).setWidth 64) ∧
  ∀ (s : State) (p q : Prefixes) (r : MmReg) (n k : Gpr), MmxReady p s → MmxReady q s →
    ∃ t u, exec (.movdLoad p r (.reg n)) s = .next t ∧ exec (.movdStore q r (.reg k)) t = .next u ∧
      u.gprAt k = s.gprAt n

/-! ### Addressing -/

/-- Every form of a memory operand: its effective address, modulo 2^32 in 32-bit addressing, where index number 4 means none,
and modulo 2^16 in 16-bit addressing, by the table of R107; and the segment it goes through, the override where there is one,
else SS for a base of EBP, ESP in the SIB form, or BP, and DS for all others (30_encoding.md R105 to R107, R117, 20_memory.md
R77). -/
def Obligations.EffectiveAddresses : Prop :=
  (∀ (s : State) (b x : Gpr) (sc : Fin 4) (d8 : Byte) (d16 : Word) (d32 : Dword),
    let base : Nat := (s.gprAt b).toNat
    let index : Nat := if x = 4 then 0 else (s.gprAt x).toNat * 2 ^ sc.val
    (effectiveAddress s (.a32 (.base b .none))).toNat = base ∧
    ((effectiveAddress s (.a32 (.base b (.d8 d8)))).toNat : Int) = (base + d8.toInt) % 2 ^ 32 ∧
    (effectiveAddress s (.a32 (.base b (.d32 d32)))).toNat = (base + d32.toNat) % 2 ^ 32 ∧
    effectiveAddress s (.a32 (.abs d32)) = d32 ∧
    (effectiveAddress s (.a32 (.sib sc x b .none))).toNat = (base + index) % 2 ^ 32 ∧
    ((effectiveAddress s (.a32 (.sib sc x b (.d8 d8)))).toNat : Int) = (base + index + d8.toInt) % 2 ^ 32 ∧
    (effectiveAddress s (.a32 (.sib sc x b (.d32 d32)))).toNat = (base + index + d32.toNat) % 2 ^ 32 ∧
    (effectiveAddress s (.a32 (.sibNoBase sc x d32))).toNat = (d32.toNat + index) % 2 ^ 32 ∧
    (effectiveAddress s (.a16 (.abs d16))).toNat = d16.toNat) ∧
  (∀ (s : State) (row : Fin 8) (sum : Nat) (d8 : Byte) (d16 : Word),
    let bx := (s.gprAt 3).toNat
    let bp := (s.gprAt 5).toNat
    let si := (s.gprAt 6).toNat
    let di := (s.gprAt 7).toNat
    (row, sum) ∈ [((0 : Fin 8), bx + si), (1, bx + di), (2, bp + si), (3, bp + di), (4, si), (5, di), (6, bp), (7, bx)] →
      (effectiveAddress s (.a16 (.regs row .none))).toNat = sum % 2 ^ 16 ∧
      ((effectiveAddress s (.a16 (.regs row (.d8 d8)))).toNat : Int) = (sum + d8.toInt) % 2 ^ 16 ∧
      (effectiveAddress s (.a16 (.regs row (.d16 d16)))).toNat = (sum + d16.toNat) % 2 ^ 16) ∧
  ∀ (p : Prefixes) (b x : Gpr) (sc : Fin 4) (e : Disp32) (d32 : Dword) (row : Fin 8) (d : Disp16) (d16 : Word),
    (∀ (r : SegReg) (m : MemOperand), p.seg = some r → segmentOf p m = r) ∧
    (p.seg = none →
      segmentOf p (.a32 (.base b e)) = (if b = 5 then .ss else .ds) ∧
      segmentOf p (.a32 (.abs d32)) = .ds ∧
      segmentOf p (.a32 (.sib sc x b e)) = (if b = 4 ∨ b = 5 then .ss else .ds) ∧
      segmentOf p (.a32 (.sibNoBase sc x d32)) = .ds ∧
      segmentOf p (.a16 (.regs row d)) = (if row = 2 ∨ row = 3 ∨ row = 6 then .ss else .ds) ∧
      segmentOf p (.a16 (.abs d16)) = .ds)

/-- Without page rules, and in Real mode, an operand lies at consecutive linear addresses (20_memory.md R76, R81; D7; log 8). That
its bytes go on at 0 past FFFF_FFFFh is the model's choice (log 43). -/
def Obligations.UnpagedTranslationIsIdentity : Prop :=
  ∀ (s : State) (k : Access) (lin : Dword) (n : Nat), s.mode = .real ∨ s.pages = [] →
    translate s k lin n = some ((List.range n).map fun j => (lin.toNat + j) % 2 ^ 32)
end

