-- ==== Sys2Proof/Laws/Memory.lean ====
section
/-! SUPPORT. What the operations on memory do: every one keeps the canonical form, a byte reads as written, and every other
byte reads as before (20_memory.md R70, R72; log 27). -/

namespace Sys2Proof.Machine

/-! ### The canonical form -/

/-- A lower bound may be lowered. -/
theorem memWfFrom_mono {m : List Host.Cell} {a b : Nat} (hab : a ≤ b) (h : memWfFrom b m = true) :
    memWfFrom a m = true := by
  cases m with
  | nil => rfl
  | cons c rest =>
    obtain ⟨k, v⟩ := c
    simp only [memWfFrom, Bool.and_eq_true, decide_eq_true_eq] at h ⊢
    exact ⟨⟨⟨hab.trans h.1.1.1, h.1.1.2⟩, h.1.2⟩, h.2⟩

/-- An address below every entry is unlisted. -/
theorem memByte_below {m : List Host.Cell} {low a : Nat} (h : memWfFrom low m = true) (ha : a < low) :
    memByte m a = unlistedByte := by
  induction m generalizing low with
  | nil => rfl
  | cons c rest ih =>
    obtain ⟨k, v⟩ := c
    simp only [memWfFrom, Bool.and_eq_true, decide_eq_true_eq] at h
    have hk : k ≠ a := by have := h.1.1.1; omega
    simp only [memByte, if_neg hk]
    exact ih h.2 (by have := h.1.1.1; omega)

/-- Removing an entry keeps the canonical form. -/
theorem memErase_wf {m : List Host.Cell} {low a : Nat} (h : memWfFrom low m = true) :
    memWfFrom low (memErase m a) = true := by
  induction m generalizing low with
  | nil => rfl
  | cons c rest ih =>
    obtain ⟨k, v⟩ := c
    simp only [memWfFrom, Bool.and_eq_true, decide_eq_true_eq] at h
    by_cases hk : k = a
    · simp only [memErase, if_pos hk]
      exact memWfFrom_mono (by have := h.1.1.1; omega) h.2
    · simp only [memErase, if_neg hk, memWfFrom, Bool.and_eq_true, decide_eq_true_eq]
      exact ⟨h.1, ih h.2⟩

/-- Inserting an entry keeps the canonical form. -/
theorem memInsert_wf {m : List Host.Cell} {low a : Nat} {v : Byte} (h : memWfFrom low m = true) (hl : low ≤ a)
    (ha : a < memorySize) (hv : v ≠ unlistedByte) : memWfFrom low (memInsert m a v) = true := by
  induction m generalizing low with
  | nil => simp [memInsert, memWfFrom, hl, ha, hv]
  | cons c rest ih =>
    obtain ⟨k, w⟩ := c
    simp only [memWfFrom, Bool.and_eq_true, decide_eq_true_eq] at h
    simp only [memInsert]
    split
    · rename_i hak
      simp only [memWfFrom, Bool.and_eq_true, decide_eq_true_eq, bne_iff_ne]
      exact ⟨⟨⟨hl, ha⟩, hv⟩, ⟨⟨hak, h.1.1.2⟩, by simpa using h.1.2⟩, h.2⟩
    · split
      · rename_i hka
        subst hka
        simp only [memWfFrom, Bool.and_eq_true, decide_eq_true_eq, bne_iff_ne]
        exact ⟨⟨⟨hl, ha⟩, hv⟩, h.2⟩
      · simp only [memWfFrom, Bool.and_eq_true, decide_eq_true_eq]
        exact ⟨h.1, ih h.2 (by omega)⟩

/-- Writing one byte keeps the canonical form. -/
theorem memSetByte_wf {m : List Host.Cell} {a : Nat} {v : Byte} (h : Memory.wf m = true) (ha : a < memorySize) :
    Memory.wf (memSetByte m a v) = true := by
  unfold Memory.wf memSetByte at *
  split
  · exact memErase_wf h
  · rename_i hv
    exact memInsert_wf h (Nat.zero_le _) ha hv

/-- Writing bytes below 2^32 keeps the canonical form. -/
theorem memSetBytes_wf {cells : List (Nat × Byte)} {m : List Host.Cell} (h : Memory.wf m = true)
    (ha : ∀ c ∈ cells, c.1 < memorySize) : Memory.wf (memSetBytes m cells) = true := by
  induction cells generalizing m with
  | nil => exact h
  | cons c rest ih =>
    obtain ⟨a, v⟩ := c
    exact ih (memSetByte_wf h (ha (a, v) (by simp))) fun c hc => ha c (by simp [hc])

/-- The memory of the reset state is in the canonical form. -/
theorem reset_memory_wf : Memory.wf State.reset.mem = true := rfl

/-! ### Reading after a write -/

theorem memByte_memErase_ne {m : List Host.Cell} {a b : Nat} (h : b ≠ a) :
    memByte (memErase m a) b = memByte m b := by
  induction m with
  | nil => rfl
  | cons c rest ih =>
    obtain ⟨k, v⟩ := c
    by_cases hk : k = a
    · have : k ≠ b := by omega
      simp [memErase, memByte, hk, Ne.symm h]
    · by_cases hb : k = b
      · subst hb
        simp [memErase, memByte, h]
      · simp [memErase, memByte, hk, hb, ih]

theorem memByte_memErase_same {m : List Host.Cell} {low a : Nat} (h : memWfFrom low m = true) :
    memByte (memErase m a) a = unlistedByte := by
  induction m generalizing low with
  | nil => rfl
  | cons c rest ih =>
    obtain ⟨k, v⟩ := c
    simp only [memWfFrom, Bool.and_eq_true, decide_eq_true_eq] at h
    by_cases hk : k = a
    · subst hk
      simp only [memErase, if_true]
      exact memByte_below h.2 (Nat.lt_succ_self _)
    · simp only [memErase, if_neg hk, memByte]
      exact ih h.2

theorem memByte_memInsert_same (m : List Host.Cell) (a : Nat) (v : Byte) : memByte (memInsert m a v) a = v := by
  induction m with
  | nil => simp [memInsert, memByte]
  | cons c rest ih =>
    obtain ⟨k, w⟩ := c
    by_cases h1 : a < k
    · simp [memInsert, memByte, h1]
    · by_cases h2 : k = a
      · simp [memInsert, memByte, h2]
      · simp [memInsert, memByte, h1, h2, ih]

theorem memByte_memInsert_ne {m : List Host.Cell} {a b : Nat} {v : Byte} (h : b ≠ a) :
    memByte (memInsert m a v) b = memByte m b := by
  induction m with
  | nil => simp [memInsert, memByte, Ne.symm h]
  | cons c rest ih =>
    obtain ⟨k, w⟩ := c
    by_cases h1 : a < k
    · simp [memInsert, memByte, h1, Ne.symm h]
    · by_cases h2 : k = a
      · subst h2
        simp [memInsert, memByte, Ne.symm h]
      · simp only [memInsert, h1, h2, if_false, memByte, ih]

/-- A byte reads as written. -/
theorem memByte_memSetByte_same {m : List Host.Cell} {a : Nat} {v : Byte} (h : Memory.wf m = true) :
    memByte (memSetByte m a v) a = v := by
  unfold memSetByte
  split
  · rename_i hv
    rw [hv]
    exact memByte_memErase_same h
  · exact memByte_memInsert_same m a v

/-- A write leaves every other byte. -/
theorem memByte_memSetByte_ne {m : List Host.Cell} {a b : Nat} {v : Byte} (h : b ≠ a) :
    memByte (memSetByte m a v) b = memByte m b := by
  unfold memSetByte
  split
  · exact memByte_memErase_ne h
  · exact memByte_memInsert_ne h

/-- A write of bytes leaves every byte that is not among them. -/
theorem memByte_memSetBytes_ne {cells : List (Nat × Byte)} {m : List Host.Cell} {b : Nat}
    (h : ∀ c ∈ cells, b ≠ c.1) : memByte (memSetBytes m cells) b = memByte m b := by
  induction cells generalizing m with
  | nil => rfl
  | cons c rest ih =>
    obtain ⟨a, v⟩ := c
    rw [memSetBytes, ih fun c hc => h c (by simp [hc])]
    exact memByte_memSetByte_ne (h (a, v) (by simp))

/-- Bytes written after others: the writes of one list after those of the other. -/
theorem memSetBytes_append (m : List Host.Cell) (c d : List (Nat × Byte)) :
    memSetBytes m (c ++ d) = memSetBytes (memSetBytes m c) d := by
  induction c generalizing m with
  | nil => rfl
  | cons c rest ih => exact ih _

/-- A byte reads as it was written last. -/
theorem memByte_memSetBytes_last {before after : List (Nat × Byte)} {m : List Host.Cell} {a : Nat} {v : Byte}
    (hm : Memory.wf m = true) (hb : ∀ c ∈ before, c.1 < memorySize) (ha : ∀ c ∈ after, a ≠ c.1) :
    memByte (memSetBytes m (before ++ (a, v) :: after)) a = v := by
  rw [memSetBytes_append, memSetBytes, memByte_memSetBytes_ne ha]
  exact memByte_memSetByte_same (memSetBytes_wf hm hb)

/-! ### Little-endian bytes -/

@[simp] theorem leBytes_length {w : Nat} (n : Nat) (v : BitVec w) : (leBytes n v).length = n := by simp [leBytes]

/-- Byte `k` of a value is its bits `8k` to `8k + 7`. -/
theorem leBytes_get {w n k : Nat} (v : BitVec w) (h : k < n) : (leBytes n v)[k]? = some (v.extractLsb' (8 * k) 8) := by
  simp [leBytes, h]

/-- The value of `n` bytes is below `256 ^ n`. -/
theorem leValue_lt (l : List Byte) : leValue l < 256 ^ l.length := by
  induction l with
  | nil => simp [leValue]
  | cons b rest ih =>
    have hb := b.isLt
    simp only [leValue, List.length_cons, Nat.pow_succ]
    omega

/-- Digit `k` of the value of bytes is byte `k`. -/
theorem leValue_digit (l : List Byte) (k : Nat) (hk : k < l.length) : leValue l / 256 ^ k % 256 = l[k].toNat := by
  induction l generalizing k with
  | nil => simp at hk
  | cons b r ih =>
    have hb := b.isLt
    cases k with
    | zero => simp only [leValue, pow_zero, Nat.div_one, List.getElem_cons_zero]; omega
    | succ k =>
      simp only [leValue, List.getElem_cons_succ]
      rw [← ih k (by simpa using hk), pow_succ', ← Nat.div_div_eq_div_mul, show (b.toNat + 256 * leValue r) / 256 = leValue r by omega]

/-- Bits `8k` to `8k + 7` of the value of bytes are byte `k` (20_memory.md R72). -/
theorem extract_leValue (l : List Byte) (w k : Nat) (hk : k < l.length) (hw : 8 * l.length = w) :
    (BitVec.ofNat w (leValue l)).extractLsb' (8 * k) 8 = l[k] := by
  have hlt : leValue l < 2 ^ w := by rw [← hw, pow_mul]; exact leValue_lt l
  apply BitVec.eq_of_toNat_eq
  rw [BitVec.extractLsb'_toNat, BitVec.toNat_ofNat, Nat.mod_eq_of_lt hlt, Nat.shiftRight_eq_div_pow, pow_mul, ← leValue_digit l k hk]
  rfl

/-- The bytes of the value of bytes are those bytes. -/
theorem leBytes_leValue (l : List Byte) (w n : Nat) (hn : l.length = n) (hw : 8 * n = w) :
    leBytes n (BitVec.ofNat w (leValue l)) = l := by
  subst hn
  apply List.ext_getElem
  · simp
  · intro i h1 h2
    simp only [leBytes, List.getElem_map, List.getElem_range]
    exact extract_leValue l w i h2 hw

/-! ### Lists of addresses -/

theorem mem_addAddresses {old new : List Nat} {a : Nat} : a ∈ addAddresses old new ↔ a ∈ old ∨ a ∈ new := by
  simp only [addAddresses, List.mem_append, List.mem_filter, Bool.not_eq_true', List.contains_eq_mem,
    decide_eq_false_iff_not]
  tauto

end Sys2Proof.Machine
end

