-- ==== Sys2Proof/Laws/Ops.lean ====
section
/-! SUPPORT. What each shared operation can do, said once: the checks, the prologue, the two access primitives, the operand
forms, and the frames of the register and immediate forms. -/

namespace Sys2Proof.Machine

/-! ### Checks in sequence -/

@[simp] theorem Check.bind_ok {α β : Type} (a : α) (f : α → Check β) : (Check.ok a).bind f = f a := rfl
@[simp] theorem Check.bind_raised {α β : Type} (e : Exc) (f : α → Check β) :
    (Check.raised e : Check α).bind f = .raised e := rfl
@[simp] theorem Check.bind_ferrOnly {α β : Type} (f : α → Check β) : (Check.ferrOnly : Check α).bind f = .ferrOnly := rfl
@[simp] theorem Check.bind_refused {α β : Type} (r : Refusal) (f : α → Check β) :
    (Check.refused r : Check α).bind f = .refused r := rfl

@[simp] theorem Check.finish_ok (s t : State) : (Check.ok t).finish s = .next t := rfl
@[simp] theorem Check.finish_raised (s : State) (e : Exc) : (Check.raised e).finish s = .next (takeException e s) := rfl
@[simp] theorem Check.finish_ferrOnly (s : State) : Check.ferrOnly.finish s = .next (assertFerr s) := rfl
@[simp] theorem Check.finish_refused (s : State) (r : Refusal) : (Check.refused r).finish s = .refused r := rfl

/-- A sequence of two checks passes exactly when both do. -/
theorem Check.bind_eq_ok {α β : Type} {c : Check α} {f : α → Check β} {b : β} :
    c.bind f = .ok b ↔ ∃ a, c = .ok a ∧ f a = .ok b := by
  cases c <;> simp [Check.bind]

/-- A next state is that of the completed instruction, or the instruction did not complete. -/
theorem Check.finish_eq_next {s t : State} {c : Check State} :
    c.finish s = .next t ↔
      c = .ok t ∨ (∃ e, c = .raised e ∧ t = takeException e s) ∨ (c = .ferrOnly ∧ t = assertFerr s) := by
  cases c <;> simp [Check.finish, eq_comm]

/-- No check ends in a fault. -/
theorem Check.finish_ne_fault {s : State} {c : Check State} {f : Fault} : c.finish s ≠ .fault f := by
  cases c <;> simp [Check.finish]

/-- What an instruction's next state is, when it completed or not. -/
theorem Check.finish_next_cases {s t : State} {c : Check State} (h : c.finish s = .next t) :
    c = .ok t ∨ NotCompleted s t := by
  rcases Check.finish_eq_next.mp h with h | ⟨e, -, h⟩ | ⟨-, h⟩
  · exact .inl h
  · exact .inr (.inl ⟨e, h⟩)
  · exact .inr (.inr h)

/-! ### The prologue and privilege -/

/-- The prologue passes exactly when its four conditions hold. -/
theorem mmxPrologue_eq_ok {p : Prefixes} {s : State} : mmxPrologue p s = .ok () ↔ MmxReady p s := by
  unfold mmxPrologue MmxReady
  cases p.lock <;> cases s.cr0EM <;> cases s.cr0TS <;> cases s.fpu.pending <;> cases s.cr0NE <;> cases s.ferr <;> simp

theorem mmxPrologue_ready {p : Prefixes} {s : State} (h : MmxReady p s) : mmxPrologue p s = .ok () :=
  mmxPrologue_eq_ok.mpr h

theorem mmxPrologue_invalidOpcode {p : Prefixes} {s : State} (h : p.lock = true ∨ s.cr0EM = true) :
    mmxPrologue p s = .raised .invalidOpcode := by
  unfold mmxPrologue
  rcases h with h | h <;> simp [h]

theorem mmxPrologue_deviceNotAvailable {p : Prefixes} {s : State} (hl : p.lock = false) (he : s.cr0EM = false)
    (ht : s.cr0TS = true) : mmxPrologue p s = .raised .deviceNotAvailable := by
  simp [mmxPrologue, hl, he, ht]

theorem mmxPrologue_pending {p : Prefixes} {s : State} (hl : p.lock = false) (he : s.cr0EM = false)
    (ht : s.cr0TS = false) (hp : s.fpu.pending = true) :
    mmxPrologue p s =
      if s.cr0NE then .raised .floatingPointPending
      else if s.ferr then .refused .ferrAssertedWithNEClear else .ferrOnly := by
  simp [mmxPrologue, hl, he, ht, hp]

/-- Privilege passes at level 0 outside Virtual 8086 mode, and only there. -/
theorem requireCpl0_eq_ok {s : State} : requireCpl0 s = .ok () ↔ s.cpl = 0 ∧ s.mode ≠ .virtual8086 := by
  unfold requireCpl0
  split <;> rename_i h
  · simp; tauto
  · simp; tauto

theorem requireCpl0_fails {s : State} (h : s.cpl ≠ 0 ∨ s.mode = .virtual8086) :
    requireCpl0 s = .raised .generalProtection := if_pos h

/-! ### Memory accesses -/

/-- Translation gives one physical address for each byte, all in the address space. -/
theorem translateBytes_spec {s : State} {k : Access} {n : Nat} {lin : Dword} {before : Dword × Nat} {count : Nat} {l : List Nat}
    (h : translateBytes s k n lin before count = some l) : l.length = count ∧ ∀ a ∈ l, a < memorySize := by
  induction count generalizing lin before l with
  | zero => cases h; simp
  | succ count ih =>
    unfold translateBytes at h
    split at h
    · cases h
    · rename_i here _
      split at h
      · cases h
      · rename_i rest hr
        cases h
        obtain ⟨hlen, hlt⟩ := ih hr
        exact ⟨by simp [hlen], List.forall_mem_cons.mpr ⟨here.1.isLt, hlt⟩⟩

/-- The same for a whole access. -/
theorem translate_length {s : State} {k : Access} {lin : Dword} {n : Nat} {l : List Nat}
    (h : translate s k lin n = some l) : l.length = n := (translateBytes_spec h).1

/-- Every translated address lies in the address space. -/
theorem translate_lt {s : State} {k : Access} {lin : Dword} {n : Nat} {l : List Nat} (h : translate s k lin n = some l) :
    ∀ a ∈ l, a < memorySize := (translateBytes_spec h).2

/-- Within a page the bytes of an access lie at consecutive physical addresses. -/
theorem translateBytes_in_page {s : State} {k : Access} {n : Nat} {lin a : Dword} {left count : Nat} (h : count ≤ left) :
    translateBytes s k n lin (a, left) count =
      some ((List.range count).map fun j => (a + BitVec.ofNat 32 (j + 1)).toNat) := by
  induction count generalizing lin a left with
  | zero => rfl
  | succ count ih =>
    obtain ⟨m, rfl⟩ : ∃ m, left = m + 1 := ⟨left - 1, by omega⟩
    simp only [translateBytes, translateNext, ih (show count ≤ m by omega), List.range_succ_eq_map, List.map_cons,
      List.map_map]
    congr 2
    refine List.map_congr_left fun j _ => ?_
    simp only [Function.comp]
    rw [BitVec.add_assoc, show (1 : BitVec 32) = BitVec.ofNat 32 1 from rfl, ← BitVec.ofNat_add]
    congr 3
    omega

/-- An access within one page lies at the physical addresses from what `Translate` gives on (20_memory.md R76). -/
theorem translate_in_page {s : State} {k : Access} {lin a : Dword} {left n : Nat} (h : translateAt s k n lin = some (a, left))
    (hn : n ≤ left + 1) : translate s k lin n = some ((List.range n).map fun j => (a + BitVec.ofNat 32 j).toNat) := by
  unfold translate
  cases n with
  | zero => rfl
  | succ n =>
    simp only [translateBytes, translateNext, h, translateBytes_in_page (show n ≤ left by omega), List.range_succ_eq_map,
      List.map_cons, List.map_map]
    congr 2
    simp

/-- An access passes its checks exactly when the segment, the alignment and the translation do. -/
theorem accessAddresses_eq_ok {s : State} {g : SegReg} {off : Dword} {n : Nat} {k : Access} {l : List Nat} :
    accessAddresses s g off n k = .ok l ↔
      segCheck s g off n k = .ok () ∧ alignCheck s (linear s g off) n = .ok () ∧
        translate s k (linear s g off) n = some l := by
  unfold accessAddresses
  rw [Check.bind_eq_ok]
  constructor
  · rintro ⟨_, h1, h⟩
    obtain ⟨_, h2, h⟩ := Check.bind_eq_ok.mp h
    split at h
    · cases h
    · cases h; exact ⟨h1, h2, by assumption⟩
  · rintro ⟨h1, h2, h3⟩
    exact ⟨(), h1, by rw [h2, Check.bind_ok, h3]⟩

/-- A read gives the bytes at the operand's addresses, whatever they are. -/
theorem memRead_eq_ok {s : State} {g : SegReg} {off : Dword} {n : Nat} {r : List Byte × State} :
    memRead s g off n = .ok r ↔
      ∃ l, accessAddresses s g off n .read = .ok l ∧ r = (l.map (loadByte s), afterRead s l) := by
  unfold memRead
  rw [Check.bind_eq_ok]
  simp only [Check.ok.injEq, eq_comm]

/-- An access to memory alone is no event, an access that touches a device is one. -/
theorem deviceEventsAfter_cases (s : State) (k : Access) (l : List Nat) (b : List Byte) :
    (NoDevice s l → deviceEventsAfter s k l b = s.deviceEvents) ∧
      (TouchesDevice s l → deviceEventsAfter s k l b = { kind := k, addresses := l, bytes := b } :: s.deviceEvents) :=
  ⟨fun h => if_neg (by simpa [NoDevice] using h), fun h => if_pos (by simpa [TouchesDevice] using h)⟩

/-- A read of memory alone changes nothing; a read of a device is one event and one draw. -/
theorem afterRead_cases (s : State) (l : List Nat) :
    (NoDevice s l ∧ afterRead s l = s) ∨
      (TouchesDevice s l ∧ afterRead s l =
        { s with
          draws := s.draws + 1
          deviceEvents := { kind := .read, addresses := l, bytes := l.map (loadByte s) } :: s.deviceEvents }) := by
  by_cases h : l.any (inRegion s.platform .device) = true
  · refine .inr ⟨by simpa [TouchesDevice] using h, ?_⟩
    simp [afterRead, deviceEventsAfter, h]
  · refine .inl ⟨by simpa [NoDevice] using h, ?_⟩
    simp [afterRead, deviceEventsAfter, h]

theorem afterRead_effect (s : State) (l : List Nat) : ReadEffect l.length s (afterRead s l) := by
  rcases afterRead_cases s l with ⟨-, h⟩ | ⟨-, h⟩
  · exact .inl h
  · exact .inr ⟨_, rfl, rfl, by simp, h⟩

/-- An access has as many physical addresses as bytes. -/
theorem accessAddresses_length {s : State} {g : SegReg} {off : Dword} {n : Nat} {k : Access} {l : List Nat}
    (h : accessAddresses s g off n k = .ok l) : l.length = n :=
  translate_length (accessAddresses_eq_ok.mp h).2.2

/-- What memory holds at an address that is no device's, a load reads. -/
theorem loadByte_memory {s : State} {a : Nat} (h : inRegion s.platform .device a = false) :
    loadByte s a = memByte s.mem a := by
  simp [loadByte, h]

/-- A write stores its bytes at the operand's addresses and records them. -/
theorem memWrite_eq_ok {s t : State} {g : SegReg} {off : Dword} {b : List Byte} :
    memWrite s g off b = .ok t ↔
      ∃ l, accessAddresses s g off b.length .write = .ok l ∧ StorePermitted s l ∧
        t = { s with
          mem := storeBytes s l b
          stored := addAddresses s.stored l
          deviceEvents := deviceEventsAfter s .write l b } := by
  unfold memWrite StorePermitted
  rw [Check.bind_eq_ok]
  refine exists_congr fun l => and_congr_right fun _ => ?_
  split
  · rename_i h
    simp only [List.any_eq_true] at h
    obtain ⟨a, ha, hd⟩ := h
    constructor
    · intro h; cases h
    · rintro ⟨h, -⟩; rw [(h a ha).1] at hd; cases hd
  · rename_i h1
    split
    · rename_i h
      simp only [List.any_eq_true, Bool.and_eq_true] at h
      obtain ⟨a, ha, hd, hw⟩ := h
      constructor
      · intro h; cases h
      · rintro ⟨h, -⟩; rw [(h a ha).2.1 hd] at hw; cases hw
    · rename_i h2
      split
      · rename_i h
        simp only [List.any_eq_true, List.contains_eq_mem, decide_eq_true_eq] at h
        obtain ⟨a, ha, hd⟩ := h
        constructor
        · intro h; cases h
        · rintro ⟨h, -⟩; exact absurd hd (h a ha).2.2
      · rename_i h3
        simp only [List.any_eq_true, not_exists, not_and, Bool.not_eq_true, List.contains_eq_mem, Bool.and_eq_true,
          decide_eq_true_eq] at h1 h2 h3
        constructor
        · intro e; cases e; exact ⟨fun a ha => ⟨h1 a ha, h2 a ha, h3 a ha⟩, rfl⟩
        · rintro ⟨-, rfl⟩; rfl

/-- A store leaves every byte of memory outside its addresses, and every byte where a device is. -/
theorem storeBytes_ne {s : State} {l : List Nat} {b : List Byte} {a : Nat}
    (h : a ∉ l ∨ inRegion s.platform .device a = true) : memByte (storeBytes s l b) a = memByte s.mem a := by
  refine memByte_memSetBytes_ne fun c hc e => ?_
  simp only [List.mem_filter, Bool.not_eq_true'] at hc
  rcases h with h | h
  · exact h (e ▸ (List.of_mem_zip hc.1).1)
  · rw [e, hc.2] at h; cases h

/-- A store keeps the canonical form. -/
theorem storeBytes_wf {s : State} {l : List Nat} {b : List Byte} (h : Memory.wf s.mem = true)
    (hl : ∀ a ∈ l, a < memorySize) : Memory.wf (storeBytes s l b) = true :=
  memSetBytes_wf h fun _ hc => hl _ (List.of_mem_zip (List.mem_filter.mp hc).1).1

/-- A stored byte of memory reads as written, the last one where several bytes of the operand go to one address. -/
theorem storeBytes_get {s : State} {l : List Nat} {b : List Byte} (h : Memory.wf s.mem = true)
    (hl : ∀ a ∈ l, a < memorySize) {k a : Nat} {v : Byte} (ha : l[k]? = some a) (hv : b[k]? = some v)
    (hk : ∀ j, k < j → l[j]? ≠ some a) (hm : inRegion s.platform .device a = false) :
    memByte (storeBytes s l b) a = v := by
  have hz : (l.zip b)[k]? = some (a, v) := by simp [List.getElem?_zip_eq_some, ha, hv]
  obtain ⟨hlt, he⟩ := List.getElem?_eq_some_iff.mp hz
  have hsplit := List.take_append_drop k (l.zip b)
  rw [List.drop_eq_getElem_cons hlt, he] at hsplit
  have hlast : ∀ c ∈ ((l.zip b).drop (k + 1)).filter fun c => !inRegion s.platform .device c.1, a ≠ c.1 := by
    rintro ⟨c, w⟩ hc rfl
    obtain ⟨i, hi⟩ := List.mem_iff_getElem?.mp (List.mem_filter.mp hc).1
    rw [List.getElem?_drop, List.getElem?_zip_eq_some] at hi
    exact hk (k + 1 + i) (by omega) hi.1
  unfold storeBytes
  rw [← hsplit, List.filter_append, List.filter_cons_of_pos (by simp [hm])]
  refine memByte_memSetBytes_last h (fun c hc => ?_) hlast
  exact hl _ (List.of_mem_zip (List.take_subset _ _ (List.mem_filter.mp hc).1)).1

/-! ### Operand forms -/

@[simp] theorem readSrc64_reg (p : Prefixes) (n : Fin 8) (s : State) : readSrc64 p (.reg n) s = .ok (s.mmAt n, s) := rfl
@[simp] theorem readSrc32_reg (p : Prefixes) (n : Fin 8) (s : State) : readSrc32 p (.reg n) s = .ok (s.gprAt n, s) := rfl
@[simp] theorem writeDst64_reg (p : Prefixes) (n : Fin 8) (v : Qword) (s : State) :
    writeDst64 p (.reg n) v s = .ok (s.setMm n v) := rfl
@[simp] theorem writeDst32_reg (p : Prefixes) (n : Fin 8) (v : Dword) (s : State) :
    writeDst32 p (.reg n) v s = .ok (s.setGpr n v) := rfl

/-- Reading a 64-bit source changes nothing but what the reading of a device changes. -/
theorem readSrc64_effect {p : Prefixes} {src : RM} {s u : State} {v : Qword} (h : readSrc64 p src s = .ok (v, u)) :
    ReadEffect 8 s u := by
  cases src with
  | reg n => cases h; exact .inl rfl
  | mem m =>
    obtain ⟨r, hr, h⟩ := Check.bind_eq_ok.mp h
    obtain ⟨l, hl, rfl⟩ := memRead_eq_ok.mp hr
    cases h
    exact accessAddresses_length hl ▸ afterRead_effect s l

/-- Reading a 32-bit source changes nothing but what the reading of a device changes. -/
theorem readSrc32_effect {p : Prefixes} {src : RM} {s u : State} {v : Dword} (h : readSrc32 p src s = .ok (v, u)) :
    ReadEffect 4 s u := by
  cases src with
  | reg n => cases h; exact .inl rfl
  | mem m =>
    obtain ⟨r, hr, h⟩ := Check.bind_eq_ok.mp h
    obtain ⟨l, hl, rfl⟩ := memRead_eq_ok.mp hr
    cases h
    exact accessAddresses_length hl ▸ afterRead_effect s l

/-- The end of an MMX instruction that wrote one register, as one record. -/
theorem setMm_mmxDone (s : State) (dst : MmReg) (r : Qword) (n : Nat) :
    (s.setMm dst r).mmxDone n = mmxResult s dst r n := rfl

/-- A register-or-memory form completes when the prologue passes and the source is read. -/
theorem mmxRegMem_completes {f : Qword → Qword → Qword} {p : Prefixes} {dst : MmReg} {src : RM} {s u : State} {v : Qword}
    (hr : MmxReady p s) (hv : readSrc64 p src s = .ok (v, u)) :
    mmxRegMem f p dst src s = .next (mmxResult u dst (f (s.mmAt dst) v) (rmLength p src)) := by
  unfold mmxRegMem
  rw [mmxPrologue_ready hr, Check.bind_ok, hv]
  rfl

/-- All that a register-or-memory form can do when it answers a next state. -/
theorem mmxRegMem_cases {f : Qword → Qword → Qword} {p : Prefixes} {dst : MmReg} {src : RM} {s t : State}
    (h : mmxRegMem f p dst src s = .next t) :
    (∃ v u, MmxReady p s ∧ readSrc64 p src s = .ok (v, u) ∧ t = mmxResult u dst (f (s.mmAt dst) v) (rmLength p src)) ∨
      NotCompleted s t := by
  rcases Check.finish_next_cases h with h | h
  · obtain ⟨_, h1, h⟩ := Check.bind_eq_ok.mp h
    obtain ⟨⟨v, u⟩, h2, h⟩ := Check.bind_eq_ok.mp h
    cases h
    exact .inl ⟨v, u, mmxPrologue_eq_ok.mp h1, h2, rfl⟩
  · exact .inr h

/-- An immediate form completes when the prologue passes. -/
theorem mmxRegImm_completes {f : Qword → Nat → Qword} {p : Prefixes} {dst : MmReg} {imm : Byte} {s : State}
    (hr : MmxReady p s) :
    mmxRegImm f p dst imm s = .next (mmxResult s dst (f (s.mmAt dst) imm.toNat) (immLength p)) := by
  unfold mmxRegImm
  rw [mmxPrologue_ready hr]
  rfl

/-- All that an immediate form can do when it answers a next state. -/
theorem mmxRegImm_cases {f : Qword → Nat → Qword} {p : Prefixes} {dst : MmReg} {imm : Byte} {s t : State}
    (h : mmxRegImm f p dst imm s = .next t) :
    (MmxReady p s ∧ t = mmxResult s dst (f (s.mmAt dst) imm.toNat) (immLength p)) ∨ NotCompleted s t := by
  rcases Check.finish_next_cases h with h | h
  · obtain ⟨_, h1, h⟩ := Check.bind_eq_ok.mp h
    cases h
    exact .inl ⟨mmxPrologue_eq_ok.mp h1, rfl⟩
  · exact .inr h

end Sys2Proof.Machine
end

