-- ==== Sys2Proof/Laws/Access.lean ====
section
/-! SUPPORT. When each check of a memory access passes and what it raises where it does not (20_memory.md R75 to R81), and
what the reads and writes of the model-specific registers can do (47_system.md R274, R275). -/

namespace Sys2Proof.Machine

/-! ### The segment check -/

theorem segCheck_protected {s : State} (g : SegReg) (off : Dword) (n : Nat) (k : Access) (h : s.mode = .protectedMode) :
    segCheck s g off n k =
      if (s.segs.get g).ok off n k then .ok ()
      else if g = .ss then .raised .stackException else .raised .generalProtection := by
  simp [segCheck, h]

theorem segCheck_unprotected {s : State} (g : SegReg) (off : Dword) (n : Nat) (k : Access) (h : s.mode ≠ .protectedMode) :
    segCheck s g off n k =
      if off.toNat + n - 1 ≤ 0xFFFF then .ok ()
      else if g = .ss then .raised .stackException else .raised .segmentOverrun := by
  unfold segCheck
  split
  · contradiction
  · rfl

/-- `SegOK` as a computation and as a condition are the same. -/
theorem SegRecord.ok_iff {g : SegRecord} {off : Dword} {n : Nat} {k : Access} : g.ok off n k = true ↔ SegAllows g off n k := by
  simp only [SegRecord.ok, SegAllows, List.any_eq_true, SegRule.allows, Bool.and_eq_true, List.contains_eq_mem,
    decide_eq_true_eq]
  refine exists_congr fun r => and_congr_right fun _ => ?_
  rw [and_assoc]
  refine and_congr_right fun _ => and_congr ?_ ?_
  · cases r.size <;> simp
  · cases r.range <;> simp [OffsetRange.covers, InRange, BitVec.lt_def, BitVec.le_def]

/-- The segment check never refuses and asserts nothing. -/
theorem segCheck_cases (s : State) (g : SegReg) (off : Dword) (n : Nat) (k : Access) :
    segCheck s g off n k = .ok () ∨ segCheck s g off n k = .raised .stackException ∨
      segCheck s g off n k = .raised .generalProtection ∨ segCheck s g off n k = .raised .segmentOverrun := by
  by_cases h : s.mode = .protectedMode
  · rw [segCheck_protected g off n k h]; split_ifs <;> simp
  · rw [segCheck_unprotected g off n k h]; split_ifs <;> simp

/-- A list that holds every doubleword. -/
theorem exists_all_dwords : ∃ l : List Dword, ∀ d, d ∈ l :=
  ⟨(List.range (2 ^ 32)).map (BitVec.ofNat 32), fun d =>
    List.mem_map.mpr ⟨d.toNat, List.mem_range.mpr d.isLt, by simp⟩⟩

/-- The rules of a segment can express any predicate on offset, width and kind: `SegOK` is left open (00_scope.md R8). -/
theorem segment_rules_express (P : Dword → Nat → Access → Bool) (widths : List Nat) :
    ∃ rules, ∀ (g : SegRecord) (off : Dword) (n : Nat) (k : Access), g.rules = rules → n ∈ widths → g.ok off n k = P off n k := by
  obtain ⟨all, hall⟩ := exists_all_dwords
  refine ⟨all.flatMap fun a => widths.flatMap fun n => ([.read, .write, .fetch] : List Access).filterMap fun k =>
    if P a n k then some { kinds := [k], size := some n, range := .startingIn a a } else none, ?_⟩
  rintro g off n k hg hn
  unfold SegRecord.ok
  rw [hg, Bool.eq_iff_iff]
  simp only [List.any_eq_true, List.mem_flatMap, List.mem_filterMap]
  constructor
  · rintro ⟨r, ⟨a, -, m, -, j, -, hj⟩, hr⟩
    split at hj
    · rename_i hp
      cases hj
      simp only [SegRule.allows, OffsetRange.covers, Bool.and_eq_true, List.contains_eq_mem, List.mem_singleton,
        decide_eq_true_eq, Option.all_some, beq_iff_eq] at hr
      obtain ⟨⟨rfl, rfl⟩, h1, h2⟩ := hr
      rwa [show off = a from BitVec.le_antisymm h2 h1]
    · cases hj
  · intro hp
    refine ⟨{ kinds := [k], size := some n, range := .startingIn off off },
      ⟨off, hall off, n, hn, k, by cases k <;> simp, by simp [hp]⟩, ?_⟩
    simp [SegRule.allows, OffsetRange.covers]

/-! ### Alignment and translation -/

theorem alignCheck_eq (s : State) (lin : Dword) (n : Nat) :
    alignCheck s lin n =
      if alignmentChecked s = true ∧ lin.toNat % n ≠ 0 then .raised .alignmentCheck else .ok () := by
  unfold alignCheck
  simp only [Bool.and_eq_true, bne_iff_ne, ne_eq]

/-- In Real mode no alignment is checked. -/
theorem alignCheck_real {s : State} (lin : Dword) (n : Nat) (h : s.mode = .real) : alignCheck s lin n = .ok () := by
  simp [alignCheck, alignmentChecked, h]

/-- Without a page rule for it, and in Real mode, an address is translated to itself. -/
theorem translateAt_identity {s : State} (k : Access) (n : Nat) (lin : Dword)
    (h : s.mode = .real ∨ ∀ r ∈ s.pages, r.applies lin n k s.cpl = false) : translateAt s k n lin = some (lin, 0) := by
  unfold translateAt
  split
  · rfl
  · rename_i hm
    have : s.pages.find? (PageRule.applies lin n k s.cpl) = none :=
      List.find?_eq_none.mpr fun r hr => by simp [h.resolve_left hm r hr]
    rw [this]

/-- The element that a search finds, where one satisfies the test and no other does. -/
theorem find?_unique {α : Type} {l : List α} {q : α → Bool} {a : α} (ha : a ∈ l) (hq : q a = true)
    (hu : ∀ b ∈ l, q b = true → b = a) : l.find? q = some a := by
  cases h : l.find? q with
  | none => exact absurd hq (List.find?_eq_none.mp h a ha)
  | some b => rw [hu b (List.mem_of_find?_eq_some h) (List.find?_some h)]

/-- The page rules can express any function of linear address, width, kind and privilege level, with pages that end where one
likes: `Translate` is left open (00_scope.md R8, 20_memory.md R81). -/
theorem page_rules_express (T : Dword → Nat → Access → Fin 4 → Option Dword) (pageEnd : Dword → Dword) (widths : List Nat) :
    ∃ rules, ∀ (s : State) (k : Access) (n : Nat) (lin : Dword), s.pages = rules → s.mode ≠ .real → n ∈ widths →
      translateAt s k n lin = (T lin n k s.cpl).map fun a => (a, (pageEnd lin - lin).toNat) := by
  obtain ⟨all, hall⟩ := exists_all_dwords
  refine ⟨all.flatMap fun a => (List.finRange 4).flatMap fun c =>
    widths.flatMap fun n => ([.read, .write, .fetch] : List Access).map fun k =>
      { first := a, last := a, pageEnd := pageEnd a, kinds := [k], levels := [c], size := some n, target := T a n k c }, ?_⟩
  intro s k n lin hs hm hn
  unfold translateAt
  rw [if_neg hm, hs]
  rw [find?_unique
    (a := { first := lin, last := lin, pageEnd := pageEnd lin, kinds := [k], levels := [s.cpl], size := some n,
            target := T lin n k s.cpl })]
  · simp
  · simp only [List.mem_flatMap, List.mem_map]
    exact ⟨lin, hall lin, s.cpl, List.mem_finRange _, n, hn, k, by cases k <;> simp, rfl⟩
  · simp [PageRule.applies]
  · intro r hr hq
    simp only [List.mem_flatMap, List.mem_map] at hr
    obtain ⟨p, -, c, -, m, -, j, -, rfl⟩ := hr
    simp only [PageRule.applies, Bool.and_eq_true, beq_iff_eq, List.contains_eq_mem, List.mem_singleton, decide_eq_true_eq,
      Option.all_some] at hq
    obtain ⟨⟨⟨⟨h1, h2⟩, rfl⟩, rfl⟩, rfl⟩ := hq
    rw [BitVec.le_antisymm h1 h2]

/-- What an access raises and where it goes depends on the control state alone, on no memory and no other register
(20_memory.md R76). -/
theorem accessAddresses_congr {s t : State} (hm : t.mode = s.mode) (hc : t.cpl = s.cpl) (hs : t.segs = s.segs)
    (hp : t.pages = s.pages) (h0 : t.cr0 = s.cr0) (hf : t.eflags = s.eflags) (g : SegReg) (off : Dword) (n : Nat) (k : Access) :
    accessAddresses t g off n k = accessAddresses s g off n k := by
  have hb : ∀ m lin b, translateNext t k m lin b = translateNext s k m lin b := fun m lin b => by
    unfold translateNext translateAt; rw [hm, hc, hp]
  have ht : ∀ m lin b j, translateBytes t k m lin b j = translateBytes s k m lin b j := by
    intro m lin b j
    induction j generalizing lin b with
    | zero => rfl
    | succ j ih => unfold translateBytes; simp only [ih, hb]
  unfold accessAddresses translate
  rw [show linear t g off = linear s g off by unfold linear; rw [hs], ht]
  unfold segCheck alignCheck alignmentChecked State.cr0AM State.flagAC
  rw [hm, hc, hs, h0, hf]

/-! ### The model-specific registers -/

/-- A read of an MSR changes at most the time stamp counter and the number of draws. -/
theorem readMsr_frame {n : Dword} {s t : State} {v : Qword} (h : readMsr n s = .ok (v, t)) :
    ∃ tsc draws, t = { s with msr := { s.msr with tsc := tsc }, draws := draws } := by
  unfold readMsr at h
  split_ifs at h <;> cases h
  · exact ⟨s.msr.tsc, s.draws, rfl⟩
  · exact ⟨s.msr.tsc, s.draws, rfl⟩
  · exact ⟨s.msr.tsc, s.draws + 1, rfl⟩
  · exact ⟨_, s.draws + 1, rfl⟩
  · exact ⟨s.msr.tsc, s.draws, rfl⟩
  · exact ⟨s.msr.tsc, s.draws, rfl⟩

/-- A write of an MSR changes nothing but the MSRs and the duty of WBINVD. -/
theorem writeMsr_frame {n : Dword} {v : Qword} {s t : State} (h : writeMsr n v s = .ok t) :
    ∃ m d, t = { s with msr := m, whcrDuty := d } := by
  unfold writeMsr at h
  split_ifs at h <;> cases h <;> exact ⟨_, _, rfl⟩

/-- A write of an MSR keeps the reserved bits of EFER and WHCR at 0. -/
theorem writeMsr_reserved {n : Dword} {v : Qword} {s t : State} (h : writeMsr n v s = .ok t)
    (he : s.msr.efer >>> 1 = 0) (hw : s.msr.whcr >>> 9 = 0) : t.msr.efer >>> 1 = 0 ∧ t.msr.whcr >>> 9 = 0 := by
  have key : ∀ k : Nat, ∀ m v : Qword, v &&& ~~~m = 0 → m >>> k = 0 → v >>> k = 0 := by
    intro k m v h1 h2
    have h3 : v = v &&& m := by
      have h := congrArg (fun x => v &&& m ||| x) h1
      apply BitVec.eq_of_getLsbD_eq
      intro i hi
      have h := congrArg (fun x => BitVec.getLsbD x i) h
      simp only [BitVec.getLsbD_or, BitVec.getLsbD_and, BitVec.getLsbD_not, hi, decide_true, Bool.true_and] at h ⊢
      revert h
      cases v.getLsbD i <;> cases m.getLsbD i <;> simp
    rw [h3, BitVec.ushiftRight_and_distrib, h2]
    simp
  unfold writeMsr at h
  split_ifs at h with h1 h2 h3 h4 h5 h6 h7 h8 <;> cases h
  all_goals first
    | exact ⟨he, hw⟩
    | exact ⟨key 1 eferMask v h6 (by decide), hw⟩
    | exact ⟨he, key 9 whcrMask v h8 (by decide)⟩

/-! ### Fetching -/

/-- The bytes fetched are the bytes memory holds at their addresses. -/
theorem codeBytes_content {s : State} {n : Nat} {lin : Dword} :
    ∀ c ∈ codeBytes s lin n, c.2 = memByte s.mem c.1 := by
  induction n generalizing lin with
  | zero => simp [codeBytes]
  | succ n ih =>
    unfold codeBytes
    split
    · simp
    · intro c hc
      rcases List.mem_cons.mp hc with rfl | hc
      · rfl
      · exact ih c hc

/-- An instruction whose bytes pass the fetch check holds no byte the program stored. -/
theorem fetchCheck_none {s : State} {l : List Nat} (h : fetchCheck s l = none) :
    s.pc.toNat + l.length < 2 ^ 32 ∧ codeInSegment s l.length = true ∧
      ∀ a ∈ l, inRegion s.platform .device a = false ∧ a ∉ s.stored := by
  unfold fetchCheck at h
  split_ifs at h with h1 h2 h3 h4
  simp only [List.any_eq_true, not_exists, not_and, Bool.not_eq_true, List.contains_eq_mem, decide_eq_false_iff_not] at h3 h4
  refine ⟨by omega, by simpa using h2, fun a ha => ⟨by simpa using h3 a ha, by simpa using h4 a ha⟩⟩

end Sys2Proof.Machine
end

