-- ==== Sys2Proof/Laws/PerInstr.lean ====
section
/-! SUPPORT. The per-instruction family `EncodedLength`: every instruction takes 2 to 11 bytes (30_encoding.md R111), with
one lemma for each constructor. -/

namespace Sys2Proof.Laws

/-- The prefix bytes are as many as the prefixes. -/
theorem prefix_bytes_length (p : Prefixes) : p.bytes.length = p.count := by
  obtain ⟨l, s, a⟩ := p
  cases l <;> cases s <;> cases a <;> rfl

/-- An instruction has at most three prefixes. -/
theorem prefix_count_le (p : Prefixes) : p.count ≤ 3 := by
  obtain ⟨l, s, a⟩ := p
  cases l <;> cases s <;> cases a <;> simp [Prefixes.count]

/-- The bytes from the ModR/M byte on are one and what the operand asks for. -/
theorem rm_bytes_length (reg : Fin 8) (rm : RM) : (rm.bytes reg).length = 1 + rm.extra := by
  rcases rm with n | m
  · rfl
  · rcases m with a | a <;> cases a <;> (try rename_i d) <;> (try cases d) <;> rfl

/-- What an operand asks for is at most a SIB byte and a disp32. -/
theorem rm_extra_le (rm : RM) : rm.extra ≤ 5 := by
  rcases rm with n | m
  · simp [RM.extra]
  · rcases m with a | a <;> cases a <;> (try rename_i d) <;> (try cases d) <;>
      simp [RM.extra, Disp16.size, Disp32.size]

/-- The encoder's bytes of a form with an `rm` operand are as many as the machine advances by. -/
theorem encodeRM_length (op : Byte) (p : Prefixes) (reg : Fin 8) (rm : RM) :
    (encodeRM op p reg rm).length = rmLength p rm := by
  simp only [encodeRM, List.length_append, List.length_cons, prefix_bytes_length, rm_bytes_length, rmLength]
  omega

/-- The encoder's bytes of an immediate shift are as many as the machine advances by. -/
theorem encodeImm_length (op : Byte) (n : Fin 8) (p : Prefixes) (dst : MmReg) (imm : Byte) :
    (encodeImm op n p dst imm).length = immLength p := by
  simp [encodeImm, prefix_bytes_length, immLength]

/-- The bounds for a form with an `rm` operand. -/
theorem encodeRM_bounds (op : Byte) (p : Prefixes) (reg : Fin 8) (rm : RM) :
    2 ≤ (encodeRM op p reg rm).length ∧ (encodeRM op p reg rm).length ≤ maxLength := by
  have h1 := prefix_count_le p
  have h2 := rm_extra_le rm
  simp only [encodeRM_length, rmLength, maxLength]
  omega

/-- The bounds for an immediate shift. -/
theorem encodeImm_bounds (op : Byte) (n : Fin 8) (p : Prefixes) (dst : MmReg) (imm : Byte) :
    2 ≤ (encodeImm op n p dst imm).length ∧ (encodeImm op n p dst imm).length ≤ maxLength := by
  have h1 := prefix_count_le p
  simp only [encodeImm_length, immLength, maxLength]
  omega

namespace EncodedLength

/-- The instruction's encoding takes 2 to 11 bytes. -/
def Statement (i : Instr) : Prop := 2 ≤ (encode i).length ∧ (encode i).length ≤ maxLength

theorem emms (p : Prefixes) : Statement (.emms p) := by
  have h := prefix_count_le p
  simp only [Statement, encode, List.length_append, prefix_bytes_length, List.length_cons, List.length_nil, maxLength]
  omega
theorem movdLoad (p : Prefixes) (dst : MmReg) (src : RM) : Statement (.movdLoad p dst src) := encodeRM_bounds _ p dst src
theorem movdStore (p : Prefixes) (src : MmReg) (dst : RM) : Statement (.movdStore p src dst) := encodeRM_bounds _ p src dst
theorem movqLoad (p : Prefixes) (dst : MmReg) (src : RM) : Statement (.movqLoad p dst src) := encodeRM_bounds _ p dst src
theorem movqStore (p : Prefixes) (src : MmReg) (dst : RM) : Statement (.movqStore p src dst) := encodeRM_bounds _ p src dst
theorem packssdw (p : Prefixes) (dst : MmReg) (src : RM) : Statement (.packssdw p dst src) := encodeRM_bounds _ p dst src
theorem packsswb (p : Prefixes) (dst : MmReg) (src : RM) : Statement (.packsswb p dst src) := encodeRM_bounds _ p dst src
theorem packuswb (p : Prefixes) (dst : MmReg) (src : RM) : Statement (.packuswb p dst src) := encodeRM_bounds _ p dst src
theorem paddb (p : Prefixes) (dst : MmReg) (src : RM) : Statement (.paddb p dst src) := encodeRM_bounds _ p dst src
theorem paddd (p : Prefixes) (dst : MmReg) (src : RM) : Statement (.paddd p dst src) := encodeRM_bounds _ p dst src
theorem paddsb (p : Prefixes) (dst : MmReg) (src : RM) : Statement (.paddsb p dst src) := encodeRM_bounds _ p dst src
theorem paddsw (p : Prefixes) (dst : MmReg) (src : RM) : Statement (.paddsw p dst src) := encodeRM_bounds _ p dst src
theorem paddusb (p : Prefixes) (dst : MmReg) (src : RM) : Statement (.paddusb p dst src) := encodeRM_bounds _ p dst src
theorem paddusw (p : Prefixes) (dst : MmReg) (src : RM) : Statement (.paddusw p dst src) := encodeRM_bounds _ p dst src
theorem paddw (p : Prefixes) (dst : MmReg) (src : RM) : Statement (.paddw p dst src) := encodeRM_bounds _ p dst src
theorem pand (p : Prefixes) (dst : MmReg) (src : RM) : Statement (.pand p dst src) := encodeRM_bounds _ p dst src
theorem pandn (p : Prefixes) (dst : MmReg) (src : RM) : Statement (.pandn p dst src) := encodeRM_bounds _ p dst src
theorem pcmpeqb (p : Prefixes) (dst : MmReg) (src : RM) : Statement (.pcmpeqb p dst src) := encodeRM_bounds _ p dst src
theorem pcmpeqd (p : Prefixes) (dst : MmReg) (src : RM) : Statement (.pcmpeqd p dst src) := encodeRM_bounds _ p dst src
theorem pcmpeqw (p : Prefixes) (dst : MmReg) (src : RM) : Statement (.pcmpeqw p dst src) := encodeRM_bounds _ p dst src
theorem pcmpgtb (p : Prefixes) (dst : MmReg) (src : RM) : Statement (.pcmpgtb p dst src) := encodeRM_bounds _ p dst src
theorem pcmpgtd (p : Prefixes) (dst : MmReg) (src : RM) : Statement (.pcmpgtd p dst src) := encodeRM_bounds _ p dst src
theorem pcmpgtw (p : Prefixes) (dst : MmReg) (src : RM) : Statement (.pcmpgtw p dst src) := encodeRM_bounds _ p dst src
theorem pmaddwd (p : Prefixes) (dst : MmReg) (src : RM) : Statement (.pmaddwd p dst src) := encodeRM_bounds _ p dst src
theorem pmulhw (p : Prefixes) (dst : MmReg) (src : RM) : Statement (.pmulhw p dst src) := encodeRM_bounds _ p dst src
theorem pmullw (p : Prefixes) (dst : MmReg) (src : RM) : Statement (.pmullw p dst src) := encodeRM_bounds _ p dst src
theorem por (p : Prefixes) (dst : MmReg) (src : RM) : Statement (.por p dst src) := encodeRM_bounds _ p dst src
theorem pslld (p : Prefixes) (dst : MmReg) (src : RM) : Statement (.pslld p dst src) := encodeRM_bounds _ p dst src
theorem pslldImm (p : Prefixes) (dst : MmReg) (imm : Byte) : Statement (.pslldImm p dst imm) := encodeImm_bounds _ _ p dst imm
theorem psllq (p : Prefixes) (dst : MmReg) (src : RM) : Statement (.psllq p dst src) := encodeRM_bounds _ p dst src
theorem psllqImm (p : Prefixes) (dst : MmReg) (imm : Byte) : Statement (.psllqImm p dst imm) := encodeImm_bounds _ _ p dst imm
theorem psllw (p : Prefixes) (dst : MmReg) (src : RM) : Statement (.psllw p dst src) := encodeRM_bounds _ p dst src
theorem psllwImm (p : Prefixes) (dst : MmReg) (imm : Byte) : Statement (.psllwImm p dst imm) := encodeImm_bounds _ _ p dst imm
theorem psrad (p : Prefixes) (dst : MmReg) (src : RM) : Statement (.psrad p dst src) := encodeRM_bounds _ p dst src
theorem psradImm (p : Prefixes) (dst : MmReg) (imm : Byte) : Statement (.psradImm p dst imm) := encodeImm_bounds _ _ p dst imm
theorem psraw (p : Prefixes) (dst : MmReg) (src : RM) : Statement (.psraw p dst src) := encodeRM_bounds _ p dst src
theorem psrawImm (p : Prefixes) (dst : MmReg) (imm : Byte) : Statement (.psrawImm p dst imm) := encodeImm_bounds _ _ p dst imm
theorem psrld (p : Prefixes) (dst : MmReg) (src : RM) : Statement (.psrld p dst src) := encodeRM_bounds _ p dst src
theorem psrldImm (p : Prefixes) (dst : MmReg) (imm : Byte) : Statement (.psrldImm p dst imm) := encodeImm_bounds _ _ p dst imm
theorem psrlq (p : Prefixes) (dst : MmReg) (src : RM) : Statement (.psrlq p dst src) := encodeRM_bounds _ p dst src
theorem psrlqImm (p : Prefixes) (dst : MmReg) (imm : Byte) : Statement (.psrlqImm p dst imm) := encodeImm_bounds _ _ p dst imm
theorem psrlw (p : Prefixes) (dst : MmReg) (src : RM) : Statement (.psrlw p dst src) := encodeRM_bounds _ p dst src
theorem psrlwImm (p : Prefixes) (dst : MmReg) (imm : Byte) : Statement (.psrlwImm p dst imm) := encodeImm_bounds _ _ p dst imm
theorem psubb (p : Prefixes) (dst : MmReg) (src : RM) : Statement (.psubb p dst src) := encodeRM_bounds _ p dst src
theorem psubd (p : Prefixes) (dst : MmReg) (src : RM) : Statement (.psubd p dst src) := encodeRM_bounds _ p dst src
theorem psubsb (p : Prefixes) (dst : MmReg) (src : RM) : Statement (.psubsb p dst src) := encodeRM_bounds _ p dst src
theorem psubsw (p : Prefixes) (dst : MmReg) (src : RM) : Statement (.psubsw p dst src) := encodeRM_bounds _ p dst src
theorem psubusb (p : Prefixes) (dst : MmReg) (src : RM) : Statement (.psubusb p dst src) := encodeRM_bounds _ p dst src
theorem psubusw (p : Prefixes) (dst : MmReg) (src : RM) : Statement (.psubusw p dst src) := encodeRM_bounds _ p dst src
theorem psubw (p : Prefixes) (dst : MmReg) (src : RM) : Statement (.psubw p dst src) := encodeRM_bounds _ p dst src
theorem punpckhbw (p : Prefixes) (dst : MmReg) (src : RM) : Statement (.punpckhbw p dst src) := encodeRM_bounds _ p dst src
theorem punpckhdq (p : Prefixes) (dst : MmReg) (src : RM) : Statement (.punpckhdq p dst src) := encodeRM_bounds _ p dst src
theorem punpckhwd (p : Prefixes) (dst : MmReg) (src : RM) : Statement (.punpckhwd p dst src) := encodeRM_bounds _ p dst src
theorem punpcklbw (p : Prefixes) (dst : MmReg) (src : RM) : Statement (.punpcklbw p dst src) := encodeRM_bounds _ p dst src
theorem punpckldq (p : Prefixes) (dst : MmReg) (src : RM) : Statement (.punpckldq p dst src) := encodeRM_bounds _ p dst src
theorem punpcklwd (p : Prefixes) (dst : MmReg) (src : RM) : Statement (.punpcklwd p dst src) := encodeRM_bounds _ p dst src
theorem pxor (p : Prefixes) (dst : MmReg) (src : RM) : Statement (.pxor p dst src) := encodeRM_bounds _ p dst src
theorem cpuid : Statement .cpuid := by simp [Statement, encode, maxLength]
theorem rdmsr : Statement .rdmsr := by simp [Statement, encode, maxLength]
theorem wrmsr : Statement .wrmsr := by simp [Statement, encode, maxLength]
theorem rdtsc : Statement .rdtsc := by simp [Statement, encode, maxLength]
theorem wbinvd : Statement .wbinvd := by simp [Statement, encode, maxLength]

end EncodedLength

end Sys2Proof.Laws
end

