-- ==== Sys2Proof/Laws/Exec.lean ====
section
/-! SUPPORT. What an instruction can do, said once: where `exec` answers a next state, the instruction did not complete or it
is one of the eight cases of `Completed`. Claims over all instructions go by cases on these. -/

namespace Sys2Proof.Machine

/-- The MMX forms that write an MMX register: all but EMMS, MOVD stores and MOVQ stores to memory. -/
def writesMm : Instr → Bool
  | .emms _ => false
  | .movdStore _ _ _ => false
  | .movqStore _ _ (.mem _) => false
  | i => i.mmxPrefixes.isSome

/-- How an instruction that completes changes the state. -/
inductive Completed : Instr → State → State → Prop
  /-- A form that writes MMX register `d`, and with it the tags; `u` is the state after its source was read. -/
  | register {i : Instr} {s u : State} {p : Prefixes} (d : MmReg) (r : Qword) (hp : i.mmxPrefixes = some p)
      (hr : MmxReady p s) (hw : writesMm i = true) (he : ReadEffect (accessOf i).1 s u)
      (hm : u = s ∨ ∃ m, i.operand = some (p, .mem m)) : Completed i s (mmxResult u d r (encode i).length)
  /-- A store of MOVD or MOVQ to memory. -/
  | toMemory {i : Instr} {s : State} {p : Prefixes} (src : MmReg) (m : MemOperand) (l : List Nat) (b : List Byte)
      (hi : i = .movdStore p src (.mem m) ∨ i = .movqStore p src (.mem m)) (hr : MmxReady p s)
      (hb : b = leBytes (accessOf i).1 (s.mmAt src))
      (hl : accessAddresses s (segmentOf p m) (effectiveAddress s m) (accessOf i).1 .write = .ok l)
      (hs : StorePermitted s l) :
      Completed i s (storeResult s (storeBytes s l b) (deviceEventsAfter s .write l b) l (encode i).length)
  /-- A store of MOVD to a general-purpose register. -/
  | toGpr {s : State} {p : Prefixes} (src : MmReg) (n : Fin 8) (hr : MmxReady p s) :
      Completed (.movdStore p src (.reg n)) s
        { s with
          gpr := s.gpr.set n (dwordAt (s.mmAt src) 0)
          pc := s.pc + BitVec.ofNat 32 (encode (.movdStore p src (.reg n))).length
          fpu := { s.fpu with ftw := 0x0000, top := 0 } }
  /-- EMMS. -/
  | emms {s : State} {p : Prefixes} (hr : MmxReady p s) :
      Completed (.emms p) s
        { s with
          pc := s.pc + BitVec.ofNat 32 (encode (.emms p)).length
          fpu := { s.fpu with ftw := 0xFFFF, top := 0 } }
  /-- CPUID. -/
  | cpuid {s : State} (a b c d : Dword) :
      Completed .cpuid s
        { s with gpr := (((s.gpr.set 0 a).set 3 b).set 1 c).set 2 d, pc := s.pc + 2, draws := s.draws + 1 }
  /-- RDMSR and RDTSC. -/
  | edxEax {i : Instr} {s : State} (v tsc : Qword) (draws : Nat) (hi : i = .rdmsr ∨ i = .rdtsc) :
      Completed i s (edxEaxResult { s with msr := { s.msr with tsc := tsc }, draws := draws } v)
  /-- WRMSR. -/
  | wrmsr {s : State} (m : Msrs) (d : WhcrDuty) (h0 : s.cpl = 0)
      (hw : writeMsr (s.gprAt 1) s.edxEax s = .ok { s with msr := m, whcrDuty := d }) :
      Completed .wrmsr s { s with msr := m, whcrDuty := d, pc := s.pc + 2 }
  /-- WBINVD. -/
  | wbinvd {s : State} : Completed .wbinvd s { s with whcrDuty := s.whcrDuty.met, pc := s.pc + 2 }

/-- The 32 bits MOVD stores, by bytes, are the low bytes of the register. -/
theorem leBytes_movd (v : Qword) : leBytes 4 (v.setWidth 32) = leBytes 4 v := by
  unfold leBytes
  apply List.map_congr_left
  intro k hk
  have hk := List.mem_range.mp hk
  apply BitVec.eq_of_getLsbD_eq
  intro j hj
  simp only [BitVec.getLsbD_extractLsb', hj, decide_true, Bool.true_and, BitVec.getLsbD_setWidth]
  simp only [show 8 * k + j < 32 by omega, decide_true, Bool.true_and]

/-- Bits 31 to 0 are doubleword 0. -/
theorem setWidth_eq_dwordAt (v : Qword) : v.setWidth 32 = dwordAt v 0 := by
  apply BitVec.eq_of_getLsbD_eq
  intro j hj
  simp [dwordAt, hj]

/-- The first case, with the length as the machine counts it. -/
theorem Completed.register_of_length {i : Instr} {s u : State} {p : Prefixes} {n : Nat} (d : MmReg) (r : Qword)
    (hn : (encode i).length = n) (hp : i.mmxPrefixes = some p) (hr : MmxReady p s) (hw : writesMm i = true)
    (he : ReadEffect (accessOf i).1 s u) (hm : u = s ∨ ∃ m, i.operand = some (p, .mem m)) : Completed i s (mmxResult u d r n) := by
  subst hn
  exact .register d r hp hr hw he hm

theorem exec_emms_cases (p : Prefixes) {s t : State} (h : exec (.emms p) s = .next t) :
    NotCompleted s t ∨ Completed (.emms p) s t := by
  rcases Check.finish_next_cases h with h | h
  · obtain ⟨_, h1, h⟩ := Check.bind_eq_ok.mp h
    cases h
    have hc := Completed.emms (mmxPrologue_eq_ok.mp h1)
    simp only [encode, List.length_append, Laws.prefix_bytes_length] at hc
    exact .inr hc
  · exact .inl h

theorem exec_movdLoad_cases (p : Prefixes) (d : MmReg) (src : RM) {s t : State} (h : exec (.movdLoad p d src) s = .next t) :
    NotCompleted s t ∨ Completed (.movdLoad p d src) s t := by
  rcases Check.finish_next_cases h with h | h
  · obtain ⟨_, h1, h⟩ := Check.bind_eq_ok.mp h
    obtain ⟨⟨v, u⟩, h2, h⟩ := Check.bind_eq_ok.mp h
    cases h
    have hm : u = s ∨ ∃ m, (Instr.movdLoad p d src).operand = some (p, .mem m) := by
      cases src with
      | reg n => cases h2; exact .inl rfl
      | mem m => exact .inr ⟨m, rfl⟩
    have hc := Completed.register (i := .movdLoad p d src) d (v.setWidth 64) rfl (mmxPrologue_eq_ok.mp h1) rfl
      (readSrc32_effect h2) hm
    rw [encode, Laws.encodeRM_length] at hc
    exact .inr hc
  · exact .inl h

theorem exec_movdStore_cases (p : Prefixes) (src : MmReg) (dst : RM) {s t : State} (h : exec (.movdStore p src dst) s = .next t) :
    NotCompleted s t ∨ Completed (.movdStore p src dst) s t := by
  rcases Check.finish_next_cases h with h | h
  · obtain ⟨_, h1, h⟩ := Check.bind_eq_ok.mp h
    obtain ⟨v, h2, h⟩ := Check.bind_eq_ok.mp h
    cases h
    cases dst with
    | reg n =>
      cases h2
      have hc := Completed.toGpr src n (mmxPrologue_eq_ok.mp h1)
      rw [encode, Laws.encodeRM_length, ← setWidth_eq_dwordAt] at hc
      exact .inr hc
    | mem m =>
      obtain ⟨l, hl, hs, rfl⟩ := memWrite_eq_ok.mp h2
      rw [leBytes_length] at hl
      have hc := Completed.toMemory (i := .movdStore p src (.mem m)) src m l (leBytes 4 (s.mmAt src)) (.inl rfl)
        (mmxPrologue_eq_ok.mp h1) rfl hl hs
      rw [encode, Laws.encodeRM_length, ← leBytes_movd] at hc
      exact .inr hc
  · exact .inl h

theorem exec_movqStore_cases (p : Prefixes) (src : MmReg) (dst : RM) {s t : State} (h : exec (.movqStore p src dst) s = .next t) :
    NotCompleted s t ∨ Completed (.movqStore p src dst) s t := by
  rcases Check.finish_next_cases h with h | h
  · obtain ⟨_, h1, h⟩ := Check.bind_eq_ok.mp h
    obtain ⟨v, h2, h⟩ := Check.bind_eq_ok.mp h
    cases h
    cases dst with
    | reg n =>
      cases h2
      have hc := Completed.register (i := .movqStore p src (.reg n)) n (s.mmAt src) rfl (mmxPrologue_eq_ok.mp h1)
        rfl (.inl rfl) (.inl rfl)
      rw [encode, Laws.encodeRM_length] at hc
      exact .inr hc
    | mem m =>
      obtain ⟨l, hl, hs, rfl⟩ := memWrite_eq_ok.mp h2
      rw [leBytes_length] at hl
      have hc := Completed.toMemory (i := .movqStore p src (.mem m)) src m l (leBytes 8 (s.mmAt src)) (.inr rfl)
        (mmxPrologue_eq_ok.mp h1) rfl hl hs
      rw [encode, Laws.encodeRM_length] at hc
      exact .inr hc
  · exact .inl h

theorem exec_cpuid_cases {s t : State} (h : exec .cpuid s = .next t) :
    NotCompleted s t ∨ Completed .cpuid s t := by
  cases h
  exact .inr (.cpuid _ _ _ _)

theorem exec_rdmsr_cases {s t : State} (h : exec .rdmsr s = .next t) :
    NotCompleted s t ∨ Completed .rdmsr s t := by
  rcases Check.finish_next_cases h with h | h
  · obtain ⟨_, h1, h⟩ := Check.bind_eq_ok.mp h
    obtain ⟨⟨v, u⟩, h2, h⟩ := Check.bind_eq_ok.mp h
    cases h
    obtain ⟨tsc, draws, rfl⟩ := readMsr_frame h2
    exact .inr (.edxEax v tsc draws (.inl rfl))
  · exact .inl h

theorem exec_wrmsr_cases {s t : State} (h : exec .wrmsr s = .next t) :
    NotCompleted s t ∨ Completed .wrmsr s t := by
  rcases Check.finish_next_cases h with h | h
  · obtain ⟨_, h1, h⟩ := Check.bind_eq_ok.mp h
    obtain ⟨u, h2, h⟩ := Check.bind_eq_ok.mp h
    cases h
    obtain ⟨m, d, rfl⟩ := writeMsr_frame h2
    exact .inr (.wrmsr m d (requireCpl0_eq_ok.mp h1).1 h2)
  · exact .inl h

theorem exec_rdtsc_cases {s t : State} (h : exec .rdtsc s = .next t) :
    NotCompleted s t ∨ Completed .rdtsc s t := by
  rcases Check.finish_next_cases h with h | h
  · split at h
    · cases h
    · cases h
      exact .inr (.edxEax _ _ _ (.inr rfl))
  · exact .inl h

theorem exec_wbinvd_cases {s t : State} (h : exec .wbinvd s = .next t) :
    NotCompleted s t ∨ Completed .wbinvd s t := by
  rcases Check.finish_next_cases h with h | h
  · obtain ⟨_, h1, h⟩ := Check.bind_eq_ok.mp h
    cases h
    exact .inr .wbinvd
  · exact .inl h

/-- A form of the shape `mmreg1, mmreg2/mem64`. -/
theorem regMem_next_cases {i : Instr} {f : Qword → Qword → Qword} {p : Prefixes} {d : MmReg} {src : RM} {s t : State}
    (hp : i.mmxPrefixes = some p) (hw : writesMm i = true) (hn : (encode i).length = rmLength p src)
    (ho : i.operand = some (p, src)) (ha : accessOf i = (8, .read)) (h : mmxRegMem f p d src s = .next t) : NotCompleted s t ∨ Completed i s t := by
  rcases mmxRegMem_cases h with ⟨v, u, hr, hv, rfl⟩ | h
  · refine .inr (.register_of_length d _ hn hp hr hw (by rw [ha]; exact readSrc64_effect hv) ?_)
    cases src with
    | reg n => cases hv; exact .inl rfl
    | mem m => exact .inr ⟨m, ho⟩
  · exact .inl h

/-- An immediate shift. -/
theorem regImm_next_cases {i : Instr} {f : Qword → Nat → Qword} {p : Prefixes} {d : MmReg} {imm : Byte} {s t : State}
    (hp : i.mmxPrefixes = some p) (hw : writesMm i = true) (hn : (encode i).length = immLength p)
    (h : mmxRegImm f p d imm s = .next t) : NotCompleted s t ∨ Completed i s t := by
  rcases mmxRegImm_cases h with ⟨hr, rfl⟩ | h
  · exact .inr (.register_of_length d _ hn hp hr hw (.inl rfl) (.inl rfl))
  · exact .inl h

/-- What every instruction can do when it answers a next state. -/
theorem exec_next_cases {i : Instr} {s t : State} (h : exec i s = .next t) : NotCompleted s t ∨ Completed i s t := by
  cases i
  case emms p => exact exec_emms_cases p h
  case movdLoad p d src => exact exec_movdLoad_cases p d src h
  case movdStore p src dst => exact exec_movdStore_cases p src dst h
  case movqStore p src dst => exact exec_movqStore_cases p src dst h
  case cpuid => exact exec_cpuid_cases h
  case rdmsr => exact exec_rdmsr_cases h
  case wrmsr => exact exec_wrmsr_cases h
  case rdtsc => exact exec_rdtsc_cases h
  case wbinvd => exact exec_wbinvd_cases h
  case pslldImm p d imm | psllqImm p d imm | psllwImm p d imm | psradImm p d imm | psrawImm p d imm | psrldImm p d imm |
      psrlqImm p d imm | psrlwImm p d imm =>
    simp only [exec,
      execPsllwImm, execPslldImm, execPsllqImm, execPsrlwImm, execPsrldImm, execPsrlqImm, execPsrawImm,
      execPsradImm] at h
    exact regImm_next_cases (p := p) (d := d) (imm := imm) rfl rfl (Laws.encodeImm_length _ _ _ _ _) h
  all_goals
    rename_i p d src
    simp only [exec,
      execMovqLoad, execPacksswb, execPackssdw, execPackuswb, execPunpckhbw, execPunpckhwd, execPunpckhdq,
      execPunpcklbw, execPunpcklwd, execPunpckldq, execPaddb, execPaddw, execPaddd, execPaddsb, execPaddsw,
      execPaddusb, execPaddusw, execPsubb, execPsubw, execPsubd, execPsubsb, execPsubsw, execPsubusb,
      execPsubusw, execPmaddwd, execPmulhw, execPmullw, execPand, execPandn, execPor, execPxor, execPcmpeqb,
      execPcmpeqw, execPcmpeqd, execPcmpgtb, execPcmpgtw, execPcmpgtd, execPsllw, execPslld, execPsllq,
      execPsrlw, execPsrld, execPsrlq, execPsraw, execPsrad] at h
    exact regMem_next_cases (p := p) (d := d) (src := src) rfl rfl (Laws.encodeRM_length _ _ _ _) rfl rfl h

/-- No instruction ends in a fault. -/
theorem exec_ne_fault (i : Instr) (s : State) (f : Fault) : exec i s ≠ .fault f := by
  cases i
  case cpuid => simp [exec, execCpuid]
  all_goals exact Check.finish_ne_fault

/-- Every MMX instruction begins with the prologue, and does nothing before it passes. -/
theorem exec_begins_with_prologue {i : Instr} {p : Prefixes} (h : i.mmxPrefixes = some p) (s : State) :
    ∃ k : Unit → Check State, exec i s = ((mmxPrologue p s).bind k).finish s := by
  cases i <;> simp only [Instr.mmxPrefixes, Option.some.injEq, reduceCtorEq] at h <;> subst h <;> exact ⟨_, rfl⟩

end Sys2Proof.Machine
end

