-- ==== Sys2Proof/Laws/Packed.lean ====
section
/-! SUPPORT. The elements of values built from their elements, and the element operations as arithmetic on integers
(00_scope.md R9 to R12, 46_shift.md R230). -/

namespace Sys2Proof.Machine

/-! ### Elements -/

/-- The bits of a value built from bytes. -/
theorem getLsbD_ofBytes (f : Nat → BitVec 8) {i j : Nat} (hi : i < 8) (hj : j < 8) :
    (ofBytes f).getLsbD (8 * i + j) = (f i).getLsbD j := by
  change BitVec.getLsbD (w := 8 + 8 + 8 + 8 + 8 + 8 + 8 + 8)
    (f 7 ++ f 6 ++ f 5 ++ f 4 ++ f 3 ++ f 2 ++ f 1 ++ f 0) (8 * i + j) = _
  simp only [BitVec.getLsbD_append]
  interval_cases i <;> (repeat rw [if_neg (by omega)]) <;> first
    | (rw [if_pos (by omega)]; congr 1; omega)
    | (congr 1; omega)

/-- The bits of a value built from words. -/
theorem getLsbD_ofWords (f : Nat → BitVec 16) {i j : Nat} (hi : i < 4) (hj : j < 16) :
    (ofWords f).getLsbD (16 * i + j) = (f i).getLsbD j := by
  change BitVec.getLsbD (w := 16 + 16 + 16 + 16) (f 3 ++ f 2 ++ f 1 ++ f 0) (16 * i + j) = _
  simp only [BitVec.getLsbD_append]
  interval_cases i <;> (repeat rw [if_neg (by omega)]) <;> first
    | (rw [if_pos (by omega)]; congr 1; omega)
    | (congr 1; omega)

/-- The bits of a value built from doublewords. -/
theorem getLsbD_ofDwords (f : Nat → BitVec 32) {i j : Nat} (hi : i < 2) (hj : j < 32) :
    (ofDwords f).getLsbD (32 * i + j) = (f i).getLsbD j := by
  change BitVec.getLsbD (w := 32 + 32) (f 1 ++ f 0) (32 * i + j) = _
  simp only [BitVec.getLsbD_append]
  interval_cases i <;> (repeat rw [if_neg (by omega)]) <;> first
    | (rw [if_pos (by omega)]; congr 1; omega)
    | (congr 1; omega)

/-- A value built from bytes has those bytes. -/
theorem byteAt_ofBytes (f : Nat → BitVec 8) {i : Nat} (h : i < 8) : byteAt (ofBytes f) i = f i := by
  apply BitVec.eq_of_getLsbD_eq
  intro j hj
  simp only [byteAt, BitVec.getLsbD_extractLsb', hj, decide_true, Bool.true_and]
  exact getLsbD_ofBytes f h hj

/-- A value built from words has those words. -/
theorem wordAt_ofWords (f : Nat → BitVec 16) {i : Nat} (h : i < 4) : wordAt (ofWords f) i = f i := by
  apply BitVec.eq_of_getLsbD_eq
  intro j hj
  simp only [wordAt, BitVec.getLsbD_extractLsb', hj, decide_true, Bool.true_and]
  exact getLsbD_ofWords f h hj

/-- A value built from doublewords has those doublewords. -/
theorem dwordAt_ofDwords (f : Nat → BitVec 32) {i : Nat} (h : i < 2) : dwordAt (ofDwords f) i = f i := by
  apply BitVec.eq_of_getLsbD_eq
  intro j hj
  simp only [dwordAt, BitVec.getLsbD_extractLsb', hj, decide_true, Bool.true_and]
  exact getLsbD_ofDwords f h hj

theorem byteAt_zipBytes (f : BitVec 8 → BitVec 8 → BitVec 8) (d v : Qword) {i : Nat} (h : i < 8) :
    byteAt (zipBytes f d v) i = f (byteAt d i) (byteAt v i) := byteAt_ofBytes _ h

theorem wordAt_zipWords (f : BitVec 16 → BitVec 16 → BitVec 16) (d v : Qword) {i : Nat} (h : i < 4) :
    wordAt (zipWords f d v) i = f (wordAt d i) (wordAt v i) := wordAt_ofWords _ h

theorem dwordAt_zipDwords (f : BitVec 32 → BitVec 32 → BitVec 32) (d v : Qword) {i : Nat} (h : i < 2) :
    dwordAt (zipDwords f d v) i = f (dwordAt d i) (dwordAt v i) := dwordAt_ofDwords _ h

theorem wordAt_shiftWords (f : BitVec 16 → Nat → BitVec 16) (d : Qword) (c : Nat) {i : Nat} (h : i < 4) :
    wordAt (shiftWords f d c) i = f (wordAt d i) c := wordAt_ofWords _ h

theorem dwordAt_shiftDwords (f : BitVec 32 → Nat → BitVec 32) (d : Qword) (c : Nat) {i : Nat} (h : i < 2) :
    dwordAt (shiftDwords f d c) i = f (dwordAt d i) c := dwordAt_ofDwords _ h

/-- Word `i` of two interleaved operands is byte `low + i` of the source over that of the destination. -/
theorem wordAt_interleaveBytes (low : Nat) (d v : Qword) {i : Nat} (h : i < 4) :
    wordAt (interleaveBytes low d v) i = byteAt v (low + i) ++ byteAt d (low + i) := wordAt_ofWords _ h

/-- Doubleword `i` of two interleaved operands is word `low + i` of the source over that of the destination. -/
theorem dwordAt_interleaveWords (low : Nat) (d v : Qword) {i : Nat} (h : i < 2) :
    dwordAt (interleaveWords low d v) i = wordAt v (low + i) ++ wordAt d (low + i) := dwordAt_ofDwords _ h

/-- Bytes 0 to 3 of a pack come from the destination's words, bytes 4 to 7 from the source's. -/
theorem byteAt_packWords (f : BitVec 16 → BitVec 8) (d v : Qword) {i : Nat} (h : i < 8) :
    byteAt (packWords f d v) i = if i < 4 then f (wordAt d i) else f (wordAt v (i - 4)) := byteAt_ofBytes _ h

/-! ### Saturation -/

/-- Signed saturation clamps an integer. -/
theorem toInt_satS {w : Nat} (hw : 0 < w) (n : Int) :
    (satS w n).toInt = max (-(2 : Int) ^ (w - 1)) (min ((2 : Int) ^ (w - 1) - 1) n) := by
  obtain ⟨k, rfl⟩ : ∃ k, w = k + 1 := ⟨w - 1, by omega⟩
  have hp : (0 : Int) < 2 ^ k := by positivity
  have h2 : ((2 ^ (k + 1) : Nat) : Int) = 2 * 2 ^ k := by push_cast; ring
  have key : ∀ x : Int, -2 ^ k ≤ x → x < 2 ^ k → (BitVec.ofInt (k + 1) x).toInt = x := by
    intro x h1 h3
    rw [BitVec.toInt_ofInt]
    exact Int.bmod_eq_of_le (by rw [h2]; omega) (by rw [h2]; omega)
  simp only [satS, Nat.add_sub_cancel]
  split
  · rw [key _ (by omega) (by omega)]; omega
  · split
    · rw [key _ (by omega) (by omega)]; omega
    · rw [key _ (by omega) (by omega)]; omega

/-- Unsigned saturation clamps an integer. -/
theorem toNat_satU (w : Nat) (n : Int) : ((satU w n).toNat : Int) = max 0 (min ((2 : Int) ^ w - 1) n) := by
  have hp : (0 : Int) < 2 ^ w := by positivity
  have h2 : ((2 ^ w : Nat) : Int) = 2 ^ w := by push_cast; rfl
  have key : ∀ x : Int, 0 ≤ x → x < 2 ^ w → ((BitVec.ofInt w x).toNat : Int) = x := by
    intro x h1 h3
    rw [BitVec.toNat_ofInt, h2, Int.toNat_of_nonneg (Int.emod_nonneg _ (by omega)), Int.emod_eq_of_lt h1 h3]
  simp only [satU]
  split
  · simp; omega
  · split
    · rw [key _ (by omega) (by omega)]; omega
    · rw [key _ (by omega) (by omega)]; omega

/-! ### Shifts -/

/-- A left shift multiplies, modulo the width. -/
theorem toNat_shlElem {w : Nat} (x : BitVec w) (c : Nat) : (shlElem x c).toNat = x.toNat * 2 ^ c % 2 ^ w := by
  unfold shlElem
  split
  · rename_i h
    obtain ⟨k, rfl⟩ := Nat.exists_eq_add_of_le h
    rw [Nat.pow_add, ← Nat.mul_assoc, Nat.mul_right_comm, Nat.mul_mod_left]
    simp
  · rw [BitVec.toNat_shiftLeft, Nat.shiftLeft_eq]

/-- A logical right shift divides. -/
theorem toNat_shrElem {w : Nat} (x : BitVec w) (c : Nat) : (shrElem x c).toNat = x.toNat / 2 ^ c := by
  unfold shrElem
  split
  · rename_i h
    rw [Nat.div_eq_of_lt (lt_of_lt_of_le x.isLt (Nat.pow_le_pow_right (by omega) h))]
    simp
  · rw [BitVec.toNat_ushiftRight, Nat.shiftRight_eq_div_pow]

/-- An arithmetic right shift divides the signed value, rounding down. -/
theorem toInt_sarElem {w : Nat} (x : BitVec w) (c : Nat) : (sarElem x c).toInt = x.toInt / 2 ^ c := by
  unfold sarElem
  split
  · rename_i h
    have hc : (2 : Int) ^ w ≤ 2 ^ c := pow_le_pow_right₀ (by omega) h
    have h1 := BitVec.two_mul_toInt_lt (x := x)
    have h2 := BitVec.le_two_mul_toInt (x := x)
    have hp : (0 : Int) < 2 ^ c := by positivity
    rw [BitVec.msb_eq_toInt]
    by_cases hm : x.toInt < 0
    · have hw : 0 < w := by
        rcases Nat.eq_zero_or_pos w with rfl | hw
        · simp only [pow_zero] at h1 h2; omega
        · exact hw
      have he : x.toInt / 2 ^ c = -1 := by
        rw [Int.ediv_eq_iff_of_pos hp]
        omega
      simp [hm, he, BitVec.toInt_allOnes, hw]
    · simp only [hm, decide_false, Bool.false_eq_true, if_false]
      rw [Int.ediv_eq_zero_of_lt (by omega) (by omega)]
      simp
  · rw [BitVec.toInt_sshiftRight, Int.shiftRight_eq_div_pow]
    norm_cast

end Sys2Proof.Machine
end

