-- ==== Sys2Proof/Laws/State.lean ====
section
/-! SUPPORT. One lemma for each field of State and each named update, and the register reads after a write, so that no
proof unfolds a record update. -/

namespace Sys2Proof.Machine

/-! ### `State.setGpr` -/

@[simp] theorem State.setGpr_gpr (s : State) (i : Gpr) (v : Dword) : (s.setGpr i v).gpr = s.gpr.set i v := rfl
@[simp] theorem State.setGpr_pc (s : State) (i : Gpr) (v : Dword) : (s.setGpr i v).pc = s.pc := rfl
@[simp] theorem State.setGpr_eflags (s : State) (i : Gpr) (v : Dword) : (s.setGpr i v).eflags = s.eflags := rfl
@[simp] theorem State.setGpr_cr0 (s : State) (i : Gpr) (v : Dword) : (s.setGpr i v).cr0 = s.cr0 := rfl
@[simp] theorem State.setGpr_cr2 (s : State) (i : Gpr) (v : Dword) : (s.setGpr i v).cr2 = s.cr2 := rfl
@[simp] theorem State.setGpr_cr4 (s : State) (i : Gpr) (v : Dword) : (s.setGpr i v).cr4 = s.cr4 := rfl
@[simp] theorem State.setGpr_idtBase (s : State) (i : Gpr) (v : Dword) : (s.setGpr i v).idtBase = s.idtBase := rfl
@[simp] theorem State.setGpr_smmBase (s : State) (i : Gpr) (v : Dword) : (s.setGpr i v).smmBase = s.smmBase := rfl
@[simp] theorem State.setGpr_segs (s : State) (i : Gpr) (v : Dword) : (s.setGpr i v).segs = s.segs := rfl
@[simp] theorem State.setGpr_addr32Default (s : State) (i : Gpr) (v : Dword) : (s.setGpr i v).addr32Default = s.addr32Default := rfl
@[simp] theorem State.setGpr_pages (s : State) (i : Gpr) (v : Dword) : (s.setGpr i v).pages = s.pages := rfl
@[simp] theorem State.setGpr_mode (s : State) (i : Gpr) (v : Dword) : (s.setGpr i v).mode = s.mode := rfl
@[simp] theorem State.setGpr_cpl (s : State) (i : Gpr) (v : Dword) : (s.setGpr i v).cpl = s.cpl := rfl
@[simp] theorem State.setGpr_fpu (s : State) (i : Gpr) (v : Dword) : (s.setGpr i v).fpu = s.fpu := rfl
@[simp] theorem State.setGpr_msr (s : State) (i : Gpr) (v : Dword) : (s.setGpr i v).msr = s.msr := rfl
@[simp] theorem State.setGpr_ferr (s : State) (i : Gpr) (v : Dword) : (s.setGpr i v).ferr = s.ferr := rfl
@[simp] theorem State.setGpr_exception (s : State) (i : Gpr) (v : Dword) : (s.setGpr i v).exception = s.exception := rfl
@[simp] theorem State.setGpr_nmiLatch (s : State) (i : Gpr) (v : Dword) : (s.setGpr i v).nmiLatch = s.nmiLatch := rfl
@[simp] theorem State.setGpr_smiLatch (s : State) (i : Gpr) (v : Dword) : (s.setGpr i v).smiLatch = s.smiLatch := rfl
@[simp] theorem State.setGpr_flushLatch (s : State) (i : Gpr) (v : Dword) : (s.setGpr i v).flushLatch = s.flushLatch := rfl
@[simp] theorem State.setGpr_mem (s : State) (i : Gpr) (v : Dword) : (s.setGpr i v).mem = s.mem := rfl
@[simp] theorem State.setGpr_platform (s : State) (i : Gpr) (v : Dword) : (s.setGpr i v).platform = s.platform := rfl
@[simp] theorem State.setGpr_fetched (s : State) (i : Gpr) (v : Dword) : (s.setGpr i v).fetched = s.fetched := rfl
@[simp] theorem State.setGpr_stored (s : State) (i : Gpr) (v : Dword) : (s.setGpr i v).stored = s.stored := rfl
@[simp] theorem State.setGpr_deviceEvents (s : State) (i : Gpr) (v : Dword) : (s.setGpr i v).deviceEvents = s.deviceEvents := rfl
@[simp] theorem State.setGpr_whcrDuty (s : State) (i : Gpr) (v : Dword) : (s.setGpr i v).whcrDuty = s.whcrDuty := rfl
@[simp] theorem State.setGpr_draws (s : State) (i : Gpr) (v : Dword) : (s.setGpr i v).draws = s.draws := rfl
@[simp] theorem State.setGpr_env (s : State) (i : Gpr) (v : Dword) : (s.setGpr i v).env = s.env := rfl

/-! ### `State.setMm` -/

@[simp] theorem State.setMm_gpr (s : State) (i : MmReg) (v : Qword) : (s.setMm i v).gpr = s.gpr := rfl
@[simp] theorem State.setMm_pc (s : State) (i : MmReg) (v : Qword) : (s.setMm i v).pc = s.pc := rfl
@[simp] theorem State.setMm_eflags (s : State) (i : MmReg) (v : Qword) : (s.setMm i v).eflags = s.eflags := rfl
@[simp] theorem State.setMm_cr0 (s : State) (i : MmReg) (v : Qword) : (s.setMm i v).cr0 = s.cr0 := rfl
@[simp] theorem State.setMm_cr2 (s : State) (i : MmReg) (v : Qword) : (s.setMm i v).cr2 = s.cr2 := rfl
@[simp] theorem State.setMm_cr4 (s : State) (i : MmReg) (v : Qword) : (s.setMm i v).cr4 = s.cr4 := rfl
@[simp] theorem State.setMm_idtBase (s : State) (i : MmReg) (v : Qword) : (s.setMm i v).idtBase = s.idtBase := rfl
@[simp] theorem State.setMm_smmBase (s : State) (i : MmReg) (v : Qword) : (s.setMm i v).smmBase = s.smmBase := rfl
@[simp] theorem State.setMm_segs (s : State) (i : MmReg) (v : Qword) : (s.setMm i v).segs = s.segs := rfl
@[simp] theorem State.setMm_addr32Default (s : State) (i : MmReg) (v : Qword) : (s.setMm i v).addr32Default = s.addr32Default := rfl
@[simp] theorem State.setMm_pages (s : State) (i : MmReg) (v : Qword) : (s.setMm i v).pages = s.pages := rfl
@[simp] theorem State.setMm_mode (s : State) (i : MmReg) (v : Qword) : (s.setMm i v).mode = s.mode := rfl
@[simp] theorem State.setMm_cpl (s : State) (i : MmReg) (v : Qword) : (s.setMm i v).cpl = s.cpl := rfl
@[simp] theorem State.setMm_fpu (s : State) (i : MmReg) (v : Qword) : (s.setMm i v).fpu = { s.fpu with mm := s.fpu.mm.set i v, high := s.fpu.high.set i 0xFFFF } := rfl
@[simp] theorem State.setMm_msr (s : State) (i : MmReg) (v : Qword) : (s.setMm i v).msr = s.msr := rfl
@[simp] theorem State.setMm_ferr (s : State) (i : MmReg) (v : Qword) : (s.setMm i v).ferr = s.ferr := rfl
@[simp] theorem State.setMm_exception (s : State) (i : MmReg) (v : Qword) : (s.setMm i v).exception = s.exception := rfl
@[simp] theorem State.setMm_nmiLatch (s : State) (i : MmReg) (v : Qword) : (s.setMm i v).nmiLatch = s.nmiLatch := rfl
@[simp] theorem State.setMm_smiLatch (s : State) (i : MmReg) (v : Qword) : (s.setMm i v).smiLatch = s.smiLatch := rfl
@[simp] theorem State.setMm_flushLatch (s : State) (i : MmReg) (v : Qword) : (s.setMm i v).flushLatch = s.flushLatch := rfl
@[simp] theorem State.setMm_mem (s : State) (i : MmReg) (v : Qword) : (s.setMm i v).mem = s.mem := rfl
@[simp] theorem State.setMm_platform (s : State) (i : MmReg) (v : Qword) : (s.setMm i v).platform = s.platform := rfl
@[simp] theorem State.setMm_fetched (s : State) (i : MmReg) (v : Qword) : (s.setMm i v).fetched = s.fetched := rfl
@[simp] theorem State.setMm_stored (s : State) (i : MmReg) (v : Qword) : (s.setMm i v).stored = s.stored := rfl
@[simp] theorem State.setMm_deviceEvents (s : State) (i : MmReg) (v : Qword) : (s.setMm i v).deviceEvents = s.deviceEvents := rfl
@[simp] theorem State.setMm_whcrDuty (s : State) (i : MmReg) (v : Qword) : (s.setMm i v).whcrDuty = s.whcrDuty := rfl
@[simp] theorem State.setMm_draws (s : State) (i : MmReg) (v : Qword) : (s.setMm i v).draws = s.draws := rfl
@[simp] theorem State.setMm_env (s : State) (i : MmReg) (v : Qword) : (s.setMm i v).env = s.env := rfl

/-! ### `State.setTags` -/

@[simp] theorem State.setTags_gpr (s : State) (v : BitVec 16) : (s.setTags v).gpr = s.gpr := rfl
@[simp] theorem State.setTags_pc (s : State) (v : BitVec 16) : (s.setTags v).pc = s.pc := rfl
@[simp] theorem State.setTags_eflags (s : State) (v : BitVec 16) : (s.setTags v).eflags = s.eflags := rfl
@[simp] theorem State.setTags_cr0 (s : State) (v : BitVec 16) : (s.setTags v).cr0 = s.cr0 := rfl
@[simp] theorem State.setTags_cr2 (s : State) (v : BitVec 16) : (s.setTags v).cr2 = s.cr2 := rfl
@[simp] theorem State.setTags_cr4 (s : State) (v : BitVec 16) : (s.setTags v).cr4 = s.cr4 := rfl
@[simp] theorem State.setTags_idtBase (s : State) (v : BitVec 16) : (s.setTags v).idtBase = s.idtBase := rfl
@[simp] theorem State.setTags_smmBase (s : State) (v : BitVec 16) : (s.setTags v).smmBase = s.smmBase := rfl
@[simp] theorem State.setTags_segs (s : State) (v : BitVec 16) : (s.setTags v).segs = s.segs := rfl
@[simp] theorem State.setTags_addr32Default (s : State) (v : BitVec 16) : (s.setTags v).addr32Default = s.addr32Default := rfl
@[simp] theorem State.setTags_pages (s : State) (v : BitVec 16) : (s.setTags v).pages = s.pages := rfl
@[simp] theorem State.setTags_mode (s : State) (v : BitVec 16) : (s.setTags v).mode = s.mode := rfl
@[simp] theorem State.setTags_cpl (s : State) (v : BitVec 16) : (s.setTags v).cpl = s.cpl := rfl
@[simp] theorem State.setTags_fpu (s : State) (v : BitVec 16) : (s.setTags v).fpu = { s.fpu with ftw := v, top := 0 } := rfl
@[simp] theorem State.setTags_msr (s : State) (v : BitVec 16) : (s.setTags v).msr = s.msr := rfl
@[simp] theorem State.setTags_ferr (s : State) (v : BitVec 16) : (s.setTags v).ferr = s.ferr := rfl
@[simp] theorem State.setTags_exception (s : State) (v : BitVec 16) : (s.setTags v).exception = s.exception := rfl
@[simp] theorem State.setTags_nmiLatch (s : State) (v : BitVec 16) : (s.setTags v).nmiLatch = s.nmiLatch := rfl
@[simp] theorem State.setTags_smiLatch (s : State) (v : BitVec 16) : (s.setTags v).smiLatch = s.smiLatch := rfl
@[simp] theorem State.setTags_flushLatch (s : State) (v : BitVec 16) : (s.setTags v).flushLatch = s.flushLatch := rfl
@[simp] theorem State.setTags_mem (s : State) (v : BitVec 16) : (s.setTags v).mem = s.mem := rfl
@[simp] theorem State.setTags_platform (s : State) (v : BitVec 16) : (s.setTags v).platform = s.platform := rfl
@[simp] theorem State.setTags_fetched (s : State) (v : BitVec 16) : (s.setTags v).fetched = s.fetched := rfl
@[simp] theorem State.setTags_stored (s : State) (v : BitVec 16) : (s.setTags v).stored = s.stored := rfl
@[simp] theorem State.setTags_deviceEvents (s : State) (v : BitVec 16) : (s.setTags v).deviceEvents = s.deviceEvents := rfl
@[simp] theorem State.setTags_whcrDuty (s : State) (v : BitVec 16) : (s.setTags v).whcrDuty = s.whcrDuty := rfl
@[simp] theorem State.setTags_draws (s : State) (v : BitVec 16) : (s.setTags v).draws = s.draws := rfl
@[simp] theorem State.setTags_env (s : State) (v : BitVec 16) : (s.setTags v).env = s.env := rfl

/-! ### `State.advance` -/

@[simp] theorem State.advance_gpr (s : State) (n : Nat) : (s.advance n).gpr = s.gpr := rfl
@[simp] theorem State.advance_pc (s : State) (n : Nat) : (s.advance n).pc = s.pc + BitVec.ofNat 32 n := rfl
@[simp] theorem State.advance_eflags (s : State) (n : Nat) : (s.advance n).eflags = s.eflags := rfl
@[simp] theorem State.advance_cr0 (s : State) (n : Nat) : (s.advance n).cr0 = s.cr0 := rfl
@[simp] theorem State.advance_cr2 (s : State) (n : Nat) : (s.advance n).cr2 = s.cr2 := rfl
@[simp] theorem State.advance_cr4 (s : State) (n : Nat) : (s.advance n).cr4 = s.cr4 := rfl
@[simp] theorem State.advance_idtBase (s : State) (n : Nat) : (s.advance n).idtBase = s.idtBase := rfl
@[simp] theorem State.advance_smmBase (s : State) (n : Nat) : (s.advance n).smmBase = s.smmBase := rfl
@[simp] theorem State.advance_segs (s : State) (n : Nat) : (s.advance n).segs = s.segs := rfl
@[simp] theorem State.advance_addr32Default (s : State) (n : Nat) : (s.advance n).addr32Default = s.addr32Default := rfl
@[simp] theorem State.advance_pages (s : State) (n : Nat) : (s.advance n).pages = s.pages := rfl
@[simp] theorem State.advance_mode (s : State) (n : Nat) : (s.advance n).mode = s.mode := rfl
@[simp] theorem State.advance_cpl (s : State) (n : Nat) : (s.advance n).cpl = s.cpl := rfl
@[simp] theorem State.advance_fpu (s : State) (n : Nat) : (s.advance n).fpu = s.fpu := rfl
@[simp] theorem State.advance_msr (s : State) (n : Nat) : (s.advance n).msr = s.msr := rfl
@[simp] theorem State.advance_ferr (s : State) (n : Nat) : (s.advance n).ferr = s.ferr := rfl
@[simp] theorem State.advance_exception (s : State) (n : Nat) : (s.advance n).exception = s.exception := rfl
@[simp] theorem State.advance_nmiLatch (s : State) (n : Nat) : (s.advance n).nmiLatch = s.nmiLatch := rfl
@[simp] theorem State.advance_smiLatch (s : State) (n : Nat) : (s.advance n).smiLatch = s.smiLatch := rfl
@[simp] theorem State.advance_flushLatch (s : State) (n : Nat) : (s.advance n).flushLatch = s.flushLatch := rfl
@[simp] theorem State.advance_mem (s : State) (n : Nat) : (s.advance n).mem = s.mem := rfl
@[simp] theorem State.advance_platform (s : State) (n : Nat) : (s.advance n).platform = s.platform := rfl
@[simp] theorem State.advance_fetched (s : State) (n : Nat) : (s.advance n).fetched = s.fetched := rfl
@[simp] theorem State.advance_stored (s : State) (n : Nat) : (s.advance n).stored = s.stored := rfl
@[simp] theorem State.advance_deviceEvents (s : State) (n : Nat) : (s.advance n).deviceEvents = s.deviceEvents := rfl
@[simp] theorem State.advance_whcrDuty (s : State) (n : Nat) : (s.advance n).whcrDuty = s.whcrDuty := rfl
@[simp] theorem State.advance_draws (s : State) (n : Nat) : (s.advance n).draws = s.draws := rfl
@[simp] theorem State.advance_env (s : State) (n : Nat) : (s.advance n).env = s.env := rfl

/-! ### `State.recordFetch` -/

@[simp] theorem State.recordFetch_gpr (s : State) (l : List Nat) : (s.recordFetch l).gpr = s.gpr := rfl
@[simp] theorem State.recordFetch_pc (s : State) (l : List Nat) : (s.recordFetch l).pc = s.pc := rfl
@[simp] theorem State.recordFetch_eflags (s : State) (l : List Nat) : (s.recordFetch l).eflags = s.eflags := rfl
@[simp] theorem State.recordFetch_cr0 (s : State) (l : List Nat) : (s.recordFetch l).cr0 = s.cr0 := rfl
@[simp] theorem State.recordFetch_cr2 (s : State) (l : List Nat) : (s.recordFetch l).cr2 = s.cr2 := rfl
@[simp] theorem State.recordFetch_cr4 (s : State) (l : List Nat) : (s.recordFetch l).cr4 = s.cr4 := rfl
@[simp] theorem State.recordFetch_idtBase (s : State) (l : List Nat) : (s.recordFetch l).idtBase = s.idtBase := rfl
@[simp] theorem State.recordFetch_smmBase (s : State) (l : List Nat) : (s.recordFetch l).smmBase = s.smmBase := rfl
@[simp] theorem State.recordFetch_segs (s : State) (l : List Nat) : (s.recordFetch l).segs = s.segs := rfl
@[simp] theorem State.recordFetch_addr32Default (s : State) (l : List Nat) : (s.recordFetch l).addr32Default = s.addr32Default := rfl
@[simp] theorem State.recordFetch_pages (s : State) (l : List Nat) : (s.recordFetch l).pages = s.pages := rfl
@[simp] theorem State.recordFetch_mode (s : State) (l : List Nat) : (s.recordFetch l).mode = s.mode := rfl
@[simp] theorem State.recordFetch_cpl (s : State) (l : List Nat) : (s.recordFetch l).cpl = s.cpl := rfl
@[simp] theorem State.recordFetch_fpu (s : State) (l : List Nat) : (s.recordFetch l).fpu = s.fpu := rfl
@[simp] theorem State.recordFetch_msr (s : State) (l : List Nat) : (s.recordFetch l).msr = s.msr := rfl
@[simp] theorem State.recordFetch_ferr (s : State) (l : List Nat) : (s.recordFetch l).ferr = s.ferr := rfl
@[simp] theorem State.recordFetch_exception (s : State) (l : List Nat) : (s.recordFetch l).exception = s.exception := rfl
@[simp] theorem State.recordFetch_nmiLatch (s : State) (l : List Nat) : (s.recordFetch l).nmiLatch = s.nmiLatch := rfl
@[simp] theorem State.recordFetch_smiLatch (s : State) (l : List Nat) : (s.recordFetch l).smiLatch = s.smiLatch := rfl
@[simp] theorem State.recordFetch_flushLatch (s : State) (l : List Nat) : (s.recordFetch l).flushLatch = s.flushLatch := rfl
@[simp] theorem State.recordFetch_mem (s : State) (l : List Nat) : (s.recordFetch l).mem = s.mem := rfl
@[simp] theorem State.recordFetch_platform (s : State) (l : List Nat) : (s.recordFetch l).platform = s.platform := rfl
@[simp] theorem State.recordFetch_fetched (s : State) (l : List Nat) : (s.recordFetch l).fetched = addAddresses s.fetched l := rfl
@[simp] theorem State.recordFetch_stored (s : State) (l : List Nat) : (s.recordFetch l).stored = s.stored := rfl
@[simp] theorem State.recordFetch_deviceEvents (s : State) (l : List Nat) : (s.recordFetch l).deviceEvents = s.deviceEvents := rfl
@[simp] theorem State.recordFetch_whcrDuty (s : State) (l : List Nat) : (s.recordFetch l).whcrDuty = s.whcrDuty := rfl
@[simp] theorem State.recordFetch_draws (s : State) (l : List Nat) : (s.recordFetch l).draws = s.draws := rfl
@[simp] theorem State.recordFetch_env (s : State) (l : List Nat) : (s.recordFetch l).env = s.env := rfl

/-! ### `takeException` -/

@[simp] theorem takeException_gpr (s : State) (e : Exc) : (takeException e s).gpr = s.gpr := rfl
@[simp] theorem takeException_pc (s : State) (e : Exc) : (takeException e s).pc = s.pc := rfl
@[simp] theorem takeException_eflags (s : State) (e : Exc) : (takeException e s).eflags = s.eflags := rfl
@[simp] theorem takeException_cr0 (s : State) (e : Exc) : (takeException e s).cr0 = s.cr0 := rfl
@[simp] theorem takeException_cr2 (s : State) (e : Exc) : (takeException e s).cr2 = s.cr2 := rfl
@[simp] theorem takeException_cr4 (s : State) (e : Exc) : (takeException e s).cr4 = s.cr4 := rfl
@[simp] theorem takeException_idtBase (s : State) (e : Exc) : (takeException e s).idtBase = s.idtBase := rfl
@[simp] theorem takeException_smmBase (s : State) (e : Exc) : (takeException e s).smmBase = s.smmBase := rfl
@[simp] theorem takeException_segs (s : State) (e : Exc) : (takeException e s).segs = s.segs := rfl
@[simp] theorem takeException_addr32Default (s : State) (e : Exc) : (takeException e s).addr32Default = s.addr32Default := rfl
@[simp] theorem takeException_pages (s : State) (e : Exc) : (takeException e s).pages = s.pages := rfl
@[simp] theorem takeException_mode (s : State) (e : Exc) : (takeException e s).mode = s.mode := rfl
@[simp] theorem takeException_cpl (s : State) (e : Exc) : (takeException e s).cpl = s.cpl := rfl
@[simp] theorem takeException_fpu (s : State) (e : Exc) : (takeException e s).fpu = s.fpu := rfl
@[simp] theorem takeException_msr (s : State) (e : Exc) : (takeException e s).msr = s.msr := rfl
@[simp] theorem takeException_ferr (s : State) (e : Exc) : (takeException e s).ferr = (s.ferr || e == .floatingPointPending) := rfl
@[simp] theorem takeException_exception (s : State) (e : Exc) : (takeException e s).exception = some { kind := e, pc := s.pc } := rfl
@[simp] theorem takeException_nmiLatch (s : State) (e : Exc) : (takeException e s).nmiLatch = s.nmiLatch := rfl
@[simp] theorem takeException_smiLatch (s : State) (e : Exc) : (takeException e s).smiLatch = s.smiLatch := rfl
@[simp] theorem takeException_flushLatch (s : State) (e : Exc) : (takeException e s).flushLatch = s.flushLatch := rfl
@[simp] theorem takeException_mem (s : State) (e : Exc) : (takeException e s).mem = s.mem := rfl
@[simp] theorem takeException_platform (s : State) (e : Exc) : (takeException e s).platform = s.platform := rfl
@[simp] theorem takeException_fetched (s : State) (e : Exc) : (takeException e s).fetched = s.fetched := rfl
@[simp] theorem takeException_stored (s : State) (e : Exc) : (takeException e s).stored = s.stored := rfl
@[simp] theorem takeException_deviceEvents (s : State) (e : Exc) : (takeException e s).deviceEvents = s.deviceEvents := rfl
@[simp] theorem takeException_whcrDuty (s : State) (e : Exc) : (takeException e s).whcrDuty = s.whcrDuty := rfl
@[simp] theorem takeException_draws (s : State) (e : Exc) : (takeException e s).draws = s.draws := rfl
@[simp] theorem takeException_env (s : State) (e : Exc) : (takeException e s).env = s.env := rfl

/-! ### `assertFerr` -/

@[simp] theorem assertFerr_gpr (s : State) : (assertFerr s).gpr = s.gpr := rfl
@[simp] theorem assertFerr_pc (s : State) : (assertFerr s).pc = s.pc := rfl
@[simp] theorem assertFerr_eflags (s : State) : (assertFerr s).eflags = s.eflags := rfl
@[simp] theorem assertFerr_cr0 (s : State) : (assertFerr s).cr0 = s.cr0 := rfl
@[simp] theorem assertFerr_cr2 (s : State) : (assertFerr s).cr2 = s.cr2 := rfl
@[simp] theorem assertFerr_cr4 (s : State) : (assertFerr s).cr4 = s.cr4 := rfl
@[simp] theorem assertFerr_idtBase (s : State) : (assertFerr s).idtBase = s.idtBase := rfl
@[simp] theorem assertFerr_smmBase (s : State) : (assertFerr s).smmBase = s.smmBase := rfl
@[simp] theorem assertFerr_segs (s : State) : (assertFerr s).segs = s.segs := rfl
@[simp] theorem assertFerr_addr32Default (s : State) : (assertFerr s).addr32Default = s.addr32Default := rfl
@[simp] theorem assertFerr_pages (s : State) : (assertFerr s).pages = s.pages := rfl
@[simp] theorem assertFerr_mode (s : State) : (assertFerr s).mode = s.mode := rfl
@[simp] theorem assertFerr_cpl (s : State) : (assertFerr s).cpl = s.cpl := rfl
@[simp] theorem assertFerr_fpu (s : State) : (assertFerr s).fpu = s.fpu := rfl
@[simp] theorem assertFerr_msr (s : State) : (assertFerr s).msr = s.msr := rfl
@[simp] theorem assertFerr_ferr (s : State) : (assertFerr s).ferr = true := rfl
@[simp] theorem assertFerr_exception (s : State) : (assertFerr s).exception = s.exception := rfl
@[simp] theorem assertFerr_nmiLatch (s : State) : (assertFerr s).nmiLatch = s.nmiLatch := rfl
@[simp] theorem assertFerr_smiLatch (s : State) : (assertFerr s).smiLatch = s.smiLatch := rfl
@[simp] theorem assertFerr_flushLatch (s : State) : (assertFerr s).flushLatch = s.flushLatch := rfl
@[simp] theorem assertFerr_mem (s : State) : (assertFerr s).mem = s.mem := rfl
@[simp] theorem assertFerr_platform (s : State) : (assertFerr s).platform = s.platform := rfl
@[simp] theorem assertFerr_fetched (s : State) : (assertFerr s).fetched = s.fetched := rfl
@[simp] theorem assertFerr_stored (s : State) : (assertFerr s).stored = s.stored := rfl
@[simp] theorem assertFerr_deviceEvents (s : State) : (assertFerr s).deviceEvents = s.deviceEvents := rfl
@[simp] theorem assertFerr_whcrDuty (s : State) : (assertFerr s).whcrDuty = s.whcrDuty := rfl
@[simp] theorem assertFerr_draws (s : State) : (assertFerr s).draws = s.draws := rfl
@[simp] theorem assertFerr_env (s : State) : (assertFerr s).env = s.env := rfl

/-! ### `afterRead` -/

@[simp] theorem afterRead_gpr (s : State) (l : List Nat) : (afterRead s l).gpr = s.gpr := rfl
@[simp] theorem afterRead_pc (s : State) (l : List Nat) : (afterRead s l).pc = s.pc := rfl
@[simp] theorem afterRead_eflags (s : State) (l : List Nat) : (afterRead s l).eflags = s.eflags := rfl
@[simp] theorem afterRead_cr0 (s : State) (l : List Nat) : (afterRead s l).cr0 = s.cr0 := rfl
@[simp] theorem afterRead_cr2 (s : State) (l : List Nat) : (afterRead s l).cr2 = s.cr2 := rfl
@[simp] theorem afterRead_cr4 (s : State) (l : List Nat) : (afterRead s l).cr4 = s.cr4 := rfl
@[simp] theorem afterRead_idtBase (s : State) (l : List Nat) : (afterRead s l).idtBase = s.idtBase := rfl
@[simp] theorem afterRead_smmBase (s : State) (l : List Nat) : (afterRead s l).smmBase = s.smmBase := rfl
@[simp] theorem afterRead_segs (s : State) (l : List Nat) : (afterRead s l).segs = s.segs := rfl
@[simp] theorem afterRead_addr32Default (s : State) (l : List Nat) : (afterRead s l).addr32Default = s.addr32Default := rfl
@[simp] theorem afterRead_pages (s : State) (l : List Nat) : (afterRead s l).pages = s.pages := rfl
@[simp] theorem afterRead_mode (s : State) (l : List Nat) : (afterRead s l).mode = s.mode := rfl
@[simp] theorem afterRead_cpl (s : State) (l : List Nat) : (afterRead s l).cpl = s.cpl := rfl
@[simp] theorem afterRead_fpu (s : State) (l : List Nat) : (afterRead s l).fpu = s.fpu := rfl
@[simp] theorem afterRead_msr (s : State) (l : List Nat) : (afterRead s l).msr = s.msr := rfl
@[simp] theorem afterRead_ferr (s : State) (l : List Nat) : (afterRead s l).ferr = s.ferr := rfl
@[simp] theorem afterRead_exception (s : State) (l : List Nat) : (afterRead s l).exception = s.exception := rfl
@[simp] theorem afterRead_nmiLatch (s : State) (l : List Nat) : (afterRead s l).nmiLatch = s.nmiLatch := rfl
@[simp] theorem afterRead_smiLatch (s : State) (l : List Nat) : (afterRead s l).smiLatch = s.smiLatch := rfl
@[simp] theorem afterRead_flushLatch (s : State) (l : List Nat) : (afterRead s l).flushLatch = s.flushLatch := rfl
@[simp] theorem afterRead_mem (s : State) (l : List Nat) : (afterRead s l).mem = s.mem := rfl
@[simp] theorem afterRead_platform (s : State) (l : List Nat) : (afterRead s l).platform = s.platform := rfl
@[simp] theorem afterRead_fetched (s : State) (l : List Nat) : (afterRead s l).fetched = s.fetched := rfl
@[simp] theorem afterRead_stored (s : State) (l : List Nat) : (afterRead s l).stored = s.stored := rfl
@[simp] theorem afterRead_deviceEvents (s : State) (l : List Nat) : (afterRead s l).deviceEvents = deviceEventsAfter s .read l (l.map (loadByte s)) := rfl
@[simp] theorem afterRead_whcrDuty (s : State) (l : List Nat) : (afterRead s l).whcrDuty = s.whcrDuty := rfl
@[simp] theorem afterRead_draws (s : State) (l : List Nat) : (afterRead s l).draws = (if l.any (inRegion s.platform .device) then s.draws + 1 else s.draws) := rfl
@[simp] theorem afterRead_env (s : State) (l : List Nat) : (afterRead s l).env = s.env := rfl

/-! ### `resumeAt` -/

@[simp] theorem resumeAt_gpr (s : State) (pc : Dword) : (resumeAt pc s).gpr = s.gpr := rfl
@[simp] theorem resumeAt_pc (s : State) (pc : Dword) : (resumeAt pc s).pc = pc := rfl
@[simp] theorem resumeAt_eflags (s : State) (pc : Dword) : (resumeAt pc s).eflags = s.eflags := rfl
@[simp] theorem resumeAt_cr0 (s : State) (pc : Dword) : (resumeAt pc s).cr0 = s.cr0 := rfl
@[simp] theorem resumeAt_cr2 (s : State) (pc : Dword) : (resumeAt pc s).cr2 = s.cr2 := rfl
@[simp] theorem resumeAt_cr4 (s : State) (pc : Dword) : (resumeAt pc s).cr4 = s.cr4 := rfl
@[simp] theorem resumeAt_idtBase (s : State) (pc : Dword) : (resumeAt pc s).idtBase = s.idtBase := rfl
@[simp] theorem resumeAt_smmBase (s : State) (pc : Dword) : (resumeAt pc s).smmBase = s.smmBase := rfl
@[simp] theorem resumeAt_segs (s : State) (pc : Dword) : (resumeAt pc s).segs = s.segs := rfl
@[simp] theorem resumeAt_addr32Default (s : State) (pc : Dword) : (resumeAt pc s).addr32Default = s.addr32Default := rfl
@[simp] theorem resumeAt_pages (s : State) (pc : Dword) : (resumeAt pc s).pages = s.pages := rfl
@[simp] theorem resumeAt_mode (s : State) (pc : Dword) : (resumeAt pc s).mode = s.mode := rfl
@[simp] theorem resumeAt_cpl (s : State) (pc : Dword) : (resumeAt pc s).cpl = s.cpl := rfl
@[simp] theorem resumeAt_fpu (s : State) (pc : Dword) : (resumeAt pc s).fpu = s.fpu := rfl
@[simp] theorem resumeAt_msr (s : State) (pc : Dword) : (resumeAt pc s).msr = s.msr := rfl
@[simp] theorem resumeAt_ferr (s : State) (pc : Dword) : (resumeAt pc s).ferr = s.ferr := rfl
@[simp] theorem resumeAt_exception (s : State) (pc : Dword) : (resumeAt pc s).exception = none := rfl
@[simp] theorem resumeAt_nmiLatch (s : State) (pc : Dword) : (resumeAt pc s).nmiLatch = s.nmiLatch := rfl
@[simp] theorem resumeAt_smiLatch (s : State) (pc : Dword) : (resumeAt pc s).smiLatch = s.smiLatch := rfl
@[simp] theorem resumeAt_flushLatch (s : State) (pc : Dword) : (resumeAt pc s).flushLatch = s.flushLatch := rfl
@[simp] theorem resumeAt_mem (s : State) (pc : Dword) : (resumeAt pc s).mem = s.mem := rfl
@[simp] theorem resumeAt_platform (s : State) (pc : Dword) : (resumeAt pc s).platform = s.platform := rfl
@[simp] theorem resumeAt_fetched (s : State) (pc : Dword) : (resumeAt pc s).fetched = s.fetched := rfl
@[simp] theorem resumeAt_stored (s : State) (pc : Dword) : (resumeAt pc s).stored = s.stored := rfl
@[simp] theorem resumeAt_deviceEvents (s : State) (pc : Dword) : (resumeAt pc s).deviceEvents = s.deviceEvents := rfl
@[simp] theorem resumeAt_whcrDuty (s : State) (pc : Dword) : (resumeAt pc s).whcrDuty = s.whcrDuty := rfl
@[simp] theorem resumeAt_draws (s : State) (pc : Dword) : (resumeAt pc s).draws = s.draws := rfl
@[simp] theorem resumeAt_env (s : State) (pc : Dword) : (resumeAt pc s).env = s.env := rfl

/-! ### Register files -/

/-- A register reads as the value written to it. -/
@[simp] theorem RegFile.get_set_same {w : Nat} (f : RegFile w) (i : Fin 8) (v : BitVec w) : (f.set i v).get i = v := by
  fin_cases i <;> rfl

/-- Writing one register leaves the others. -/
theorem RegFile.get_set_ne {w : Nat} (f : RegFile w) {i j : Fin 8} (v : BitVec w) (h : j ≠ i) :
    (f.set i v).get j = f.get j := by
  fin_cases i <;> fin_cases j <;> first | rfl | exact absurd rfl h

/-- Two register files that read alike are equal. -/
theorem RegFile.ext_get {w : Nat} (f g : RegFile w) (h : ∀ i, f.get i = g.get i) : f = g := by
  cases f; cases g
  have h0 := h 0; have h1 := h 1; have h2 := h 2; have h3 := h 3
  have h4 := h 4; have h5 := h 5; have h6 := h 6; have h7 := h 7
  simp only [RegFile.get] at h0 h1 h2 h3 h4 h5 h6 h7
  subst h0 h1 h2 h3 h4 h5 h6 h7
  rfl

@[simp] theorem State.gprAt_setGpr_same (s : State) (i : Gpr) (v : Dword) : (s.setGpr i v).gprAt i = v :=
  RegFile.get_set_same _ _ _

theorem State.gprAt_setGpr_ne (s : State) {i j : Gpr} (v : Dword) (h : j ≠ i) :
    (s.setGpr i v).gprAt j = s.gprAt j := RegFile.get_set_ne _ _ h

@[simp] theorem State.gprAt_setMm (s : State) (i : MmReg) (v : Qword) (j : Gpr) :
    (s.setMm i v).gprAt j = s.gprAt j := rfl

@[simp] theorem State.mmAt_setMm_same (s : State) (i : MmReg) (v : Qword) : (s.setMm i v).mmAt i = v :=
  RegFile.get_set_same _ _ _

theorem State.mmAt_setMm_ne (s : State) {i j : MmReg} (v : Qword) (h : j ≠ i) :
    (s.setMm i v).mmAt j = s.mmAt j := RegFile.get_set_ne _ _ h

@[simp] theorem State.mmAt_setGpr (s : State) (i : Gpr) (v : Dword) (j : MmReg) :
    (s.setGpr i v).mmAt j = s.mmAt j := rfl

@[simp] theorem State.gprAt_mmxDone (s : State) (n : Nat) (j : Gpr) : (s.mmxDone n).gprAt j = s.gprAt j := rfl

@[simp] theorem State.mmAt_mmxDone (s : State) (n : Nat) (j : MmReg) : (s.mmxDone n).mmAt j = s.mmAt j := rfl

/-- The end of an MMX instruction changes `pc`, the tag word and the top-of-stack field, and nothing else. -/
theorem State.mmxDone_eq (s : State) (n : Nat) :
    s.mmxDone n = { s with pc := s.pc + BitVec.ofNat 32 n, fpu := { s.fpu with ftw := 0, top := 0 } } := rfl

end Sys2Proof.Machine
end

