-- ==== Sys2Proof/Tests/Slice0.lean ====
section
/-! SUPPORT. Tests. Each expected value is from the worked examples and vectors of 95_test_vectors.md (section in the comment)
or from the rule named. `witness_<Name>` shows that the hypotheses of `Obligations.<Name>` can be met together. -/

namespace Sys2Proof.Tests

open Sys2Proof Sys2Proof.Machine

/-! ### Small states -/

/-- A flat 4-Gbyte segment of privilege level 3. -/
def flatSeg : SegRecord := { selector := 0x001B, base := 0, limit := 0xFFFFFFFF, rules := [openRule] }

/-- Protected mode, 32-bit addressing, flat segments, privilege level 3, `pc` = 1000h, every tag empty. -/
def flat : State :=
  { State.reset with
    gpr := .all 0, pc := 0x1000, cr0 := 0x00000001, addr32Default := true, mode := .protectedMode, cpl := 3
    segs := ⟨flatSeg, flatSeg, flatSeg, flatSeg, flatSeg, flatSeg⟩
    fpu := { resetFpu with ftw := 0xFFFF } }

/-- The same in Real mode with 16-bit addressing. -/
def real : State :=
  { State.reset with gpr := .all 0, pc := 0x100, cr0 := 0, segs := resetSegs, fpu := { resetFpu with ftw := 0xFFFF } }

/-- The flat state at privilege level 0. -/
def kernel : State := { flat with cpl := 0, segs := { flat.segs with cs := { flatSeg with selector := 0x0008 } } }

/-- With MM0 and MM1. -/
def mm (d v : Qword) : State := { flat with fpu := { flat.fpu with mm := { flat.fpu.mm with r0 := d, r1 := v } } }

/-- With bytes in memory from an address on. -/
def bytesAt (a : Nat) (bytes : List Byte) (s : State) : State :=
  { s with mem := memSetBytes s.mem ((List.range bytes.length).map (a + ·) |>.zip bytes) }

/-- With a general-purpose register. -/
def gprIs (i : Gpr) (v : Dword) (s : State) : State := s.setGpr i v

/-- [EBX]. -/
def atEbx : MemOperand := .a32 (.base 3 .none)

/-- A field of the next state, where there is one. -/
def after {α : Type} (r : Result) (f : State → α) : Option α :=
  match r with
  | .next t => some (f t)
  | _ => none

/-- The refusal, where there is one. -/
def refusal (r : Result) : Option Refusal :=
  match r with
  | .refused e => some e
  | _ => none

/-- The fault, where there is one. -/
def fault (r : Result) : Option Fault :=
  match r with
  | .fault e => some e
  | _ => none

/-- MM0 after `form MM0, MM1`, where MM1 and nothing but MM0, the tags and `pc` is as before. -/
def rm (form : RmForm) (d v : Qword) : Option Qword :=
  match exec (form {} 0 (.reg 1)) (mm d v) with
  | .next t => if t = mmxResult (mm d v) 0 (t.mmAt 0) 3 then some (t.mmAt 0) else none
  | _ => none

/-- MM0 after `form MM0, imm8`. -/
def im (form : ImmForm) (d : Qword) (imm : Byte) : Option Qword :=
  after (exec (form {} 0 imm) (mm d 0)) (·.mmAt 0)

/-- The exception and the FERR# that an instruction leaves. -/
def raised (r : Result) : Option (Option ExceptionRecord × Bool) := after r fun t => (t.exception, t.ferr)

/-! ### Well-formed and ill-formed operands -/

theorem test_wf_base_is_sib_escape : (Instr.movqLoad {} 0 (.mem (.a32 (.base 4 (.d8 0))))).wf true = false := by decide
theorem test_wf_base_ebp_needs_displacement : (Instr.movqLoad {} 0 (.mem (.a32 (.base 5 .none)))).wf true = false := by decide
theorem test_wf_sib_base_ebp_needs_displacement :
    (Instr.paddb {} 0 (.mem (.a32 (.sib 0 1 5 .none)))).wf true = false := by decide
theorem test_wf_row6_needs_displacement : (Instr.paddb {} 0 (.mem (.a16 (.regs 6 .none)))).wf false = false := by decide
theorem test_wf_a16_under_32_bit_default : (Instr.paddb {} 0 (.mem (.a16 (.regs 7 .none)))).wf true = false := by decide
theorem test_wf_a32_under_16_bit_default : (Instr.paddb {} 0 (.mem (.a32 (.abs 0)))).wf false = false := by decide
theorem test_wf_a32_with_67h_under_32_bit_default :
    (Instr.paddb { addrSize := true } 0 (.mem (.a32 (.abs 0)))).wf true = false := by decide
theorem test_wf_a16_with_67h_under_32_bit_default :
    (Instr.paddb { addrSize := true } 0 (.mem (.a16 (.regs 7 .none)))).wf true = true := by decide

/-! ### Decoding: words written out from 30_encoding.md R103, R110, R112, R121 -/

/-- Every listed byte string decodes to the instruction beside it and nothing is left. -/
def decodesAll (d32 : Bool) (rows : List (List Byte × Instr)) : Bool :=
  rows.all fun r => decide (decode d32 r.1 = .ok (r.2, []))

theorem test_decode_empty : decodesAll true [
    ([0x0F, 0x77], .emms {})] = true := by decide

theorem test_decode_move : decodesAll true [
    ([0x0F, 0x6E, 0xD8], .movdLoad {} 3 (.reg 0)),
    ([0x0F, 0x7E, 0xD9], .movdStore {} 3 (.reg 1)),
    ([0x0F, 0x6F, 0xD0], .movqLoad {} 2 (.reg 0)),
    ([0x0F, 0x7F, 0xC2], .movqStore {} 0 (.reg 2))] = true := by decide

theorem test_decode_convert : decodesAll true [
    ([0x0F, 0x6B, 0xCA], .packssdw {} 1 (.reg 2)),
    ([0x0F, 0x63, 0xD5], .packsswb {} 2 (.reg 5)),
    ([0x0F, 0x67, 0xD8], .packuswb {} 3 (.reg 0)),
    ([0x0F, 0x68, 0xE3], .punpckhbw {} 4 (.reg 3)),
    ([0x0F, 0x6A, 0xEE], .punpckhdq {} 5 (.reg 6)),
    ([0x0F, 0x69, 0xF1], .punpckhwd {} 6 (.reg 1)),
    ([0x0F, 0x60, 0xFC], .punpcklbw {} 7 (.reg 4)),
    ([0x0F, 0x62, 0xC7], .punpckldq {} 0 (.reg 7)),
    ([0x0F, 0x61, 0xCA], .punpcklwd {} 1 (.reg 2))] = true := by decide

theorem test_decode_arithmetic : decodesAll true [
    ([0x0F, 0xFC, 0xCA], .paddb {} 1 (.reg 2)),
    ([0x0F, 0xFE, 0xD5], .paddd {} 2 (.reg 5)),
    ([0x0F, 0xEC, 0xD8], .paddsb {} 3 (.reg 0)),
    ([0x0F, 0xED, 0xE3], .paddsw {} 4 (.reg 3)),
    ([0x0F, 0xDC, 0xEE], .paddusb {} 5 (.reg 6)),
    ([0x0F, 0xDD, 0xF1], .paddusw {} 6 (.reg 1)),
    ([0x0F, 0xFD, 0xFC], .paddw {} 7 (.reg 4)),
    ([0x0F, 0xF5, 0xC7], .pmaddwd {} 0 (.reg 7)),
    ([0x0F, 0xE5, 0xCA], .pmulhw {} 1 (.reg 2)),
    ([0x0F, 0xD5, 0xD5], .pmullw {} 2 (.reg 5)),
    ([0x0F, 0xF8, 0xD8], .psubb {} 3 (.reg 0)),
    ([0x0F, 0xFA, 0xE3], .psubd {} 4 (.reg 3)),
    ([0x0F, 0xE8, 0xEE], .psubsb {} 5 (.reg 6)),
    ([0x0F, 0xE9, 0xF1], .psubsw {} 6 (.reg 1)),
    ([0x0F, 0xD8, 0xFC], .psubusb {} 7 (.reg 4)),
    ([0x0F, 0xD9, 0xC7], .psubusw {} 0 (.reg 7)),
    ([0x0F, 0xF9, 0xCA], .psubw {} 1 (.reg 2))] = true := by decide

theorem test_decode_logical : decodesAll true [
    ([0x0F, 0xDB, 0xCA], .pand {} 1 (.reg 2)),
    ([0x0F, 0xDF, 0xD5], .pandn {} 2 (.reg 5)),
    ([0x0F, 0xEB, 0xD8], .por {} 3 (.reg 0)),
    ([0x0F, 0xEF, 0xE3], .pxor {} 4 (.reg 3))] = true := by decide

theorem test_decode_compare : decodesAll true [
    ([0x0F, 0x74, 0xCA], .pcmpeqb {} 1 (.reg 2)),
    ([0x0F, 0x76, 0xD5], .pcmpeqd {} 2 (.reg 5)),
    ([0x0F, 0x75, 0xD8], .pcmpeqw {} 3 (.reg 0)),
    ([0x0F, 0x64, 0xE3], .pcmpgtb {} 4 (.reg 3)),
    ([0x0F, 0x66, 0xEE], .pcmpgtd {} 5 (.reg 6)),
    ([0x0F, 0x65, 0xF1], .pcmpgtw {} 6 (.reg 1))] = true := by decide

theorem test_decode_shift : decodesAll true [
    ([0x0F, 0xF2, 0xCA], .pslld {} 1 (.reg 2)),
    ([0x0F, 0xF3, 0xD5], .psllq {} 2 (.reg 5)),
    ([0x0F, 0xF1, 0xD8], .psllw {} 3 (.reg 0)),
    ([0x0F, 0xE2, 0xE3], .psrad {} 4 (.reg 3)),
    ([0x0F, 0xE1, 0xEE], .psraw {} 5 (.reg 6)),
    ([0x0F, 0xD2, 0xF1], .psrld {} 6 (.reg 1)),
    ([0x0F, 0xD3, 0xFC], .psrlq {} 7 (.reg 4)),
    ([0x0F, 0xD1, 0xC7], .psrlw {} 0 (.reg 7))] = true := by decide

theorem test_decode_immediate_shift : decodesAll true [
    ([0x0F, 0x72, 0xF2, 0x04], .pslldImm {} 2 4),
    ([0x0F, 0x73, 0xF3, 0x05], .psllqImm {} 3 5),
    ([0x0F, 0x71, 0xF4, 0x06], .psllwImm {} 4 6),
    ([0x0F, 0x72, 0xE5, 0x07], .psradImm {} 5 7),
    ([0x0F, 0x71, 0xE6, 0x08], .psrawImm {} 6 8),
    ([0x0F, 0x72, 0xD7, 0x09], .psrldImm {} 7 9),
    ([0x0F, 0x73, 0xD0, 0x0A], .psrlqImm {} 0 10),
    ([0x0F, 0x71, 0xD1, 0x0B], .psrlwImm {} 1 11)] = true := by decide

theorem test_decode_system : decodesAll true [
    ([0x0F, 0xA2], .cpuid),
    ([0x0F, 0x30], .wrmsr),
    ([0x0F, 0x31], .rdtsc),
    ([0x0F, 0x32], .rdmsr),
    ([0x0F, 0x09], .wbinvd)] = true := by decide

/-- Section 3.1, 32-bit addressing. -/
theorem test_decode_operands_32 : decodesAll true [
    ([0x0F, 0x6F, 0x06], .movqLoad {} 0 (.mem (.a32 (.base 6 .none)))),
    ([0x0F, 0x6F, 0x4E, 0xF8], .movqLoad {} 1 (.mem (.a32 (.base 6 (.d8 0xF8))))),
    ([0x0F, 0x6F, 0x05, 0x78, 0x56, 0x34, 0x12], .movqLoad {} 0 (.mem (.a32 (.abs 0x12345678)))),
    ([0x0F, 0x6F, 0x04, 0x8B], .movqLoad {} 0 (.mem (.a32 (.sib 2 1 3 .none)))),
    ([0x0F, 0x6F, 0x44, 0x24, 0x10], .movqLoad {} 0 (.mem (.a32 (.sib 0 4 4 (.d8 0x10))))),
    ([0x0F, 0x6F, 0x04, 0x8D, 0x00, 0x10, 0x00, 0x00], .movqLoad {} 0 (.mem (.a32 (.sibNoBase 2 1 0x1000)))),
    ([0x0F, 0x6F, 0x45, 0x00], .movqLoad {} 0 (.mem (.a32 (.base 5 (.d8 0))))),
    ([0x26, 0x0F, 0x7F, 0x07], .movqStore { seg := some .es } 0 (.mem (.a32 (.base 7 .none))))] = true := by decide

/-- Section 3.1, 16-bit addressing by default. -/
theorem test_decode_operands_16 : decodesAll false [
    ([0x0F, 0x6F, 0x06, 0x34, 0x12], .movqLoad {} 0 (.mem (.a16 (.abs 0x1234)))),
    ([0x0F, 0x6F, 0x02], .movqLoad {} 0 (.mem (.a16 (.regs 2 .none)))),
    ([0x67, 0x0F, 0x6F, 0x07], .movqLoad { addrSize := true } 0 (.mem (.a32 (.base 7 .none))))] = true := by decide

/-- Section 3.1: the undefined immediate-shift encodings, refused (60_exceptions.md R301). -/
theorem test_decode_reserved_shifts :
    ([[0x0F, 0x73, 0xE0, 0x01], [0x0F, 0x71, 0xC2, 0x04], [0x0F, 0x71, 0xCA, 0x04], [0x0F, 0x71, 0xDA, 0x04],
      [0x0F, 0x71, 0xEA, 0x04], [0x0F, 0x71, 0xFA, 0x04], [0x0F, 0x71, 0x32, 0x04]] : List (List Byte)).all
      (fun b => decide (decode true b = .error (.reservedShift (b.getD 1 0)))) = true ∧
    refusal (step (bytesAt 0x1000 [0x0F, 0x73, 0xE0, 0x01] flat)) = some (.undescribedBytes (.reservedShift 0x73)) := by decide

/-- Section 3.1 (30_encoding.md R116), D12, D14, D11. -/
theorem test_decode_refusals :
    decode true [0x66, 0x0F, 0x6F, 0xC1] = .error (.undescribedPrefix 0x66) ∧
    decode true [0xF3, 0x0F, 0x6F, 0xC1] = .error (.undescribedPrefix 0xF3) ∧
    decode true [0xF0, 0xF0, 0x0F, 0x77] = .error (.repeatedPrefix 0xF0) ∧
    decode true [0x26, 0x3E, 0x0F, 0x77] = .error .twoSegmentOverrides ∧
    decode true [0x26, 0x0F, 0xA2] = .error (.prefixedSystem 0xA2) ∧
    decode true [0x0F, 0x70, 0xC1, 0x00] = .error (.undescribedOpcode0F 0x70) ∧
    decode true [0x90] = .error (.baseOpcode 0x90) ∧ decode true [0x0F, 0x6F] = .error .truncated := by decide

/-- 30_encoding.md R110: the encoder puts the register into `rm`. -/
theorem test_encode : encode (.psllwImm {} 2 4) = [0x0F, 0x71, 0xF2, 0x04] ∧
    encode (.movqStore { seg := some .es } 0 (.mem (.a32 (.base 7 .none)))) = [0x26, 0x0F, 0x7F, 0x07] := by decide

/-! ### MMX instructions: sections 1 and 2, and section 1.2 lane by lane in the low element -/

theorem test_paddb : rm .paddb 0xFF7F80000180FE01 0x010180FFFF800302 = some 0x008000FF00000103 := by decide
theorem test_paddw : rm .paddw 0x8000FF0000FCFFFF 0x012301EC8014FFFF = some 0x812300EC8110FFFE := by decide
theorem test_paddd : rm .paddd 0xFFFFFFFF7FFFFFFF 0x0000000100000001 = some 0x0000000080000000 := by decide
theorem test_paddsb : rm .paddsb 0x0188EC001444F7A8 0x00D253427770079A = some 0x01803F427F7FFE80 := by decide
theorem test_paddsw : rm .paddsw 0x8807EC220FF9FFFF 0xD25053217007FFFF = some 0x80003F437FFFFFFE := by decide
theorem test_paddusb : rm .paddusb 0x8188EC0E1444F7A8 0x7FD253427770079A = some 0xFFFFFF508BB4FEFF := by decide
theorem test_paddusw : rm .paddusw 0x7000800000154567 0x7E108000FFFE1234 = some 0xEE10FFFFFFFF579B := by decide
theorem test_psubb : rm .psubb 0x000080017FFF1010 0x01FF010280FF1011 = some 0xFF017FFFFF0000FF := by decide
theorem test_psubw : rm .psubw 0x000080007FFF1234 0x0001000180001234 = some 0xFFFF7FFFFFFF0000 := by decide
theorem test_psubd : rm .psubd 0x0000000080000000 0x0000000100000001 = some 0xFFFFFFFF7FFFFFFF := by decide
theorem test_psubsb : rm .psubsb 0x80807F7F0000FF01 0x017FFF8080010002 = some 0x80807F7F7FFFFFFF := by decide
theorem test_psubsw : rm .psubsw 0x80007FFF00008000 0x0001FFFF80008000 = some 0x80007FFF7FFF0000 := by decide
theorem test_psubusb : rm .psubusb 0x000180FF7F10FF00 0x01027F008010FFFF = some 0x000001FF00000000 := by decide
theorem test_psubusw : rm .psubusw 0x0000FFFF80001234 0x000100017FFF1235 = some 0x0000FFFE00010000 := by decide
theorem test_pmaddwd : rm .pmaddwd 0x00027FFF0FF9FFFF 0xFFFE7FFF7007FFFF = some 0x3FFEFFFD06FD5FD0 := by decide
theorem test_pmaddwd_wraps : rm .pmaddwd 0x8000800080008000 0x8000800080008000 = some 0x8000000080000000 := by decide
theorem test_pmulhw : rm .pmulhw 0x8807EC220FF9FFFF 0xD25053217007FFFF = some 0x1569F98C06FD0000 := by decide
theorem test_pmullw : rm .pmullw 0x8807EC220FF9FFFF 0xD25053217007FFFF = some 0x403076625FCF0001 := by decide
theorem test_pcmpeqb : rm .pcmpeqb 0x0011223344556677 0x0010223044556670 = some 0xFF00FF00FFFFFF00 := by decide
theorem test_pcmpeqw : rm .pcmpeqw 0x00008000FFFF1234 0x00000080FFFF3412 = some 0xFFFF0000FFFF0000 := by decide
theorem test_pcmpeqd : rm .pcmpeqd 0x1234567812345678 0x1234567812345679 = some 0xFFFFFFFF00000000 := by decide
theorem test_pcmpgtb : rm .pcmpgtb 0xDD2442018080A314 0xDC2541FF807FA604 = some 0xFF00FFFF000000FF := by decide
theorem test_pcmpgtw : rm .pcmpgtw 0xDA14800000011243 0x00018000FFFF1234 = some 0x00000000FFFFFFFF := by decide
theorem test_pcmpgtd : rm .pcmpgtd 0x7FFFFFFF80000000 0x800000007FFFFFFF = some 0xFFFFFFFF00000000 := by decide
theorem test_packsswb : rm .packsswb 0xFF020085007E81CF 0x007E7F00EF9DFF88 = some 0x7E7F8088807F7E80 := by decide
theorem test_packssdw : rm .packssdw 0xFFFF8002000001FC 0x8000000200008000 = some 0x80007FFF800201FC := by decide
theorem test_packuswb : rm .packuswb 0x00FF0100FFFF8000 0x7FFF000000010080 = some 0xFF000180FFFF0000 := by decide
theorem test_punpckhbw : rm .punpckhbw 0x0102030405060708 0x1112131415161718 = some 0x1101120213031404 := by decide
theorem test_punpckhwd : rm .punpckhwd 0x403076625FCF0001 0x1569F98C06FD0000 = some 0x15694030F98C7662 := by decide
theorem test_punpckhdq : rm .punpckhdq 0x0000000100000002 0x0000001100000012 = some 0x0000001100000001 := by decide
theorem test_punpcklbw : rm .punpcklbw 0x0102030405060708 0x1112131415161718 = some 0x1505160617071808 := by decide
theorem test_punpcklwd : rm .punpcklwd 0x403076625FCF0001 0x1569F98C06FD0000 = some 0x06FD5FCF00000001 := by decide
theorem test_punpckldq : rm .punpckldq 0x0000000100000002 0x0000001100000012 = some 0x0000001200000002 := by decide
theorem test_pand : rm .pand 0xFFFF0000F0F01234 0x123456780FF0FFFF = some 0x1234000000F01234 := by decide
theorem test_pandn : rm .pandn 0xFFFF0000F0F01234 0x123456780FF0FFFF = some 0x000056780F00EDCB := by decide
theorem test_por : rm .por 0xFFFF0000F0F01234 0x123456780FF0FFFF = some 0xFFFF5678FFF0FFFF := by decide
theorem test_pxor : rm .pxor 0xFFFF0000F0F01234 0x123456780FF0FFFF = some 0xEDCB5678FF00EDCB := by decide
theorem test_movqLoad : rm .movqLoad 0x0000000000000001 0x0123456789ABCDEF = some 0x0123456789ABCDEF := by decide
theorem test_psllw : rm .psllw 0x8807EC220FF9FFFF 0x8 = some 0x07002200F900FF00 := by decide
theorem test_psllw_whole_count : rm .psllw 0x8001FFFF00011234 0x0000000100000000 = some 0x0 := by decide
theorem test_pslld : rm .pslld 0x000FA3BE01234567 0x8 = some 0x0FA3BE0023456700 := by decide
theorem test_pslld_at_width : rm .pslld 0x800000010000FFFF 0x20 = some 0x0 := by decide
theorem test_psllq : rm .psllq 0x000FA3BE01234567 0x8 = some 0x0FA3BE0123456700 := by decide
theorem test_psllq_at_width : rm .psllq 0x8000000000000001 0x40 = some 0x0 := by decide
theorem test_psrlw : rm .psrlw 0x8800EC220FF9FF00 0x8 = some 0x008800EC000F00FF := by decide
theorem test_psrlw_at_width : rm .psrlw 0x8001FFFF00011234 0x10 = some 0x0 := by decide
theorem test_psrld : rm .psrld 0xFFF0000001234567 0x10 = some 0x0000FFF000000123 := by decide
theorem test_psrlq : rm .psrlq 0x000FA3BE01234567 0x10 = some 0x0000000FA3BE0123 := by decide
theorem test_psrlq_whole_count : rm .psrlq 0x8000000000000001 0x8000000000000000 = some 0x0 := by decide
theorem test_psraw : rm .psraw 0x8800EC000F007F00 0x8 = some 0xFF88FFEC000F007F := by decide
theorem test_psraw_whole_count : rm .psraw 0x80017FFFFFFF1234 0x0000000000010000 = some 0xFFFF0000FFFF0000 := by decide
theorem test_psrad : rm .psrad 0xFFF0000001230000 0x10 = some 0xFFFFFFF000000123 := by decide
theorem test_psrad_at_width : rm .psrad 0x800000017FFFFFFF 0x20 = some 0xFFFFFFFF00000000 := by decide

theorem test_psllwImm : im .psllwImm 0x8001FFFF00011234 0x0F = some 0x8000800080000000 := by decide
theorem test_pslldImm : im .pslldImm 0x800000010000FFFF 0x10 = some 0x00010000FFFF0000 := by decide
theorem test_psllqImm : im .psllqImm 0x8000000000000001 0x20 = some 0x0000000100000000 := by decide
theorem test_psrlwImm : im .psrlwImm 0x8001FFFF00011234 0x01 = some 0x40007FFF0000091A := by decide
theorem test_psrldImm : im .psrldImm 0x800000010000FFFF 0x1F = some 0x0000000100000000 := by decide
theorem test_psrlqImm : im .psrlqImm 0x0123456789ABCDEF 0x20 = some 0x0000000001234567 := by decide
theorem test_psrawImm : im .psrawImm 0x80007FFFFFFF0001 0xFF = some 0xFFFF0000FFFF0000 := by decide
theorem test_psradImm : im .psradImm 0x800000007FFFFFFF 0x1F = some 0xFFFFFFFF00000000 := by decide

/-- Section 1.2: single lanes. -/
theorem test_single_lanes :
    rm .paddb 0x53 0xEC = some 0x3F ∧ rm .paddd 0xFFF05C43 0xFA3BE = some 1 ∧ rm .psubb 0x9A07 0xA8F7 = some 0xF210 ∧
    rm .psubw 0x5321 0xEC22 = some 0x66FF ∧ rm .psubd 0x01234567 0x80000000 = some 0x81234567 ∧
    rm .psubsb 0x8242 0x0FC1 = some 0x807F ∧ rm .psubsw 0x53218007 0xD3200FF9 = some 0x7FFF8000 ∧
    rm .psubusb 0x5342 0xECC1 = some 0 ∧ rm .psubusw 0x5321 0xEC22 = some 0 := by decide

/-- Section 3.3, the tag word sequence, and 10_state.md R23. -/
theorem test_emms : after (exec (.emms {}) (mm 5 6)) (fun t => (t.fpu.ftw, t.pc, t.mmAt 0, t.mmAt 1)) =
    some (0xFFFF, 0x1002, 5, 6) := by decide

/-- 10_state.md R23, R27: bits 79 to 64, the top-of-stack field and the tags. -/
theorem test_write_sets_high_bits : after (exec (.pxor {} 1 (.reg 1)) { flat with fpu := { flat.fpu with top := 3 } })
    (fun t => (t.fpu.high.r1, t.fpu.high.r0, t.fpu.top, t.fpu.ftw)) = some (0xFFFF, 0, 0, 0) := by decide

/-- Section 3.2, byte order. -/
def ordered : State := bytesAt 0x1000 [0x11, 0x22, 0x33, 0x44, 0x55, 0x66, 0x77, 0x88] flat

theorem test_movq_load_memory : after (exec (.movqLoad {} 0 (.mem (.a32 (.abs 0x1000)))) ordered) (·.mmAt 0) =
    some 0x8877665544332211 := by decide
theorem test_movd_load_memory : after (exec (.movdLoad {} 1 (.mem (.a32 (.abs 0x1000)))) ordered) (·.mmAt 1) =
    some 0x0000000044332211 := by decide
theorem test_movd_load_register : after (exec (.movdLoad {} 0 (.reg 2)) (gprIs 2 0x89ABCDEF (mm 0xFFFFFFFFFFFFFFFF 0)))
    (fun t => (t.mmAt 0, t.fpu.ftw, t.pc)) = some (0x89ABCDEF, 0, 0x1003) := by decide
theorem test_movd_store_memory :
    after (exec (.movdStore {} 0 (.mem (.a32 (.abs 0x1004)))) { ordered with fpu := (mm 0x8877665544332211 0).fpu })
      (fun t => ((List.range 8).map fun k => memByte t.mem (0x1000 + k), t.fpu.ftw, t.stored)) =
    some ([0x11, 0x22, 0x33, 0x44, 0x11, 0x22, 0x33, 0x44], 0, [0x1004, 0x1005, 0x1006, 0x1007]) := by decide
theorem test_movd_store_register : after (exec (.movdStore {} 0 (.reg 1)) (mm 0x0123456789ABCDEF 0))
    (fun t => (t.gprAt 1, t.mmAt 1, t.fpu.ftw)) = some (0x89ABCDEF, 0, 0) := by decide
theorem test_movq_store_memory : after (exec (.movqStore {} 1 (.mem atEbx)) (gprIs 3 0x3000 (mm 0 0x0123456789ABCDEF)))
    (fun t => (List.range 8).map fun k => memByte t.mem (0x3000 + k)) =
    some [0xEF, 0xCD, 0xAB, 0x89, 0x67, 0x45, 0x23, 0x01] := by decide
theorem test_movq_store_register : after (exec (.movqStore {} 0 (.reg 2)) (mm 0x0123456789ABCDEF 0)) (·.mmAt 2) =
    some 0x0123456789ABCDEF := by decide

/-! ### Addresses and access checks: section 3.2 -/

/-- The state of section 3.2. -/
def addressing : State :=
  { flat with gpr := { r0 := 0, r1 := 3, r2 := 0, r3 := 0x2000, r4 := 0x4000, r5 := 0x3000, r6 := 0x1000, r7 := 0xFFFFFFFC } }

theorem test_effective_addresses :
    effectiveAddress addressing (.a32 (.sib 2 1 3 .none)) = 0x200C ∧
    effectiveAddress addressing (.a32 (.base 6 (.d8 0xF8))) = 0xFF8 ∧
    effectiveAddress addressing (.a32 (.sib 0 4 4 (.d8 0x10))) = 0x4010 ∧
    defaultSegment (.a32 (.base 5 (.d8 0))) = .ss ∧ defaultSegment (.a32 (.sib 0 4 4 (.d8 0x10))) = .ss ∧
    effectiveAddress (gprIs 3 0x1FFFF (gprIs 6 2 real)) (.a16 (.regs 0 .none)) = 1 := by decide

theorem test_flat_limit :
    accessAddresses addressing .ds 0xFFFFFFFC 4 .read = .ok [0xFFFFFFFC, 0xFFFFFFFD, 0xFFFFFFFE, 0xFFFFFFFF] ∧
    accessAddresses addressing .ds 0xFFFFFFFC 8 .read = .raised .generalProtection := by decide

theorem test_real_mode_limit :
    raised (exec (.movqLoad {} 0 (.mem (.a16 (.regs 7 .none)))) (gprIs 3 0xFFF8 real)) = some (none, false) ∧
    raised (exec (.movqLoad {} 0 (.mem (.a16 (.regs 7 .none)))) (gprIs 3 0xFFF9 real)) =
      some (some ⟨.segmentOverrun, 0x100⟩, false) ∧
    raised (exec (.movdLoad {} 0 (.mem (.a16 (.regs 7 .none)))) (gprIs 3 0xFFFC real)) = some (none, false) ∧
    raised (exec (.movqLoad {} 0 (.mem (.a16 (.regs 2 .none)))) (gprIs 5 0xFFF0 (gprIs 6 0xC real))) =
      some (some ⟨.stackException, 0x100⟩, false) := by decide

/-- Alignment checking on. -/
def aligned : State := { flat with cr0 := 0x00040001, eflags := 0x00040002 }

theorem test_alignment :
    alignCheck aligned 0x1008 8 = .ok () ∧ alignCheck aligned 0x1004 8 = .raised .alignmentCheck ∧
    alignCheck aligned 0x1004 4 = .ok () ∧ alignCheck aligned 0x1002 4 = .raised .alignmentCheck ∧
    alignCheck { aligned with cpl := 0 } 0x1004 8 = .ok () ∧ alignCheck { aligned with cr0 := 1 } 0x1004 8 = .ok () ∧
    alignCheck { aligned with eflags := 2 } 0x1004 8 = .ok () ∧ alignCheck { aligned with mode := .real } 0x1004 8 = .ok () := by
  decide

/-- The linear address is tested (D6). -/
theorem test_alignment_is_linear :
    accessAddresses { aligned with segs := { aligned.segs with ds := { flatSeg with base := 4, limit := 0xFFFFF } } } .ds 0x1004 8
      .read = .ok [0x1008, 0x1009, 0x100A, 0x100B, 0x100C, 0x100D, 0x100E, 0x100F] := by decide

/-- The rule of one 4-Kbyte page for reads and writes at some privilege levels (20_memory.md R81). -/
def page4K (first : Dword) (levels : List (Fin 4)) (target : Option Dword) : PageRule :=
  ⟨first, first + 0xFFF, first + 0xFFF, [.read, .write], levels, none, target⟩

/-- Page rules that refuse user accesses to the page at 2000h and move the one at 3000h to 9000h (20_memory.md R81). -/
def paged : State :=
  { flat with pages := [page4K 0x2000 [0] (some 0x2000), page4K 0x2000 [1, 2, 3] none, page4K 0x3000 [3] (some 0x9000)] }

theorem test_page_fault : raised (exec (.movqLoad {} 0 (.mem atEbx)) (gprIs 3 0x2000 paged)) =
    some (some ⟨.pageFault, 0x1000⟩, false) ∧
    accessAddresses paged .ds 0x3FFC 8 .read =
      .ok [0x9FFC, 0x9FFD, 0x9FFE, 0x9FFF, 0x4000, 0x4001, 0x4002, 0x4003] := by decide

/-- 20_memory.md R76, R80, R81: a null selector, an execute-only and an expand-down segment; a page whose reads and writes go to
different places, not aligned with it; accesses that two addresses of one page send to unrelated places. -/
theorem test_open_arguments :
    accessAddresses { flat with segs := { flat.segs with ds := { flatSeg with rules := [] } } } .ds 0 4 .read =
      .raised .generalProtection ∧
    accessAddresses { flat with segs := { flat.segs with ss := { flatSeg with rules := [⟨[.fetch], none, .upToLimit⟩] } } } .ss 0 4
      .read = .raised .stackException ∧
    accessAddresses { flat with segs := { flat.segs with
      ds := { flatSeg with limit := 0xFFF, rules := [⟨[.read, .write], none, .aboveLimit⟩] } } } .ds 0xFFF 4 .read =
        .raised .generalProtection ∧
    accessAddresses { flat with segs := { flat.segs with
      ds := { flatSeg with limit := 0xFFF, rules := [⟨[.read, .write], none, .aboveLimit⟩] } } } .ds 0x1000 4 .read =
        .ok [0x1000, 0x1001, 0x1002, 0x1003] ∧
    translate { flat with pages := [⟨0x1000, 0x1FFF, 0x1FFF, [.read], [3], some 4, some 0x2345⟩,
      ⟨0x1000, 0x1FFF, 0x1FFF, [.write], [3], none, some 0x4000⟩] } .read 0x1004 4 = some [0x2349, 0x234A, 0x234B, 0x234C] ∧
    (translate { flat with pages := [⟨0x1000, 0x1FFF, 0x1FFF, [.read], [3], some 4, some 0x2345⟩,
      ⟨0x1000, 0x1FFF, 0x1FFF, [.write], [3], none, some 0x4000⟩] } .write 0x1000 4).map (·.head?) = some (some 0x4000) ∧
    translate { flat with pages := [⟨0x1000, 0x1000, 0x1FFF, [.read], [3], none, some 0x5000⟩,
      ⟨0x1001, 0x1001, 0x1FFF, [.read], [3], none, some 0x9000⟩] } .read 0x1000 4 = some [0x5000, 0x5001, 0x5002, 0x5003] ∧
    translate { flat with pages := [⟨0x1000, 0x1000, 0x1FFF, [.read], [3], none, some 0x5000⟩,
      ⟨0x1001, 0x1001, 0x1FFF, [.read], [3], none, some 0x9000⟩] } .read 0x1001 4 = some [0x9000, 0x9001, 0x9002, 0x9003] :=
  by decide

/-! ### Exceptions: section 3.3 -/

/-- Section 3.3's state with the given CR0 and pending exception. -/
def tried (cr0 : Dword) (pending : Bool) : State :=
  { flat with pc := 0x100, cr0 := cr0, fpu := { (mm 0x0101010101010101 0x0202020202020202).fpu with pending } }

/-- PADDB MM0, MM1. -/
def paddb01 : Instr := .paddb {} 0 (.reg 1)

theorem test_prologue_executes : after (exec paddb01 (tried 1 false)) (fun t => (t.mmAt 0, t.fpu.ftw, t.pc)) =
    some (0x0303030303030303, 0, 0x103) := by decide
theorem test_prologue_em_first : after (exec paddb01 (tried 0x2D true)) (fun t => (t.exception, t.mmAt 0, t.fpu.ftw, t.pc)) =
    some (some ⟨.invalidOpcode, 0x100⟩, 0x0101010101010101, 0xFFFF, 0x100) := by decide
theorem test_prologue_ts_before_pending : raised (exec paddb01 (tried 0x29 true)) =
    some (some ⟨.deviceNotAvailable, 0x100⟩, false) := by decide
theorem test_prologue_pending : after (exec paddb01 (tried 0x21 true)) (fun t => (t.exception, t.ferr, t.fpu.pending)) =
    some (some ⟨.floatingPointPending, 0x100⟩, true, true) := by decide
theorem test_prologue_ferr_then_refused : raised (exec paddb01 (tried 1 true)) = some (none, true) ∧
    refusal (exec paddb01 { tried 1 true with ferr := true }) = some .ferrAssertedWithNEClear := by decide
theorem test_prologue_lock_before_ts : raised (exec (.paddb { lock := true } 0 (.reg 1)) (tried 9 false)) =
    some (some ⟨.invalidOpcode, 0x100⟩, false) := by decide
theorem test_vectors : [Exc.invalidOpcode, .deviceNotAvailable, .stackException, .generalProtection, .segmentOverrun, .pageFault,
    .floatingPointPending, .alignmentCheck].map Exc.vector = [6, 7, 12, 13, 13, 14, 16, 17] := by decide

/-! ### System instructions: section 3.4 -/

/-- EAX, EBX, ECX and EDX after CPUID. -/
def cpuidAt (f : Dword) : Option (Dword × Dword × Dword × Dword) :=
  after (exec .cpuid (gprIs 0 f flat)) fun t => (t.gprAt 0, t.gprAt 3, t.gprAt 1, t.gprAt 2)

theorem test_cpuid : cpuidAt 0 = some (0x00000001, 0x68747541, 0x444D4163, 0x69746E65) ∧
    cpuidAt 0x80000002 = some (0x2D444D41, 0x6D74364B, 0x202F7720, 0x746C756D) ∧
    cpuidAt 0x80000003 = some (0x64656D69, 0x65206169, 0x6E657478, 0x6E6F6973) ∧
    cpuidAt 0x80000004 = some (0x00000073, 0, 0, 0) := by decide
theorem test_cpuid_partly_free : (cpuidAt 1).map (·.2.2.2) = some 0x008001BF ∧
    (cpuidAt 0x80000000).map (·.1) = some 0x80000005 ∧ (cpuidAt 0x80000001).map (·.2.2.2) = some 0x008005BF ∧
    (cpuidAt 0x80000005).map (·.2) = some (0x02800140, 0x20020220, 0x20020220) := by decide

/-- The flat state at privilege level 0 with ECX and EDX:EAX. -/
def msrCall (n edx eax : Dword) : State := gprIs 1 n (gprIs 2 edx (gprIs 0 eax kernel))

theorem test_wrmsr : after (exec .wrmsr (msrCall 0xC0000082 0 0x11)) (fun t => (t.msr.whcr, t.pc)) = some (0x11, 0x1002) ∧
    after (exec .wrmsr (msrCall 0xC0000080 0 1)) (·.msr.efer) = some 1 ∧
    after (exec .wrmsr (msrCall 0x10 0x12345678 0x9ABCDEF0)) (·.msr.tsc) = some 0x123456789ABCDEF0 ∧
    after (exec .wrmsr (msrCall 0xE 0xFFFFFFFF 0xFFFFFFFF)) (·.msr.tr12Ci) = some true ∧
    after (exec .wrmsr (msrCall 0 1 2)) (·.msr.mcar) = some 0x100000002 ∧
    after (exec .wrmsr (msrCall 1 3 4)) (·.msr.mctr) = some 0x300000004 := by decide
theorem test_wrmsr_stops :
    raised (exec .wrmsr (msrCall 0xC0000080 0 2)) = some (some ⟨.generalProtection, 0x1000⟩, false) ∧
    raised (exec .wrmsr (msrCall 0xC0000080 1 0)) = some (some ⟨.generalProtection, 0x1000⟩, false) ∧
    refusal (exec .wrmsr (msrCall 0xC0000082 1 0)) = some .whcrReservedBits ∧
    refusal (exec .wrmsr (msrCall 0xC0000081 0 0)) = some (.unimplementedMsr 0xC0000081) ∧
    raised (exec .wrmsr { msrCall 0 0 0 with cpl := 3 }) = some (some ⟨.generalProtection, 0x1000⟩, false) := by decide
theorem test_rdmsr : after (exec .rdmsr { msrCall 0xC0000082 7 7 with msr := { resetMsrs with whcr := 0x11 } })
      (fun t => (t.gprAt 2, t.gprAt 0, t.pc)) = some (0, 0x11, 0x1002) ∧
    after (exec .rdmsr { msrCall 0 7 7 with msr := { resetMsrs with mcar := 0x100000002 } }) (fun t => (t.gprAt 2, t.gprAt 0)) =
      some (1, 2) := by decide
theorem test_rdmsr_stops : refusal (exec .rdmsr (msrCall 0x11 0 0)) = some (.unimplementedMsr 0x11) ∧
    raised (exec .rdmsr { msrCall 0 0 0 with mode := .virtual8086 }) = some (some ⟨.generalProtection, 0x1000⟩, false) := by
  decide
theorem test_rdtsc : raised (exec .rdtsc { flat with cr4 := 4 }) = some (some ⟨.generalProtection, 0x1000⟩, false) ∧
    after (exec .rdtsc flat) (·.pc) = some 0x1002 ∧ after (exec .rdtsc { kernel with cr4 := 4 }) (·.draws) = some 1 := by
  decide
theorem test_wbinvd :
    after (exec .wbinvd kernel) (fun t => decide (t = { kernel with pc := 0x1002, whcrDuty := .done })) = some true ∧
    raised (exec .wbinvd flat) = some (some ⟨.generalProtection, 0x1000⟩, false) := by decide

/-- Section 1.8 and program P7 (20_memory.md R89). -/
theorem test_write_allocate : whcrLimitField 0x10 * 0x400000 = 32 * 2 ^ 20 ∧ whcrLimitField 0xFE * 0x400000 = 508 * 2 ^ 20 ∧
    writeAllocateByLimit 0x10 0x01FFFFFF = true ∧ writeAllocateByLimit 0x10 0x02000000 = false ∧
    writeAllocateByLimit 0x10 0xA0000 = false ∧ writeAllocateByLimit 0x10 0xF00000 = false ∧
    writeAllocateByLimit 0x11 0xF00000 = true ∧ writeAllocateByLimit 0 0 = false := by decide

/-- 60_exceptions.md R330, R331. -/
theorem test_smm_save_area : smmIdtBaseAddress flat = 0x3FF90 ∧ smmIoTrapAddress flat = 0x3FFA4 ∧
    smmIoTrap (bytesAt 0x3FFA4 [0x0B, 0x00, 0x60, 0x00] flat) = ⟨0x0060, true, false, true, true⟩ := by decide

/-! ### Steps, the environment and RESET: sections 3.5 and 4 -/

/-- P1's second instruction at 1000h with ESI = 2000h. -/
def p1 : State := gprIs 6 0x2000 (bytesAt 0x1000 [0x0F, 0x6F, 0x4E, 0x08]
  (bytesAt 0x2008 [0x20, 0x20, 0x10, 0x80, 0x01, 0x00, 0x0E, 0x37] flat))

theorem test_step : after (step p1) (fun t => (t.mmAt 1, t.pc, t.fetched)) =
    some (0x370E000180102020, 0x1004, [0x1000, 0x1001, 0x1002, 0x1003]) := by decide

/-- P6, case b, second step: LOCK. -/
theorem test_step_lock : after (step (bytesAt 0x1000 [0xF0, 0x0F, 0xEF, 0xC9] flat)) (fun t => (t.exception, t.pc)) =
    some (some ⟨.invalidOpcode, 0x1000⟩, 0x1000) := by decide

/-- 20_memory.md R87: a store to an executed byte and the fetch of a stored byte. -/
theorem test_self_modifying_code :
    refusal (exec (.movqStore {} 0 (.mem atEbx)) { gprIs 3 0x2000 flat with fetched := [0x2007] }) = some .storeToExecutedCode ∧
    refusal (step { bytesAt 0x1000 [0x0F, 0x77] flat with stored := [0x1001] }) = some .fetchOfStoredByte := by decide

/-- EBX = 2000h and a device at 2004h. -/
def deviceAt2004 : State := { gprIs 3 0x2000 (mm 0x8877665544332211 0) with platform := [⟨.device, 0x2004, 4⟩] }

/-- 20_memory.md R83: a load reads the device once, a store writes it once, each 8 bytes wide; the other bytes are memory's. -/
theorem test_device_read :
    after (exec (.movqLoad {} 0 (.mem atEbx)) (bytesAt 0x2000 [0x11, 0x22] deviceAt2004))
      (fun t => t.deviceEvents.map fun e => (e.kind, e.addresses, e.bytes.take 4)) =
      some [(.read, (List.range 8).map (0x2000 + ·), [0x11, 0x22, 0, 0])] := by decide
theorem test_device_write :
    after (exec (.movqStore {} 0 (.mem atEbx)) deviceAt2004) (·.deviceEvents) =
      some [⟨.write, (List.range 8).map (0x2000 + ·), [0x11, 0x22, 0x33, 0x44, 0x55, 0x66, 0x77, 0x88]⟩] ∧
    after (exec (.movqStore {} 0 (.mem atEbx)) deviceAt2004) (fun t => (List.range 8).map fun k => memByte t.mem (0x2000 + k)) =
      some [0x11, 0x22, 0x33, 0x44, 0, 0, 0, 0] := by decide

/-- 20_memory.md R92; U17 of 93_implementation_defined.md with R89: 32 Mbytes write-allocated. -/
theorem test_regions :
    refusal (exec (.movqStore {} 0 (.mem atEbx)) { gprIs 3 0x2000 flat with platform := [⟨.readOnly, 0x2000, 8⟩] }) =
      some .storeToReadOnlyRegion ∧
    refusal (exec (.movqStore {} 0 (.mem atEbx)) { deviceAt2004 with msr := { resetMsrs with whcr := 0x10 } }) =
      some .storeToWriteAllocatedDevice := by decide

/-- P7 with WCDE = 1: the program is refused after WRMSR (U7), and so it is where WHCR changes with no WBINVD before (U17). -/
theorem test_whcr_duties :
    after (exec .wrmsr { msrCall 0xC0000082 0 0x110 with whcrDuty := .done }) (fun t => (t.msr.whcr, t.whcrDuty, refusal (step t))) =
      some (0x110, .due, some .wcdeSet) ∧
    after (exec .wrmsr { msrCall 0xC0000082 0 0x10 with whcrDuty := .done }) (fun t => (t.whcrDuty, programRefusal t)) =
      some (.due, none) ∧
    after (exec .wrmsr (msrCall 0xC0000082 0 0x10)) (fun t => (t.msr.whcr, t.whcrDuty, refusal (step t))) =
      some (0x10, .omitted, some .whcrChangedWithoutWbinvd) ∧
    after (exec .wrmsr (msrCall 0xC0000082 0 0)) (fun t => (t.whcrDuty, programRefusal t)) = some (.due, none) := by decide

/-- 30_encoding.md R122: the bytes as the table numbers them, and their step right after RESET. -/
theorem test_table_word : decodeTableWord 24 0xC1FC0F = some (.paddb {} 0 (.reg 1)) ∧
    decodeTableWord 16 0x770F = some (.emms {}) ∧ decodeTableWord 32 0x04F2710F = some (.psllwImm {} 2 4) ∧
    after (step (State.reset.withFetchWord 24 0xC1FC0F)) (fun t => (t.pc, t.fpu.ftw)) = some (0xFFF3, 0) := by decide

/-- Section 3.5: RESET with BIST_RESULT = 7, and INIT. -/
theorem test_reset : after (step { p1 with env := [.reset 7] }) (fun t => (t.gprAt 0, t.msr, linear t .cs t.pc)) =
    some (7, resetMsrs, 0xFFFFFFF0) := by decide
theorem test_init :
    after (step { mm 0x0123456789ABCDEF 0 with cr0 := 0x6000000D, nmiLatch := true, msr := { resetMsrs with whcr := 0x11, tsc := 9 }, env := [.init 0] })
      (fun t => (t.mmAt 0, [t.msr.whcr, t.msr.tsc], [t.cr0CD, t.cr0NW, t.cr0EM, t.cr0TS, t.nmiLatch], linear t .cs t.pc)) =
    some (0x0123456789ABCDEF, [0x11, 9], [true, true, false, false, false], 0xFFFFFFF0) := by decide

/-- P5: the trap after a task switch, and the resume after the handler. -/
theorem test_task_switch :
    after (step { bytesAt 0x1000 [0x0F, 0xFD, 0xC1] flat with cr0 := 9 }) (fun t => (t.exception, t.pc, t.fpu.ftw)) =
      some (some ⟨.deviceNotAvailable, 0x1000⟩, 0x1000, 0xFFFF) ∧
    after (step { flat with cr0 := 9, exception := some ⟨.deviceNotAvailable, 0x1000⟩, env := [.handlerInt7 resetFpu] })
      (fun t => (t.exception, t.pc, t.cr0, t.fpu)) = some (none, 0x1000, 1, resetFpu) := by decide

/-- 60_exceptions.md R320, R313: an interrupt's handler, and registers that no machine holds. -/
theorem test_interrupt :
    after (step { flat with env := [.interrupt { flat.toCpu with pc := 0x2000, eflags := 0x00200002 } [(0x30, 7)]] })
      (fun t => (t.pc, t.flagID, memByte t.mem 0x30, t.exception)) = some (0x2000, true, 7, none) ∧
    refusal (step { flat with env := [.interrupt { flat.toCpu with mode := .real } []] }) = some .illegalHandlerState ∧
    refusal (step { flat with env := [.interrupt { flat.toCpu with cpl := 2 } []] }) = some .illegalHandlerState ∧
    after (step { flat with env := [.interrupt kernel.toCpu []] }) (·.cpl) = some 0 ∧
    refusal (step { flat with env := [.handler flat.toCpu []] }) = some .handlerUnavailable := by decide

/-- 60_exceptions.md R314: no delivery. -/
theorem test_exception_stands : fault (step { flat with exception := some ⟨.pageFault, 0x1000⟩ }) =
    some (.undeliveredException .pageFault 0x1000) := by decide

theorem test_memory_canonical :
    memSetBytes [] [(5, 1), (3, 2), (5, 0), (4, 9), (3, 7)] = [(3, 7), (4, 9)] ∧
    Memory.wf [(3, 7), (4, 9)] = true ∧ Memory.wf [(4, 9), (3, 7)] = false ∧ Memory.wf [(3, 0)] = false := by decide

/-! ### Witnesses -/

/-- PADDB MM0, MM1 at 1000h. -/
def atCode : State := bytesAt 0x1000 [0x0F, 0xFC, 0xC1] flat

theorem witness_EncodeDecodeRoundTrip :
    (Instr.movqLoad { lock := true, seg := some .gs } 7 (.mem (.a32 (.sib 3 4 5 (.d8 0x80))))).wf true = true ∧
    (Instr.movqLoad { addrSize := true } 7 (.mem (.a32 (.base 7 .none)))).wf false = true ∧
    (Instr.paddb {} 0 (.mem (.a16 (.regs 6 (.d16 0xFFFF))))).wf false = true := by decide

theorem witness_ReservedShiftEncodings :
    modField 0x32 ≠ 3 ∧ (regField 0xC2 ≠ 2 ∧ regField 0xC2 ≠ 4 ∧ regField 0xC2 ≠ 6) ∧ regField 0xE0 = 4 ∧
    let s := bytesAt 0x1000 [0x0F, 0x73, 0xE0, 0x01] flat
    s.env = [] ∧ s.exception = none ∧ programRefusal s = none ∧
      decode (default32 s) ((codeAt s).map (·.2)) = .error (.reservedShift 0x73) := by decide

theorem witness_UndescribedEncodingsRefused :
    (let p : Prefixes := { lock := true, seg := some .es, addrSize := true }
     p.lock = true ∧ p.addrSize = true ∧ p.seg.isSome = true ∧ p ≠ {}) ∧
    (let s := bytesAt 0x1000 [0x90] flat
     s.env = [] ∧ s.exception = none ∧ programRefusal s = none ∧
       decode (default32 s) ((codeAt s).map (·.2)) = .error (.baseOpcode 0x90)) ∧
    ([0x00, 0x05, 0x5F, 0x6C, 0x70, 0xD0, 0xFF].all fun b =>
      decide (decode true [0x0F, b] = .error (.undescribedOpcode0F b))) = true ∧
    ([0x00, 0x0E, 0x10, 0x25, 0x27, 0x90, 0xFF].all fun b => decide (decode true [b] = .error (.baseOpcode b))) = true :=
  ⟨by decide, by decide, by decide, by decide⟩

theorem witness_StepRunsDecodedInstruction :
    (atCode.exception = none ∧ programRefusal atCode = none ∧ atCode.env = [] ∧
      decode (default32 atCode) ((codeAt atCode).map (·.2)) = .ok (paddb01, List.replicate 8 0) ∧
      fetchCheck atCode (((codeAt atCode).take ((codeAt atCode).length - 8)).map (·.1)) = none) ∧
    { atCode with env := [.quiet, .nmi] }.env = .quiet :: [.nmi] := ⟨by decide, rfl⟩

theorem witness_EncodedInstructionRuns :
    atCode.env = [] ∧ atCode.exception = none ∧ programRefusal atCode = none ∧ paddb01.wf (default32 atCode) = true ∧
    ((codeAt atCode).map (·.2)).take (encode paddb01).length = encode paddb01 ∧
    fetchCheck atCode (((codeAt atCode).take (encode paddb01).length).map (·.1)) = none := by decide

theorem witness_PcAdvancesByEncodedLength : ∃ t, exec paddb01 flat = .next t := ⟨_, rfl⟩

theorem witness_StepKeepsInvariant : atCode.Inv ∧ ∃ t, step atCode = .next t :=
  ⟨⟨by decide, by decide, fun a h => absurd h List.not_mem_nil⟩, ⟨_, rfl⟩⟩

theorem witness_LockRaisesInvalidOpcode :
    (Instr.emms { lock := true }).mmxPrefixes = some { lock := true } ∧ ({ lock := true } : Prefixes).lock = true := by decide

theorem witness_PrologueOrder :
    paddb01.mmxPrefixes = some {} ∧ (tried 4 false).cr0EM = true ∧
    ((tried 9 false).cr0EM = false ∧ (tried 9 false).cr0TS = true) ∧
    ((tried 0x21 true).cr0TS = false ∧ (tried 0x21 true).fpu.pending = true ∧ (tried 0x21 true).cr0NE = true) ∧
    ((tried 1 true).cr0NE = false ∧ (tried 1 true).ferr = false ∧ { tried 1 true with ferr := true }.ferr = true) := by decide

theorem witness_ExceptionsLeaveStateUnchanged :
    (tried 0x21 true).exception = none ∧ ∃ t, exec paddb01 (tried 0x21 true) = .next t ∧
      t.exception = some ⟨.floatingPointPending, 0x100⟩ := ⟨rfl, _, rfl, rfl⟩

/-- MOVQ MM0, [EBX]. -/
def loadEbx : Instr := .movqLoad {} 0 (.mem atEbx)

/-- MOVQ [EBX], MM0. -/
def storeEbx : Instr := .movqStore {} 0 (.mem atEbx)

theorem witness_ExceptionsByModeAndForm :
    raised (exec (.movqLoad {} 0 (.mem (.a16 (.regs 7 .none)))) (gprIs 3 0xFFF9 real)) =
      some (some ⟨.segmentOverrun, 0x100⟩, false) ∧ real.mode = .real ∧
    raised (exec loadEbx (gprIs 3 0xFFF9 { flat with mode := .virtual8086 })) =
      some (some ⟨.segmentOverrun, 0x1000⟩, false) ∧
    raised (exec loadEbx (gprIs 3 0xFFFFFFF9 flat)) = some (some ⟨.generalProtection, 0x1000⟩, false) ∧
    raised (exec paddb01 (tried 9 false)) = some (some ⟨.deviceNotAvailable, 0x100⟩, false) ∧
    paddb01.operand = some ({}, .reg 1) ∧
    raised (exec .wbinvd flat) = some (some ⟨.generalProtection, 0x1000⟩, false) ∧ Instr.wbinvd.mmxPrefixes = none := by
  decide

theorem witness_AccessCheckOrder :
    (0xFFFF < (0xFFFD : Dword).toNat + 4 - 1 ∧ ¬0xFFFF < (0xFFFC : Dword).toNat + 4 - 1 ∧ real.mode ≠ .protectedMode) ∧
    (¬SegAllows (flat.segs.get .ss) 0xFFFFFFF9 8 .read ∧ SegAllows (flat.segs.get .ds) 0xFFFFFFF8 8 .read ∧
      flat.mode = .protectedMode) ∧
    (aligned.cr0AM = true ∧ aligned.flagAC = true ∧ aligned.cpl = 3 ∧ aligned.mode ≠ .real ∧
      ((aligned.segs.get .ds).base + (0x1004 : Dword)).toNat % 8 ≠ 0) ∧
    translate paged .read 0x2000 8 = none ∧
    translate paged .read 0x3FFC 4 = some [0x9FFC, 0x9FFD, 0x9FFE, 0x9FFF] :=
  ⟨by decide, ⟨by simp [SegAllows, flat, SegFile.get, flatSeg, openRule, InRange], ⟨openRule, by decide, by decide, .inl rfl, by simp [openRule, InRange, flat, SegFile.get, flatSeg]⟩,
    rfl⟩, by decide, by decide, by decide⟩

theorem witness_AccessExceptionEndsInstruction :
    storeEbx.operand = some ({}, .mem atEbx) ∧ MmxReady {} (gprIs 3 0x2000 paged) ∧
    accessAddresses (gprIs 3 0x2000 paged) (segmentOf {} atEbx) (effectiveAddress (gprIs 3 0x2000 paged) atEbx)
      (accessOf storeEbx).1 (accessOf storeEbx).2 = .raised .pageFault := ⟨rfl, ⟨rfl, rfl, rfl, rfl⟩, by decide⟩

/-- EBX = 2000h, with byte 2007h executed, a device at 2000h or a read-only byte at 2007h. -/
def guarded (fetched : List Nat) (platform : List Region) : State :=
  { gprIs 3 0x2000 flat with fetched := fetched, platform := platform }

theorem witness_RefusedAccesses :
    storeEbx.operand = some ({}, .mem atEbx) ∧ MmxReady {} (guarded [0x2007] []) ∧
    (accessOf storeEbx).2 = .write ∧
    accessAddresses (guarded [0x2007] []) (segmentOf {} atEbx) (effectiveAddress (guarded [0x2007] []) atEbx)
      (accessOf storeEbx).1 (accessOf storeEbx).2 = .ok ((List.range 8).map (0x2000 + ·)) ∧
    (inRegion (guarded [] [⟨.device, 0x2000, 1⟩]).platform .device 0x2000 = true ∧
      writeAllocateByLimit { resetMsrs with whcr := 2 }.whcr 0x2000 = true) ∧
    inRegion (guarded [] [⟨.readOnly, 0x2007, 1⟩]).platform .readOnly 0x2007 = true ∧
    (0x2007 ∈ (guarded [0x2007] []).fetched) := ⟨rfl, ⟨rfl, rfl, rfl, rfl⟩, rfl, by decide, by decide, by decide, by decide⟩

theorem witness_PrivilegedInstructions :
    { flat with cpl := 1 }.cpl ≠ 0 ∧ { kernel with mode := .virtual8086 }.mode = .virtual8086 ∧
    { flat with cr4 := 4, cpl := 1 }.cr4TSD = true := by decide

/-- The hypotheses of `Computes`, with the source in MM1 and in memory at 2000h. -/
def Readable (d v : Qword) : Prop :=
  MmxReady {} (mm d v) ∧ (mm d v).mmAt 0 = d ∧ readSrc64 {} (.reg 1) (mm d v) = .ok (v, mm d v) ∧
    readSrc64 {} (.mem (.a32 (.abs 0x2000))) (bytesAt 0x2000 (leBytes 8 v) (mm d v)) =
      .ok (v, bytesAt 0x2000 (leBytes 8 v) (mm d v))

theorem witness_WrappingAdd : Readable 0xFF7F80000180FE01 0x010180FFFF800302 :=
  ⟨⟨rfl, rfl, rfl, rfl⟩, by decide, by decide, by decide⟩
theorem witness_WrappingSubtract : Readable 0x000080017FFF1010 0x01FF010280FF1011 :=
  ⟨⟨rfl, rfl, rfl, rfl⟩, by decide, by decide, by decide⟩
theorem witness_SignedSaturation : Readable 0x7F80807F7F01FF00 0x01FF80807FFF0100 :=
  ⟨⟨rfl, rfl, rfl, rfl⟩, by decide, by decide, by decide⟩
theorem witness_UnsignedSaturation : Readable 0xFFFFFF807F010000 0x01FF008080FF00FF :=
  ⟨⟨rfl, rfl, rfl, rfl⟩, by decide, by decide, by decide⟩
theorem witness_Multiply : Readable 0x8000800080008000 0x8000800080008000 :=
  ⟨⟨rfl, rfl, rfl, rfl⟩, by decide, by decide, by decide⟩
theorem witness_CompareEqual : Readable 0x0011223344556677 0x0010223044556670 :=
  ⟨⟨rfl, rfl, rfl, rfl⟩, by decide, by decide, by decide⟩
theorem witness_CompareGreater : Readable 0x7F8000FF01807F7F 0x807FFF0000807E7F :=
  ⟨⟨rfl, rfl, rfl, rfl⟩, by decide, by decide, by decide⟩
theorem witness_PackSaturates : Readable 0x0080FF80FF7F007F 0x80007FFF0000FFFF :=
  ⟨⟨rfl, rfl, rfl, rfl⟩, by decide, by decide, by decide⟩
theorem witness_UnpackHigh : Readable 0x0102030405060708 0x1112131415161718 :=
  ⟨⟨rfl, rfl, rfl, rfl⟩, by decide, by decide, by decide⟩
theorem witness_UnpackLow : Readable 0x0102030405060708 0x1112131415161718 :=
  ⟨⟨rfl, rfl, rfl, rfl⟩, by decide, by decide, by decide⟩
theorem witness_LogicalBitwise : Readable 0xFFFF0000F0F01234 0x123456780FF0FFFF :=
  ⟨⟨rfl, rfl, rfl, rfl⟩, by decide, by decide, by decide⟩
theorem witness_ShiftLeft : Readable 0x8001FFFF00011234 0x0000000000000040 :=
  ⟨⟨rfl, rfl, rfl, rfl⟩, by decide, by decide, by decide⟩
theorem witness_ShiftRightLogical : Readable 0x8001FFFF00011234 0x000000000000000F :=
  ⟨⟨rfl, rfl, rfl, rfl⟩, by decide, by decide, by decide⟩
theorem witness_ShiftRightArithmetic : Readable 0x80017FFFFFFF1234 0x0000000000010000 :=
  ⟨⟨rfl, rfl, rfl, rfl⟩, by decide, by decide, by decide⟩

theorem witness_MoveLoads : Readable 0 0x0123456789ABCDEF ∧
    readSrc32 {} (.reg 2) (gprIs 2 0xFFFFFFFF flat) = .ok (0xFFFFFFFF, gprIs 2 0xFFFFFFFF flat) ∧
    readSrc32 {} (.mem (.a32 (.abs 0x1004))) ordered = .ok (0x88776655, ordered) :=
  ⟨⟨⟨rfl, rfl, rfl, rfl⟩, by decide, by decide, by decide⟩, by decide, by decide⟩

theorem witness_MoveStoresToRegisters : MmxReady { seg := some .fs } (mm 5 6) := ⟨rfl, rfl, rfl, rfl⟩

theorem witness_MoveStoresToMemory :
    let s := guarded [] []
    Memory.wf s.mem = true ∧ MmxReady {} s ∧ StorePermitted s ((List.range 8).map (0x2000 + ·)) ∧
    accessAddresses s (segmentOf {} atEbx) (effectiveAddress s atEbx) 8 .write = .ok ((List.range 8).map (0x2000 + ·)) ∧
    StorePermitted s ((List.range 4).map (0x2000 + ·)) ∧
    accessAddresses s (segmentOf {} atEbx) (effectiveAddress s atEbx) 4 .write = .ok ((List.range 4).map (0x2000 + ·)) ∧
    NoDevice s ((List.range 8).map (0x2000 + ·)) ∧
    (MmxReady {} deviceAt2004 ∧ StorePermitted deviceAt2004 ((List.range 8).map (0x2000 + ·)) ∧
      TouchesDevice deviceAt2004 ((List.range 8).map (0x2000 + ·)) ∧
      accessAddresses deviceAt2004 (segmentOf {} atEbx) (effectiveAddress deviceAt2004 atEbx) 8 .write =
        .ok ((List.range 8).map (0x2000 + ·))) :=
  ⟨by decide, ⟨rfl, rfl, rfl, rfl⟩, fun _ _ => ⟨rfl, fun h => (nomatch h), List.not_mem_nil⟩, by decide,
    fun _ _ => ⟨rfl, fun h => (nomatch h), List.not_mem_nil⟩, by decide, fun _ _ => rfl,
    ⟨rfl, rfl, rfl, rfl⟩, fun _ _ => ⟨rfl, fun _ => rfl, List.not_mem_nil⟩, ⟨0x2004, by decide, by decide⟩, by decide⟩

theorem witness_MemorySourceIsLittleEndian :
    NoDevice flat ((List.range 8).map (0xFFFFFFF8 + ·)) ∧
    (TouchesDevice deviceAt2004 ((List.range 8).map (0x2000 + ·)) ∧
      accessAddresses deviceAt2004 (segmentOf {} atEbx) (effectiveAddress deviceAt2004 atEbx) 8 .read =
        .ok ((List.range 8).map (0x2000 + ·))) ∧
    accessAddresses (gprIs 3 0xFFFFFFF8 flat) (segmentOf {} atEbx) (effectiveAddress (gprIs 3 0xFFFFFFF8 flat) atEbx) 8 .read =
      .ok ((List.range 8).map (0xFFFFFFF8 + ·)) ∧
    accessAddresses (gprIs 3 0xFFFFFFFC flat) (segmentOf {} atEbx) (effectiveAddress (gprIs 3 0xFFFFFFFC flat) atEbx) 4 .read =
      .ok ((List.range 4).map (0xFFFFFFFC + ·)) :=
  ⟨fun _ _ => rfl, ⟨⟨0x2004, by decide, by decide⟩, by decide⟩, by decide, by decide⟩

theorem witness_EmmsEmptiesTags : MmxReady { seg := some .cs } (mm 5 6) := ⟨rfl, rfl, rfl, rfl⟩

theorem witness_CpuidValues : (gprIs 0 0 flat).gprAt 0 = 0 ∧ (gprIs 0 0x80000005 flat).gprAt 0 = 0x80000005 := by decide

theorem witness_RdmsrReads : kernel.cpl = 0 ∧ kernel.mode ≠ .virtual8086 ∧
    [0x00000000, 0x00000001, 0x0000000E, 0x00000010, 0xC0000080, 0xC0000082].all
      (fun n => decide ((msrCall n 0 0).gprAt 1 = n)) = true := by decide

/-- The largest values that EFER and WHCR take. -/
theorem witness_WrmsrWrites : (msrCall 0xC0000080 0 1).cpl = 0 ∧ (msrCall 0xC0000080 0 1).mode ≠ .virtual8086 ∧
    (msrCall 0xC0000080 0 1).gprAt 1 = 0xC0000080 ∧
    ((msrCall 0xC0000080 0 1).gprAt 2 ++ (msrCall 0xC0000080 0 1).gprAt 0 : Qword).toNat = 1 ∧
    (msrCall 0xC0000082 0 511).gprAt 1 = 0xC0000082 ∧
    ((msrCall 0xC0000082 0 511).gprAt 2 ++ (msrCall 0xC0000082 0 511).gprAt 0 : Qword).toNat = 511 ∧
    ((msrCall 0xC0000082 0 511).msr.whcr = 0 ∧ (msrCall 0xC0000082 0 511).whcrDuty = .due ∧
      { msrCall 0xC0000082 0 511 with whcrDuty := .done }.whcrDuty = .done) ∧
    [0x00000000, 0x00000001, 0x0000000E, 0x00000010].all (fun n => decide ((msrCall n 0 0).gprAt 1 = n)) = true := by decide

/-- The smallest values that EFER and WHCR do not take, and a number with no register. -/
theorem witness_MsrStops :
    ((msrCall 0xC0000080 0 2).gprAt 2 ++ (msrCall 0xC0000080 0 2).gprAt 0 : Qword).toNat = 2 ∧
    ((msrCall 0xC0000082 0 512).gprAt 2 ++ (msrCall 0xC0000082 0 512).gprAt 0 : Qword).toNat = 512 ∧
    (msrCall 0xC0000081 0 0).gprAt 1 ∉
      [(0x00000000 : Dword), 0x00000001, 0x0000000E, 0x00000010, 0xC0000080, 0xC0000082] ∧
    (msrCall 0xC0000081 0 0).cpl = 0 ∧ (msrCall 0xC0000081 0 0).mode ≠ .virtual8086 ∧
    (kernel.env = [] ∧ kernel.exception = none) ∧ { kernel with msr := { resetMsrs with whcr := 0x100 } }.msr.whcr.getLsbD 8 = true ∧
    (kernel.msr.whcr.getLsbD 8 = false ∧ { kernel with whcrDuty := .omitted }.whcrDuty = .omitted ∧ kernel.whcrDuty ≠ .omitted) := by
  decide

theorem witness_RdtscReads : flat.cr4TSD = false ∧ flat.cpl = 3 ∧ { kernel with cr4 := 4 }.cr4TSD = true ∧
    { kernel with cr4 := 4 }.cpl = 0 := by decide

theorem witness_WbinvdAdvances : kernel.cpl = 0 ∧ kernel.mode ≠ .virtual8086 ∧ kernel.whcrDuty ≠ .omitted ∧
    { kernel with whcrDuty := .omitted }.whcrDuty = .omitted := by decide

theorem witness_TagWordRule :
    paddb01.mmxPrefixes = some {} ∧ paddb01 ≠ .emms {} ∧ flat.exception = none ∧ (tried 9 false).exception = none ∧
    (∃ t, exec paddb01 flat = .next t ∧ t.exception = none ∧ t.fpu.ftw = 0) ∧
    (∃ t, exec paddb01 (tried 9 false) = .next t ∧ t.exception ≠ none ∧ t.fpu.ftw = 0xFFFF) ∧
    ∃ t, exec paddb01 (tried 1 true) = .next t ∧ t.exception = none ∧ t.fpu.ftw = 0xFFFF :=
  ⟨by decide, by decide, rfl, rfl, ⟨_, rfl, rfl, rfl⟩, ⟨_, rfl, by decide, rfl⟩, ⟨_, rfl, rfl, rfl⟩⟩

theorem witness_ControlStateNeverWritten : (∃ t, exec storeEbx (guarded [] []) = .next t) ∧
    ∃ t, exec .wrmsr (msrCall 0x10 1 2) = .next t := ⟨⟨_, rfl⟩, ⟨_, rfl⟩⟩

theorem witness_GeneralRegisterWriters :
    (∃ t, exec (.movdStore {} 0 (.reg 7)) (mm 9 0) = .next t ∧ t.gprAt 7 ≠ (mm 9 0).gprAt 7) ∧
    (∃ t, exec .cpuid flat = .next t ∧ t.gprAt 1 ≠ flat.gprAt 1) ∧
    ∃ t, exec .rdmsr { msrCall 0 0 0 with msr := { resetMsrs with mcar := 5 } } = .next t ∧
      t.gprAt 0 ≠ (msrCall 0 0 0).gprAt 0 := ⟨⟨_, rfl, by decide⟩, ⟨_, rfl, by decide⟩, ⟨_, rfl, by decide⟩⟩

theorem witness_MemoryWriters : (∃ t, exec storeEbx (guarded [] []) = .next t) ∧ ∃ t, exec paddb01 flat = .next t :=
  ⟨⟨_, rfl⟩, ⟨_, rfl⟩⟩

theorem witness_MsrWriters : (∃ t, exec .wrmsr (msrCall 0x10 1 2) = .next t ∧ t.msr.tsc = 0x100000002) ∧
    (∃ t, exec .rdtsc flat = .next t) ∧ (∃ t, exec paddb01 flat = .next t) ∧ paddb01.mmxPrefixes.isSome = true :=
  ⟨⟨_, rfl, by decide⟩, ⟨_, rfl⟩, ⟨_, rfl⟩, rfl⟩

theorem witness_SystemInstructionsIgnoreMmxState :
    Instr.rdmsr ∈ [Instr.cpuid, .rdmsr, .wrmsr, .rdtsc, .wbinvd] ∧ (∃ t, exec .rdmsr (msrCall 0x10 0 0) = .next t) ∧
    ∃ r, exec .rdmsr (msrCall 0x11 0 0) = .refused r := ⟨by decide, ⟨_, rfl⟩, ⟨_, rfl⟩⟩

theorem witness_ResetStatedValues : { flat with env := [.reset 7, .quiet] }.env = .reset 7 :: [.quiet] := rfl

theorem witness_InitKeepsAndSets : { flat with env := [.init 7, .quiet] }.env = .init 7 :: [.quiet] := rfl

theorem witness_Int7HandlerResumes :
    let s := { flat with cr0 := 9, exception := some ⟨.deviceNotAvailable, 0x1000⟩, env := [.handlerInt7 resetFpu] }
    s.env = .handlerInt7 resetFpu :: [] ∧ s.exception = some { kind := .deviceNotAvailable, pc := 0x1000 } := ⟨rfl, rfl⟩

theorem witness_TaskSwitchTrapsThenRestarts :
    let s := { flat with env := [.taskSwitch, .handlerInt7 resetFpu] }
    paddb01.mmxPrefixes = some {} ∧ ({} : Prefixes).lock = false ∧ s.cr0EM = false ∧
    s.env = .taskSwitch :: .handlerInt7 resetFpu :: [] ∧ resetFpu.pending = false := ⟨rfl, rfl, rfl, rfl, rfl⟩

/-- The hypotheses of `Gives` and `GivesImm`. -/
def Held (a b : Qword) : Prop :=
  MmxReady {} (mm a b) ∧ (mm a b).mmAt 0 = a ∧ readSrc64 {} (.reg 1) (mm a b) = .ok (b, mm a b)

theorem witness_CompareLaws : Held 0x80017FFFFFFF1234 0x7FFF800000001234 := ⟨⟨rfl, rfl, rfl, rfl⟩, by decide, by decide⟩

theorem witness_LogicalLaws : ((.pxor : RmForm) = .pand ∨ (.pxor : RmForm) = .por ∨ (.pxor : RmForm) = .pxor) ∧ Held 0xFFFF0000F0F01234 0x123456780FF0FFFF :=
  ⟨.inr (.inr rfl), ⟨rfl, rfl, rfl, rfl⟩, by decide, by decide⟩

theorem witness_ArithmeticLaws : Held 0x8000800080008000 0x80007FFF8000FFFF := ⟨⟨rfl, rfl, rfl, rfl⟩, by decide, by decide⟩

/-- The ends of the three ranges. -/
theorem witness_ConvertLaws : Held 0xFF80007F000000FF 0 ∧
    (∀ k < 4, -128 ≤ (wordAt 0xFF80007F0000FFFF k).toInt ∧ (wordAt 0xFF80007F0000FFFF k).toInt ≤ 127) ∧
    (∀ k < 4, 0 ≤ (wordAt 0x00FF000000010080 k).toInt ∧ (wordAt 0x00FF000000010080 k).toInt ≤ 255) ∧
    (∀ k < 2, -32768 ≤ (dwordAt 0xFFFF800000007FFF k).toInt ∧ (dwordAt 0xFFFF800000007FFF k).toInt ≤ 32767) :=
  ⟨⟨⟨rfl, rfl, rfl, rfl⟩, by decide, by decide⟩, by decide, by decide, by decide⟩

theorem witness_ShiftLaws : Held 0x80017FFFFFFF1234 31 ∧ (15 : Nat) < 16 ∧ (31 : Nat) < 32 ∧ (63 : Nat) < 64 ∧
    (0x7FFF : Word).msb = false := ⟨⟨⟨rfl, rfl, rfl, rfl⟩, by decide, by decide⟩, by decide, by decide, by decide, by decide⟩

theorem witness_MoveRoundTrips :
    let s := { guarded [] [] with fpu := (mm 0x0123456789ABCDEF 0).fpu }
    Memory.wf s.mem = true ∧ MmxReady {} s ∧
    (∀ k ∈ [Access.read, .write],
      accessAddresses s (segmentOf {} atEbx) (effectiveAddress s atEbx) 8 k = .ok ((List.range 8).map (0x2000 + ·)) ∧
      accessAddresses s (segmentOf {} atEbx) (effectiveAddress s atEbx) 4 k = .ok ((List.range 4).map (0x2000 + ·))) ∧
    StorePermitted s ((List.range 8).map (0x2000 + ·)) ∧ NoDevice s ((List.range 8).map (0x2000 + ·)) ∧
    StorePermitted s ((List.range 4).map (0x2000 + ·)) ∧ NoDevice s ((List.range 4).map (0x2000 + ·)) ∧
    ((List.range 8).map (0x2000 + ·)).Nodup ∧ ((List.range 4).map (0x2000 + ·)).Nodup :=
  ⟨by decide, ⟨rfl, rfl, rfl, rfl⟩, by decide, fun _ _ => ⟨rfl, fun h => (nomatch h), List.not_mem_nil⟩, fun _ _ => rfl,
    fun _ _ => ⟨rfl, fun h => (nomatch h), List.not_mem_nil⟩, fun _ _ => rfl, by decide, by decide⟩

theorem witness_EffectiveAddresses :
    (let s := gprIs 3 0x1FFFF (gprIs 5 0x18000 real)
     ((7 : Fin 8), 0x1FFFF) ∈ [((0 : Fin 8), (s.gprAt 3).toNat + (s.gprAt 6).toNat), (1, (s.gprAt 3).toNat + (s.gprAt 7).toNat),
       (2, (s.gprAt 5).toNat + (s.gprAt 6).toNat), (3, (s.gprAt 5).toNat + (s.gprAt 7).toNat), (4, (s.gprAt 6).toNat),
       (5, (s.gprAt 7).toNat), (6, (s.gprAt 5).toNat), (7, (s.gprAt 3).toNat)]) ∧
    ({ seg := some .fs } : Prefixes).seg = some .fs ∧ ({} : Prefixes).seg = none := by decide

theorem witness_UnpagedTranslationIsIdentity : { paged with mode := .real }.mode = .real ∧ flat.pages = [] := ⟨rfl, rfl⟩

end Sys2Proof.Tests
end

section
/-! Lemmas for the statements about the state as a whole (10_state.md): what an instruction may write at all, when registers
are legal, the reserved bits of EFER and WHCR, and how `step` takes a move of the environment. -/

namespace Sys2Proof.Machine

/-! ### What an instruction may write -/

/-- Reading a source changes at most the number of draws and the record of device accesses. -/
theorem ReadEffect.eq_with {n : Nat} {s u : State} (h : ReadEffect n s u) :
    ∃ draws events, u = { s with draws := draws, deviceEvents := events } := by
  rcases h with rfl | ⟨e, -, -, -, rfl⟩
  · exact ⟨u.draws, u.deviceEvents, rfl⟩
  · exact ⟨_, _, rfl⟩

/-- The state `s` with every part that some instruction writes taken from `t`. -/
def withWritten (s t : State) : State :=
  { s with
    gpr := t.gpr
    pc := t.pc
    fpu := { s.fpu with mm := t.fpu.mm, high := t.fpu.high, ftw := t.fpu.ftw, top := t.fpu.top }
    msr := t.msr
    ferr := t.ferr
    exception := t.exception
    mem := t.mem
    stored := t.stored
    deviceEvents := t.deviceEvents
    whcrDuty := t.whcrDuty
    draws := t.draws }

/-- An instruction that completes changes no part of the state but those of `withWritten`. -/
theorem Completed.eq_withWritten {i : Instr} {s t : State} (h : Completed i s t) : t = withWritten s t := by
  cases h with
  | register d r hp hr hw he hm => obtain ⟨_, _, rfl⟩ := he.eq_with; rfl
  | _ => rfl

/-- An instruction that does not complete changes at most the outcome and FERR#. -/
theorem NotCompleted.eq_withWritten {s t : State} (h : NotCompleted s t) : t = withWritten s t := by
  rcases h with ⟨e, rfl⟩ | rfl <;> rfl

/-- The frame of every instruction, completed or not. -/
theorem exec_eq_withWritten {i : Instr} {s t : State} (h : exec i s = .next t) : t = withWritten s t :=
  (exec_next_cases h).elim NotCompleted.eq_withWritten Completed.eq_withWritten

/-! ### Registers that a machine can hold -/

/-- `Cpu.legal` as a conjunction of conditions. -/
theorem Cpu.legal_iff {c : Cpu} :
    c.legal = true ↔
      c.mode = c.modeFromBits ∧ (c.mode = .real → c.cpl = 0) ∧ (c.mode = .virtual8086 → c.cpl = 3) ∧
        (c.mode = .protectedMode → c.cpl.val = c.segs.cs.selector.toNat % 4) ∧
        c.msr.efer >>> 1 = 0 ∧ c.msr.whcr >>> 9 = 0 := by
  simp only [Cpu.legal, Bool.and_eq_true, Bool.or_eq_true, beq_iff_eq, bne_iff_ne, ne_eq, imp_iff_not_or, and_assoc]

/-- Registers with CR0.PE = 0, in Real mode at level 0, are legal where the reserved bits of EFER and WHCR are 0. -/
theorem Cpu.legal_of_real {c : Cpu} (hpe : c.cr0.getLsbD 0 = false) (hmode : c.mode = .real) (hcpl : c.cpl = 0)
    (hefer : c.msr.efer >>> 1 = 0) (hwhcr : c.msr.whcr >>> 9 = 0) : c.legal = true := by
  have hbits : c.modeFromBits = .real := by rw [Cpu.modeFromBits, hpe]; rfl
  simp [Cpu.legal_iff, hmode, hbits, hcpl, hefer, hwhcr]

/-- A change of CR0 that keeps PE keeps the registers legal. -/
theorem Cpu.legal_setCr0 {c : Cpu} {v : Dword} (h : v.getLsbD 0 = c.cr0.getLsbD 0) :
    Cpu.legal { c with cr0 := v } = c.legal := by
  simp only [Cpu.legal, Cpu.modeFromBits, h]

theorem setTS_getLsbD (cr0 : Dword) (k : Nat) : (setTS cr0).getLsbD k = (cr0.getLsbD k || decide (k = 3)) := by
  rw [setTS, show cr0TSMask = BitVec.twoPow 32 3 from rfl, BitVec.getLsbD_or, BitVec.getLsbD_twoPow]
  simp [eq_comm]

theorem clearTS_getLsbD (cr0 : Dword) (k : Nat) : (clearTS cr0).getLsbD k = (cr0.getLsbD k && decide (k ≠ 3)) := by
  rw [clearTS, show cr0TSMask = BitVec.twoPow 32 3 from rfl, BitVec.getLsbD_and, BitVec.getLsbD_not,
    BitVec.getLsbD_twoPow]
  by_cases hk : k < 32
  · simp [hk, eq_comm]
  · simp [BitVec.getLsbD_of_ge cr0 k (by omega)]

/-- INIT takes CD and NW from the old CR0, every other bit from the fresh one (10_state.md R51). -/
theorem keepCacheBits_getLsbD (old fresh : Dword) (k : Nat) :
    (keepCacheBits old fresh).getLsbD k = if k = 29 ∨ k = 30 then old.getLsbD k else fresh.getLsbD k := by
  have hmask : ∀ j < 32, cacheBitsMask.getLsbD j = decide (j = 29 ∨ j = 30) := by decide
  by_cases hk : k < 32
  · simp only [keepCacheBits, BitVec.getLsbD_or, BitVec.getLsbD_and, BitVec.getLsbD_not, hmask k hk]
    by_cases hc : k = 29 ∨ k = 30 <;> simp [hk, hc]
  · have hge : 32 ≤ k := by omega
    simp [BitVec.getLsbD_of_ge _ k hge]

/-- PE, EM and TS are clear after RESET (log 18). -/
theorem resetCpu_cr0_clear (eax : Dword) : ∀ k ∈ [0, 2, 3], (resetCpu eax).cr0.getLsbD k = false :=
  show ∀ k ∈ [0, 2, 3], (0x60000010 : Dword).getLsbD k = false by decide

/-- They are clear after INIT too. -/
theorem keepCacheBits_reset_clear (old eax : Dword) :
    ∀ k ∈ [0, 2, 3], (keepCacheBits old (resetCpu eax).cr0).getLsbD k = false := by
  intro k hk
  have hcache : ¬(k = 29 ∨ k = 30) := by
    simp only [List.mem_cons, List.not_mem_nil, or_false] at hk
    omega
  rw [keepCacheBits_getLsbD, if_neg hcache, resetCpu_cr0_clear eax k hk]

/-! ### Reserved bits -/

/-- The low `k` bits of a quadword: `eferMask` for `k` = 1, `whcrMask` for `k` = 9. -/
def lowMask (k : Nat) : Qword := BitVec.ofNat 64 (2 ^ k - 1)

theorem eferMask_eq : eferMask = lowMask 1 := rfl
theorem whcrMask_eq : whcrMask = lowMask 9 := rfl

theorem and_lowMask_getLsbD (v : Qword) (k j : Nat) :
    (v &&& lowMask k).getLsbD j = (decide (j < k) && v.getLsbD j) := by
  by_cases hj : j < 64
  · simp only [lowMask, BitVec.getLsbD_and, BitVec.getLsbD_ofNat, Nat.testBit_two_pow_sub_one, hj, decide_true,
      Bool.true_and, Bool.and_comm]
  · simp [BitVec.getLsbD_of_ge _ j (show 64 ≤ j by omega)]

/-- The bits from `k` on are all 0 exactly where the value is below `2 ^ k`. -/
theorem and_not_lowMask_eq_zero {v : Qword} {k : Nat} : v &&& ~~~lowMask k = 0 ↔ v.toNat < 2 ^ k := by
  have hbit : ∀ j < 64, (v &&& ~~~lowMask k).getLsbD j = (v.getLsbD j && !decide (j < k)) := by
    intro j hj
    simp only [lowMask, BitVec.getLsbD_and, BitVec.getLsbD_not, BitVec.getLsbD_ofNat, Nat.testBit_two_pow_sub_one, hj,
      decide_true, Bool.true_and]
  constructor
  · intro h
    refine Nat.lt_pow_two_of_testBit _ fun j hj => ?_
    by_cases hj64 : j < 64
    · have hzero := hbit j hj64
      simpa [h, Nat.not_lt.mpr hj, BitVec.getLsbD] using hzero.symm
    · exact BitVec.getLsbD_of_ge v j (by omega)
  · intro h
    refine BitVec.eq_of_getLsbD_eq fun j hj => ?_
    rw [hbit j hj]
    by_cases hjk : j < k
    · simp [hjk]
    · have hlt : v.toNat < 2 ^ j := h.trans_le (Nat.pow_le_pow_right (by decide) (by omega))
      simp [BitVec.getLsbD, Nat.testBit_lt_two_pow hlt]

/-- `programRefusal` looks at bit 8 of WHCR. -/
theorem whcr_and_wcdeMask_eq_zero (v : Qword) : v &&& wcdeMask = 0 ↔ v.getLsbD 8 = false := by
  rw [show wcdeMask = BitVec.twoPow 64 8 from rfl, BitVec.and_twoPow]
  cases v.getLsbD 8 <;> decide

/-! ### How a step begins -/

/-- A step takes the environment's next move. -/
theorem step_of_move {s : State} {m : EnvMove} {moves : List EnvMove} (h : s.env = m :: moves) :
    step s = environmentStep m { s with env := moves } := by
  simp [step, h]

/-- With no move left a step is one instruction. -/
theorem step_of_no_move {s : State} (h : s.env = []) : step s = processorStep s := by
  simp [step, h]

/-- All that one instruction of the processor can do when it answers a next state: its bytes passed the fetch check and are
recorded, and it was executed. -/
theorem processorStep_next {s t : State} (h : processorStep s = .next t) :
    ∃ i addresses, fetchCheck s addresses = none ∧ exec i (s.recordFetch addresses) = .next t := by
  unfold processorStep at h
  split at h
  · cases h
  · split at h
    · cases h
    · split at h
      · cases h
      · rename_i i rest _
        dsimp only at h
        split at h
        · cases h
        · exact ⟨i, _, ‹_›, h⟩

/-- A program that `programRefusal` names is refused before anything is fetched. -/
theorem processorStep_refused {s : State} {r : Refusal} (he : s.exception = none) (hr : programRefusal s = some r) :
    processorStep s = .refused r := by
  simp [processorStep, he, hr]

end Sys2Proof.Machine
end

section
/-! The invariant of every step: each operation that changes memory, registers or the record of the executed and stored bytes
keeps it (10_state.md R40, R45, R46; 20_memory.md R87). -/

namespace Sys2Proof.Machine

/-- The addresses of a bus master's write lie in the address space. -/
theorem busCells_lt (address : Dword) (bytes : List Byte) : ∀ c ∈ busCells address bytes, c.1 < memorySize := by
  induction bytes generalizing address with
  | nil => simp [busCells]
  | cons b rest ih => exact List.forall_mem_cons.mpr ⟨address.isLt, ih (address + 1)⟩

/-- Fetching bytes that the program has not stored keeps the invariant. -/
theorem State.Inv.recordFetch {s : State} {addresses : List Nat} (h : s.Inv) (hf : fetchCheck s addresses = none) :
    (s.recordFetch addresses).Inv := by
  obtain ⟨-, -, hstored⟩ := fetchCheck_none hf
  refine ⟨h.memory, h.registers, fun a ha => ?_⟩
  rcases mem_addAddresses.mp ha with hold | hnew
  · exact h.code a hold
  · exact (hstored a hnew).2

/-- An instruction that does not complete keeps the invariant. -/
theorem NotCompleted.inv {s t : State} (h : NotCompleted s t) (hs : s.Inv) : t.Inv := by
  rcases h with ⟨e, rfl⟩ | rfl <;> exact ⟨hs.memory, hs.registers, hs.code⟩

/-- A permitted store keeps the invariant: it writes inside the address space, and no executed byte. -/
theorem storeResult_inv {s : State} {g : SegReg} {off : Dword} {n length : Nat} {l : List Nat} {b : List Byte}
    {events : List DeviceEvent} (hs : s.Inv) (hl : accessAddresses s g off n .write = .ok l) (hp : StorePermitted s l) :
    (storeResult s (storeBytes s l b) events l length).Inv := by
  obtain ⟨-, -, htranslate⟩ := accessAddresses_eq_ok.mp hl
  refine ⟨storeBytes_wf hs.memory (translate_lt htranslate), hs.registers, fun a ha hstored => ?_⟩
  rcases mem_addAddresses.mp hstored with hold | hnew
  · exact hs.code a ha hold
  · obtain ⟨-, -, hunfetched⟩ := hp a hnew
    exact hunfetched ha

/-- WRMSR keeps the registers legal: it writes no reserved bit of EFER or WHCR. -/
theorem writeMsr_legal {n : Dword} {v : Qword} {s t : State} (h : writeMsr n v s = .ok t) (hs : s.toCpu.legal = true) :
    t.toCpu.legal = true := by
  obtain ⟨hmode, hreal, hv86, hprot, hefer, hwhcr⟩ := Cpu.legal_iff.mp hs
  have hreserved := writeMsr_reserved h hefer hwhcr
  obtain ⟨m, d, rfl⟩ := writeMsr_frame h
  exact Cpu.legal_iff.mpr ⟨hmode, hreal, hv86, hprot, hreserved⟩

/-- An instruction that completes keeps the invariant. -/
theorem Completed.inv {i : Instr} {s t : State} (h : Completed i s t) (hs : s.Inv) : t.Inv := by
  cases h with
  | register d r hp hr hw he hm =>
    obtain ⟨_, _, rfl⟩ := he.eq_with
    exact ⟨hs.memory, hs.registers, hs.code⟩
  | toMemory src m l b hi hr hb hl hp => exact storeResult_inv hs hl hp
  | wrmsr m d h0 hw =>
    have hlegal := writeMsr_legal hw hs.registers
    exact ⟨hs.memory, hlegal, hs.code⟩
  | toGpr | emms | cpuid | edxEax | wbinvd => exact ⟨hs.memory, hs.registers, hs.code⟩

/-- Every instruction keeps the invariant. -/
theorem exec_inv {i : Instr} {s t : State} (h : exec i s = .next t) (hs : s.Inv) : t.Inv :=
  (exec_next_cases h).elim (·.inv hs) (·.inv hs)

/-- One instruction of the processor, with its fetch, keeps the invariant. -/
theorem processorStep_inv {s t : State} (h : processorStep s = .next t) (hs : s.Inv) : t.Inv := by
  obtain ⟨i, addresses, hf, hexec⟩ := processorStep_next h
  exact exec_inv hexec (hs.recordFetch hf)

/-- A change of CR0 that keeps PE keeps the invariant. -/
theorem State.Inv.setCr0 {s : State} {v : Dword} (hs : s.Inv) (hv : v.getLsbD 0 = s.cr0.getLsbD 0) :
    State.Inv { s with cr0 := v } :=
  ⟨hs.memory, (Cpu.legal_setCr0 (c := s.toCpu) hv).trans hs.registers, hs.code⟩

/-- Writes from outside the program, inside the address space, keep the invariant. -/
theorem State.Inv.setBytes {s : State} {cells : List (Nat × Byte)} (hs : s.Inv) (hc : ∀ c ∈ cells, c.1 < memorySize) :
    State.Inv { s with mem := memSetBytes s.mem cells } :=
  ⟨memSetBytes_wf hs.memory hc, hs.registers, hs.code⟩

/-- The registers after RESET are legal, whatever page rules are kept. -/
theorem resetCpu_legal (eax : Dword) (pages : List PageRule) : Cpu.legal { resetCpu eax with pages } = true :=
  Cpu.legal_of_real (resetCpu_cr0_clear eax 0 (by decide)) rfl rfl BitVec.zero_ushiftRight
    BitVec.zero_ushiftRight

/-- RESET leaves nothing executed or stored. -/
theorem resetMove_inv (bist : Dword) {s : State} (hs : s.Inv) : (resetMove bist s).Inv :=
  ⟨hs.memory, resetCpu_legal bist s.pages, fun _ h => nomatch h⟩

/-- INIT leaves Real mode at level 0, and the MSRs as they were. -/
theorem initMove_inv (eax : Dword) {s : State} (hs : s.Inv) : (initMove eax s).Inv := by
  obtain ⟨-, -, -, -, hefer, hwhcr⟩ := Cpu.legal_iff.mp hs.registers
  have hpe := keepCacheBits_reset_clear s.cr0 eax 0 (by decide)
  exact ⟨hs.memory, Cpu.legal_of_real hpe rfl rfl hefer hwhcr, hs.code⟩

/-- The int 7 handler clears CR0.TS, which the invariant does not speak of. -/
theorem handlerInt7_inv {fp : Fpu} {s t : State} (h : handlerInt7 fp s = .next t) (hs : s.Inv) : t.Inv := by
  unfold handlerInt7 at h
  split at h
  · cases h
    have hcr0 := hs.setCr0 (v := clearTS s.cr0) (by rw [clearTS_getLsbD]; exact Bool.and_true _)
    exact ⟨hcr0.memory, hcr0.registers, hcr0.code⟩
  · cases h

/-- A handler returns with legal registers, or the model refuses. -/
theorem handlerReturn_inv {after : Cpu} {writes : List (Dword × Byte)} {s t : State}
    (h : handlerReturn after writes s = .next t) (hs : s.Inv) : t.Inv := by
  unfold handlerReturn at h
  split at h
  · rename_i hlegal
    cases h
    have hmem := hs.setBytes (cells := writes.map fun w => (w.1.toNat, w.2)) fun c hc => by
      obtain ⟨w, -, rfl⟩ := List.mem_map.mp hc
      exact w.1.isLt
    exact ⟨hmem.memory, hlegal, hmem.code⟩
  · cases h

/-- Every move of the environment keeps the invariant. -/
theorem environmentStep_inv {m : EnvMove} {s t : State} (h : environmentStep m s = .next t) (hs : s.Inv) : t.Inv := by
  cases m with
  | quiet => exact processorStep_inv h hs
  | reset bist => cases h; exact resetMove_inv bist hs
  | init eax => cases h; exact initMove_inv eax hs
  | nmi => cases h; exact ⟨hs.memory, hs.registers, hs.code⟩
  | smi => cases h; exact ⟨hs.memory, hs.registers, hs.code⟩
  | flush => cases h; exact ⟨hs.memory, hs.registers, hs.code⟩
  | taskSwitch => cases h; exact hs.setCr0 (by rw [setTS_getLsbD]; exact Bool.or_false _)
  | handlerInt7 fp => exact handlerInt7_inv h hs
  | handler after writes =>
    rw [environmentStep, handlerMove] at h
    split at h
    · cases h
    · exact handlerReturn_inv h hs
  | interrupt after writes =>
    rw [environmentStep, interruptMove] at h
    split at h
    · exact handlerReturn_inv h hs
    · cases h
  | busWrite address bytes => cases h; exact hs.setBytes (busCells_lt address bytes)

/-- Settles O8: the next move of the environment, or one instruction, keeps the invariant. -/
theorem stepKeepsInvariant : Obligations.StepKeepsInvariant := by
  intro s t hs h
  cases henv : s.env with
  | nil => exact processorStep_inv (step_of_no_move henv ▸ h) hs
  | cons m moves =>
    rw [step_of_move henv] at h
    exact environmentStep_inv h ⟨hs.memory, hs.registers, hs.code⟩

/-- Settles O9. -/
theorem resetMeetsInvariant : Obligations.ResetMeetsInvariant :=
  ⟨reset_memory_wf, resetCpu_legal Config.bistResult [], fun _ h => nomatch h⟩

end Sys2Proof.Machine
end

section
/-! Frames over all instructions: each goes by cases on what an instruction that answers a next state can have done (10_state.md
R27, R31 to R48). -/

namespace Sys2Proof.Machine

/-- The instruction's length where it completes, case by case (10_state.md R35). -/
theorem Completed.pc_eq {i : Instr} {s t : State} (h : Completed i s t) :
    t.pc = s.pc + BitVec.ofNat 32 (encode i).length := by
  cases h with
  | register d r hp hr hw he hm => obtain ⟨_, _, rfl⟩ := he.eq_with; rfl
  | edxEax v tsc draws hi => rcases hi with rfl | rfl <;> rfl
  | toMemory | toGpr | emms | cpuid | wrmsr | wbinvd => rfl

/-- Settles O7. -/
theorem pcAdvancesByEncodedLength : Obligations.PcAdvancesByEncodedLength :=
  fun _ _ _ h => (exec_next_cases h).imp_right Completed.pc_eq

/-- Settles O44: none of these parts is among those of `withWritten`. -/
theorem controlStateNeverWritten : Obligations.ControlStateNeverWritten := by
  intro i s t h
  rw [exec_eq_withWritten h]
  and_intros <;> rfl

/-! ### The tag word -/

/-- An MMX instruction but EMMS that completes leaves every tag valid and the outcome as it was (10_state.md R27). -/
theorem Completed.tags_valid {i : Instr} {p : Prefixes} {s t : State} (h : Completed i s t) (hp : i.mmxPrefixes = some p)
    (hi : i ≠ .emms p) : t.fpu.ftw = 0x0000 ∧ t.exception = s.exception := by
  cases h with
  | register d r hp hr hw he hm => obtain ⟨_, _, rfl⟩ := he.eq_with; exact ⟨rfl, rfl⟩
  | toMemory | toGpr => exact ⟨rfl, rfl⟩
  | emms hr => cases hp; exact absurd rfl hi
  | edxEax v tsc draws hi => rcases hi with rfl | rfl <;> cases hp
  | cpuid | wrmsr | wbinvd => cases hp

/-- Settles O43. -/
theorem tagWordRule : Obligations.TagWordRule := by
  intro i p s t hp hi hs h
  rcases exec_next_cases h with (⟨e, rfl⟩ | rfl) | hc
  · exact ⟨fun _ => rfl, fun hnone => nomatch hnone⟩
  · exact ⟨fun _ => rfl, fun _ => .inl rfl⟩
  · obtain ⟨htags, hout⟩ := hc.tags_valid hp hi
    exact ⟨fun hsome => absurd (hout.trans hs) hsome, fun _ => .inr htags⟩

/-! ### General-purpose registers -/

/-- The general-purpose registers that an instruction may write (10_state.md R34). -/
def MayWriteGpr (i : Instr) (n : Gpr) : Prop :=
  (∃ p src, i = .movdStore p src (.reg n)) ∨
    (i = .cpuid ∧ (n = 0 ∨ n = 1 ∨ n = 2 ∨ n = 3)) ∨
    ((i = .rdmsr ∨ i = .rdtsc) ∧ (n = 0 ∨ n = 2))

/-- An instruction that completes leaves the registers it may not write. -/
theorem Completed.gprAt_eq {i : Instr} {s t : State} {n : Gpr} (h : Completed i s t) (hn : ¬MayWriteGpr i n) :
    t.gprAt n = s.gprAt n := by
  cases h with
  | register d r hp hr hw he hm => obtain ⟨_, _, rfl⟩ := he.eq_with; rfl
  | toGpr src m hr =>
    have hne : n ≠ m := fun e => hn (.inl ⟨_, src, by rw [e]⟩)
    exact RegFile.get_set_ne _ _ hne
  | cpuid a b c d =>
    have hne : ¬(n = 0 ∨ n = 1 ∨ n = 2 ∨ n = 3) := fun e => hn (.inr (.inl ⟨rfl, e⟩))
    simp only [not_or] at hne
    obtain ⟨h0, h1, h2, h3⟩ := hne
    simp only [State.gprAt, RegFile.get_set_ne, ne_eq, h0, h1, h2, h3, not_false_eq_true]
  | edxEax v tsc draws hi =>
    have hne : ¬(n = 0 ∨ n = 2) := fun e => hn (.inr (.inr ⟨hi, e⟩))
    obtain ⟨h0, h2⟩ := not_or.mp hne
    simp only [State.gprAt, edxEaxResult, RegFile.get_set_ne, ne_eq, h0, h2, not_false_eq_true]
  | toMemory | emms | wrmsr | wbinvd => rfl

/-- Settles O45. -/
theorem generalRegisterWriters : Obligations.GeneralRegisterWriters := by
  intro i s t n h hchanged
  by_contra hn
  rcases exec_next_cases h with (⟨e, rfl⟩ | rfl) | hc
  · exact hchanged rfl
  · exact hchanged rfl
  · exact hchanged (hc.gprAt_eq hn)

/-! ### Model-specific registers -/

/-- What an instruction leaves of the MSRs, of the duty of WBINVD and of the draws (10_state.md R41 to R46; logs 20,
29, 37, 42). -/
structure KeepsMsrs (i : Instr) (s t : State) : Prop where
  butTsc : i ≠ .wrmsr → t.msr = { s.msr with tsc := t.msr.tsc }
  all : i ≠ .wrmsr → i ≠ .rdmsr → i ≠ .rdtsc → t.msr = s.msr
  duty : i ≠ .wrmsr → i ≠ .wbinvd → t.whcrDuty = s.whcrDuty
  mmx : i.mmxPrefixes.isSome = true → t.msr = s.msr ∧ ((∀ p m, i.operand ≠ some (p, .mem m)) → t.draws = s.draws)

/-- Where the MSRs, the duty and the draws all stay, nothing is left to say. -/
theorem KeepsMsrs.of_eq {i : Instr} {s t : State} (hm : t.msr = s.msr) (hw : t.whcrDuty = s.whcrDuty)
    (hd : t.draws = s.draws) : KeepsMsrs i s t :=
  ⟨fun _ => by rw [hm], fun _ _ _ => hm, fun _ _ => hw, fun _ => ⟨hm, fun _ => hd⟩⟩

theorem NotCompleted.keepsMsrs {i : Instr} {s t : State} (h : NotCompleted s t) : KeepsMsrs i s t := by
  rcases h with ⟨e, rfl⟩ | rfl <;> exact .of_eq rfl rfl rfl

theorem Completed.keepsMsrs {i : Instr} {s t : State} (h : Completed i s t) : KeepsMsrs i s t := by
  cases h with
  | @register _ _ u p d r hp hr hw he hm =>
    obtain ⟨draws, events, hu⟩ := he.eq_with
    have hdraws : (∀ p m, i.operand ≠ some (p, .mem m)) → u.draws = s.draws := fun hno =>
      hm.elim (congrArg State.draws) fun ⟨m, ho⟩ => absurd ho (hno p m)
    subst hu
    exact ⟨fun _ => rfl, fun _ _ _ => rfl, fun _ _ => rfl, fun _ => ⟨rfl, hdraws⟩⟩
  | toMemory | toGpr | emms => exact .of_eq rfl rfl rfl
  | cpuid => exact ⟨fun _ => rfl, fun _ _ _ => rfl, fun _ _ => rfl, fun hp => nomatch hp⟩
  | edxEax v tsc draws hi =>
    have hmmx : i.mmxPrefixes = none := by rcases hi with rfl | rfl <;> rfl
    exact ⟨fun _ => rfl, fun _ h1 h2 => absurd hi (not_or.mpr ⟨h1, h2⟩), fun _ _ => rfl, fun hp => by simp [hmmx] at hp⟩
  | wrmsr => exact ⟨fun hne => absurd rfl hne, fun hne => absurd rfl hne, fun hne => absurd rfl hne, fun hp => nomatch hp⟩
  | wbinvd => exact ⟨fun _ => rfl, fun _ _ _ => rfl, fun _ hne => absurd rfl hne, fun hp => nomatch hp⟩

/-- Settles O47. -/
theorem msrWriters : Obligations.MsrWriters := by
  intro i s t h
  have hk : KeepsMsrs i s t := (exec_next_cases h).elim NotCompleted.keepsMsrs Completed.keepsMsrs
  exact ⟨hk.butTsc, hk.all, hk.duty, hk.mmx⟩

end Sys2Proof.Machine
end

section
/-! EMMS, and the system instructions that read and write the model-specific registers, each with its whole next state
(41_empty.md R170; 47_system.md R274 to R276). -/

namespace Sys2Proof.Machine

/-- Settles O36. -/
theorem emmsEmptiesTags : Obligations.EmmsEmptiesTags := by
  intro s p hr
  rw [exec, execEmms, mmxPrologue_ready hr]
  rfl

/-! ### RDMSR and RDTSC -/

/-- RDMSR answers what `readMsr` reads, where the privilege level allows it. -/
theorem exec_rdmsr_of_cpl0 {s : State} (h : requireCpl0 s = .ok ()) :
    exec .rdmsr s = ((readMsr (s.gprAt 1) s).bind fun r => .ok (edxEaxResult r.2 r.1)).finish s := by
  rw [exec, execRdmsr, h]
  rfl

/-- The same where the register exists. -/
theorem exec_rdmsr_reads {s u : State} {v : Qword} (h : requireCpl0 s = .ok ()) (hr : readMsr (s.gprAt 1) s = .ok (v, u)) :
    exec .rdmsr s = .next (edxEaxResult u v) := by
  rw [exec_rdmsr_of_cpl0 h, hr]
  rfl

theorem readMsr_mcar (s : State) : readMsr 0x00000000 s = .ok (s.msr.mcar, s) := rfl
theorem readMsr_mctr (s : State) : readMsr 0x00000001 s = .ok (s.msr.mctr, s) := rfl
theorem readMsr_tr12 (s : State) : readMsr 0x0000000E s = .ok (readTr12 s) := rfl
theorem readMsr_tsc (s : State) : readMsr 0x00000010 s = .ok (readTsc s) := rfl
theorem readMsr_efer (s : State) : readMsr 0xC0000080 s = .ok (s.msr.efer &&& eferMask, s) := rfl
theorem readMsr_whcr (s : State) : readMsr 0xC0000082 s = .ok (s.msr.whcr &&& whcrMask, s) := rfl

/-- Bit 3 of TR12 reads as last written, whatever the free bits are (10_state.md R43). -/
theorem readTr12_bit3 (s : State) : (readTr12 s).1.getLsbD 3 = s.msr.tr12Ci := by
  have hmask : tr12CiMask.getLsbD 3 = true := by decide
  simp only [readTr12, BitVec.getLsbD_or, BitVec.getLsbD_and, BitVec.getLsbD_not, hmask]
  cases s.msr.tr12Ci <;> simp [hmask]

/-- Settles O38. -/
theorem rdmsrReads : Obligations.RdmsrReads := by
  intro s hcpl hmode
  have hok : requireCpl0 s = .ok () := requireCpl0_eq_ok.mpr ⟨hcpl, hmode⟩
  refine ⟨fun hn => ?mcar, fun hn => ?mctr, fun hn => ?tr12, fun hn => ?tsc, fun hn => ?efer, fun hn => ?whcr⟩
  case mcar => exact exec_rdmsr_reads hok (hn ▸ readMsr_mcar s)
  case mctr => exact exec_rdmsr_reads hok (hn ▸ readMsr_mctr s)
  case tr12 => exact ⟨_, readTr12_bit3 s, exec_rdmsr_reads hok (hn ▸ readMsr_tr12 s)⟩
  case tsc => exact ⟨Config.clockCycles s.draws, exec_rdmsr_reads hok (hn ▸ readMsr_tsc s)⟩
  case efer =>
    refine ⟨_, fun k => ?_, exec_rdmsr_reads hok (hn ▸ readMsr_efer s)⟩
    rw [eferMask_eq, and_lowMask_getLsbD]
    simp only [Nat.lt_one_iff]
  case whcr => exact ⟨_, and_lowMask_getLsbD s.msr.whcr 9, exec_rdmsr_reads hok (hn ▸ readMsr_whcr s)⟩

/-- Settles O41: CR4.TSD and the privilege level do not stop it, and it reads as `readTsc` does. -/
theorem rdtscReads : Obligations.RdtscReads := by
  intro s hallowed
  have hpass : (s.cr4TSD && s.cpl != 0) = false := by rcases hallowed with h | h <;> simp [h]
  refine ⟨Config.clockCycles s.draws, ?_⟩
  rw [exec, execRdtsc, hpass]
  rfl

/-! ### WRMSR -/

/-- WRMSR does what `writeMsr` does with EDX:EAX, where the privilege level allows it. -/
theorem exec_wrmsr_of_cpl0 {s : State} (h : requireCpl0 s = .ok ()) :
    exec .wrmsr s = ((writeMsr (s.gprAt 1) s.edxEax s).bind fun t => .ok (t.advance systemLength)).finish s := by
  rw [exec, execWrmsr, h]
  rfl

/-- The same where the write is done. -/
theorem exec_wrmsr_writes {s t : State} (h : requireCpl0 s = .ok ()) (hw : writeMsr (s.gprAt 1) s.edxEax s = .ok t) :
    exec .wrmsr s = .next { t with pc := t.pc + 2 } := by
  rw [exec_wrmsr_of_cpl0 h, hw]
  rfl

theorem writeMsr_mcar (v : Qword) (s : State) :
    writeMsr 0x00000000 v s = .ok { s with msr := { s.msr with mcar := v } } := rfl
theorem writeMsr_mctr (v : Qword) (s : State) :
    writeMsr 0x00000001 v s = .ok { s with msr := { s.msr with mctr := v } } := rfl
theorem writeMsr_tr12 (v : Qword) (s : State) :
    writeMsr 0x0000000E v s = .ok { s with msr := { s.msr with tr12Ci := v.getLsbD 3 } } := rfl
theorem writeMsr_tsc (v : Qword) (s : State) :
    writeMsr 0x00000010 v s = .ok { s with msr := { s.msr with tsc := v } } := rfl

/-- EFER takes a value below 2. -/
theorem writeMsr_efer (v : Qword) (s : State) :
    writeMsr 0xC0000080 v s =
      if v.toNat < 2 then .ok { s with msr := { s.msr with efer := v } } else .raised .generalProtection := by
  have hfits : v &&& ~~~eferMask = 0 ↔ v.toNat < 2 := and_not_lowMask_eq_zero (k := 1)
  simp only [← hfits]
  rfl

/-- WHCR takes a value below 512. -/
theorem writeMsr_whcr (v : Qword) (s : State) :
    writeMsr 0xC0000082 v s =
      if v.toNat < 512 then
        .ok { s with
          msr := { s.msr with whcr := v }
          whcrDuty := if v = s.msr.whcr then s.whcrDuty else s.whcrDuty.spent }
      else .refused .whcrReservedBits := by
  have hfits : v &&& ~~~whcrMask = 0 ↔ v.toNat < 512 := and_not_lowMask_eq_zero (k := 9)
  simp only [← hfits]
  rfl

/-- Only a WBINVD that has been executed and not used up serves a change of WHCR (log 29). -/
theorem WhcrDuty.spent_of_ne_done {d : WhcrDuty} (h : d ≠ .done) : d.spent = .omitted := by
  cases d with
  | done => exact absurd rfl h
  | due | omitted => rfl

/-- Settles O39. -/
theorem wrmsrWrites : Obligations.WrmsrWrites := by
  intro s v hcpl hmode hv
  obtain rfl : v = s.edxEax := hv
  have hok : requireCpl0 s = .ok () := requireCpl0_eq_ok.mpr ⟨hcpl, hmode⟩
  refine ⟨fun hn => ?mcar, fun hn => ?mctr, fun hn => ?tr12, fun hn => ?tsc, fun hn hv => ?efer, fun hn hv => ?whcr⟩
  case mcar => exact exec_wrmsr_writes hok (hn ▸ writeMsr_mcar _ s)
  case mctr => exact exec_wrmsr_writes hok (hn ▸ writeMsr_mctr _ s)
  case tr12 => exact exec_wrmsr_writes hok (hn ▸ writeMsr_tr12 _ s)
  case tsc => exact exec_wrmsr_writes hok (hn ▸ writeMsr_tsc _ s)
  case efer => exact exec_wrmsr_writes hok (hn ▸ (writeMsr_efer _ s).trans (if_pos hv))
  case whcr =>
    refine ⟨_, exec_wrmsr_writes hok (hn ▸ (writeMsr_whcr _ s).trans (if_pos hv)), fun he => if_pos he,
      fun hne hd => ?_, fun hne hd => ?_⟩
    · rw [if_neg hne, hd]; rfl
    · rw [if_neg hne, WhcrDuty.spent_of_ne_done hd]

/-! ### Where RDMSR and WRMSR stop -/

/-- The numbers of the model-specific registers of Model 7 (10_state.md R41 to R46). -/
def msrNumbers : List Dword := [0x00000000, 0x00000001, 0x0000000E, 0x00000010, 0xC0000080, 0xC0000082]

theorem readMsr_unimplemented {n : Dword} (s : State) (h : n ∉ msrNumbers) :
    readMsr n s = .refused (.unimplementedMsr n) := by
  simp only [msrNumbers, List.mem_cons, List.not_mem_nil, or_false, not_or] at h
  obtain ⟨h0, h1, h2, h3, h4, h5⟩ := h
  simp only [readMsr, h0, h1, h2, h3, h4, h5, if_false]

theorem writeMsr_unimplemented {n : Dword} (v : Qword) (s : State) (h : n ∉ msrNumbers) :
    writeMsr n v s = .refused (.unimplementedMsr n) := by
  simp only [msrNumbers, List.mem_cons, List.not_mem_nil, or_false, not_or] at h
  obtain ⟨h0, h1, h2, h3, h4, h5⟩ := h
  simp only [writeMsr, h0, h1, h2, h3, h4, h5, if_false]

/-- The first reason to refuse a program (log 23). -/
theorem programRefusal_wcde {s : State} (h : s.msr.whcr.getLsbD 8 = true) : programRefusal s = some .wcdeSet := by
  have hset : s.msr.whcr &&& wcdeMask ≠ 0 := by
    rw [ne_eq, whcr_and_wcdeMask_eq_zero, h]
    decide
  exact if_pos hset

/-- With WCDE clear only the duty of WBINVD counts (log 29). -/
theorem programRefusal_no_wcde {s : State} (h : s.msr.whcr.getLsbD 8 = false) :
    programRefusal s = if s.whcrDuty = .omitted then some .whcrChangedWithoutWbinvd else none :=
  if_neg (not_not.mpr ((whcr_and_wcdeMask_eq_zero _).mpr h))

/-- Settles O40. -/
theorem msrStops : Obligations.MsrStops := by
  constructor
  · intro s v hcpl hmode hv
    obtain rfl : v = s.edxEax := hv
    have hok : requireCpl0 s = .ok () := requireCpl0_eq_ok.mpr ⟨hcpl, hmode⟩
    refine ⟨fun hn hv => ?efer, fun hn hv => ?whcr, fun hn => ⟨?read, ?write⟩⟩
    case efer => rw [exec_wrmsr_of_cpl0 hok, hn, writeMsr_efer, if_neg (Nat.not_lt.mpr hv)]; rfl
    case whcr => rw [exec_wrmsr_of_cpl0 hok, hn, writeMsr_whcr, if_neg (Nat.not_lt.mpr hv)]; rfl
    case read => rw [exec_rdmsr_of_cpl0 hok, readMsr_unimplemented s hn]; rfl
    case write => rw [exec_wrmsr_of_cpl0 hok, writeMsr_unimplemented _ s hn]; rfl
  · intro s henv hexc
    rw [step_of_no_move henv]
    refine ⟨fun hw => ?_, fun hw hd => ?_, fun hw hd => ?_⟩
    · exact processorStep_refused hexc (programRefusal_wcde hw)
    · exact processorStep_refused hexc ((programRefusal_no_wcde hw).trans (if_pos hd))
    · exact (programRefusal_no_wcde hw).trans (if_neg hd)

end Sys2Proof.Machine
end

section
/-! Moves of the environment: RESET, INIT, and a task switch with the int 7 handler after it (70_reset_and_hazards.md R350 to
R354; 60_exceptions.md R302, R313). -/

namespace Sys2Proof.Machine

/-- RESET and INIT fetch at FFFF_FFF0h (70_reset_and_hazards.md R354). -/
theorem reset_fetch_address : (resetSegs.get .cs).base + 0x0000FFF0 = 0xFFFFFFF0 := by decide

/-- Settles O49. -/
theorem resetStatedValues : Obligations.ResetStatedValues := by
  intro s bist moves henv
  exact ⟨_, step_of_move henv, rfl, rfl, rfl, rfl, rfl, rfl, reset_fetch_address, rfl, rfl, rfl⟩

/-- Settles O50. -/
theorem initKeepsAndSets : Obligations.InitKeepsAndSets := by
  intro s eax moves henv
  have hkept := keepCacheBits_getLsbD s.cr0 (resetCpu eax).cr0
  have hclear := keepCacheBits_reset_clear s.cr0 eax
  exact ⟨_, step_of_move henv, rfl, rfl, hkept 30, hkept 29, hclear 2 (by decide), hclear 3 (by decide), rfl, rfl, rfl,
    rfl, rfl, reset_fetch_address, rfl, rfl, rfl⟩

/-- An MMX instruction without LOCK after a task switch: device not available (60_exceptions.md R302). -/
theorem exec_deviceNotAvailable {i : Instr} {p : Prefixes} {s : State} (hi : i.mmxPrefixes = some p) (hl : p.lock = false)
    (he : s.cr0EM = false) (ht : s.cr0TS = true) : exec i s = .next (takeException .deviceNotAvailable s) := by
  obtain ⟨k, hk⟩ := exec_begins_with_prologue hi s
  rw [hk, mmxPrologue_deviceNotAvailable hl he ht]
  rfl

/-- The int 7 handler's move in the outcome it handles (60_exceptions.md R313). -/
theorem step_handlerInt7 {s : State} {fp : Fpu} {pc : Dword} {moves : List EnvMove} (henv : s.env = .handlerInt7 fp :: moves)
    (hexc : s.exception = some ⟨.deviceNotAvailable, pc⟩) :
    step s = .next (resumeAt pc { s with env := moves, fpu := fp, cr0 := clearTS s.cr0 }) := by
  rw [step_of_move henv]
  simp only [environmentStep, handlerInt7, hexc]

/-- Settles O52: the switch sets TS, so the instruction traps; the handler clears it and loads a state with nothing pending. -/
theorem taskSwitchTrapsThenRestarts : Obligations.TaskSwitchTrapsThenRestarts := by
  intro i p s f moves hi hl hem henv hf
  have hem_switched : (setTS s.cr0).getLsbD 2 = false := (setTS_getLsbD s.cr0 2).trans ((Bool.or_false _).trans hem)
  have hts_switched : (setTS s.cr0).getLsbD 3 = true := (setTS_getLsbD s.cr0 3).trans (Bool.or_true _)
  have hem_resumed : (clearTS (setTS s.cr0)).getLsbD 2 = false :=
    (clearTS_getLsbD _ 2).trans ((Bool.and_true _).trans hem_switched)
  have hts_resumed : (clearTS (setTS s.cr0)).getLsbD 3 = false := (clearTS_getLsbD _ 3).trans (Bool.and_false _)
  exact ⟨_, _, _, step_of_move henv, exec_deviceNotAvailable hi hl hem_switched hts_switched, rfl,
    step_handlerInt7 rfl rfl, rfl, rfl, rfl, hl, hem_resumed, hts_resumed, hf⟩

end Sys2Proof.Machine
end

section
/-! Memory accesses (20_memory.md R71 to R81): the order of the checks, the operand's addresses without pages, and how the 48
forms with a memory operand begin with one access. -/

namespace Sys2Proof.Machine

/-! ### The checks -/

section Order

variable {s : State} {g : SegReg} {off : Dword} {n : Nat} {k : Access}

/-- What the segment check raises, the access raises. -/
theorem accessAddresses_of_segCheck_raised {e : Exc} (h : segCheck s g off n k = .raised e) :
    accessAddresses s g off n k = .raised e := by
  rw [accessAddresses, h]
  rfl

/-- What the alignment check raises, the access raises where the segment allows it. -/
theorem accessAddresses_of_alignCheck_raised {e : Exc} (h : segCheck s g off n k = .ok ())
    (ha : alignCheck s (linear s g off) n = .raised e) : accessAddresses s g off n k = .raised e := by
  rw [accessAddresses, h, Check.bind_ok, ha]
  rfl

/-- A page fault comes last. -/
theorem accessAddresses_of_translate_none (h : segCheck s g off n k = .ok ())
    (ha : alignCheck s (linear s g off) n = .ok ()) (ht : translate s k (linear s g off) n = none) :
    accessAddresses s g off n k = .raised .pageFault := by
  rw [accessAddresses, h, Check.bind_ok, ha, Check.bind_ok, ht]

end Order

/-- An access that the segment does not allow: by `SegOK` in Protected mode, by the offset FFFFh in the others (20_memory.md
R78 to R80). -/
def BeyondSegment (s : State) (g : SegReg) (off : Dword) (n : Nat) (k : Access) : Prop :=
  if s.mode = .protectedMode then ¬SegAllows (s.segs.get g) off n k else 0xFFFF < off.toNat + n - 1

/-- The segment check in every mode, with the exception it raises. -/
theorem segCheck_eq {s : State} {g : SegReg} {off : Dword} {n : Nat} {k : Access} :
    (¬BeyondSegment s g off n k → segCheck s g off n k = .ok ()) ∧
      (BeyondSegment s g off n k → segCheck s g off n k =
        if g = .ss then .raised .stackException
        else if s.mode = .protectedMode then .raised .generalProtection else .raised .segmentOverrun) := by
  unfold BeyondSegment
  by_cases hm : s.mode = .protectedMode
  · simp only [segCheck_protected g off n k hm, hm, if_true, not_not, ← SegRecord.ok_iff]
    exact ⟨fun h => if_pos h, fun h => if_neg h⟩
  · simp only [segCheck_unprotected g off n k hm, hm, if_false, not_lt]
    exact ⟨fun h => if_pos h, fun h => if_neg (by omega)⟩

/-- Where alignment checking is on (20_memory.md R75). -/
theorem alignmentChecked_iff {s : State} :
    alignmentChecked s = true ↔ s.cr0AM = true ∧ s.flagAC = true ∧ s.cpl = 3 ∧ s.mode ≠ .real := by
  simp only [alignmentChecked, Bool.and_eq_true, beq_iff_eq, bne_iff_ne, and_assoc]

/-- Settles O14. -/
theorem accessCheckOrder : Obligations.AccessCheckOrder := by
  intro s g off n k _ beyond lin misaligned
  obtain ⟨hwithin, hbeyond⟩ := segCheck_eq (s := s) (g := g) (off := off) (n := n) (k := k)
  have halign : alignCheck s lin n = if misaligned then .raised .alignmentCheck else .ok () := by
    simp only [alignCheck_eq, alignmentChecked_iff, and_assoc, misaligned]
  refine ⟨fun hb hg => ?stack, fun hb hg hm => ?protection, fun hb hg hm => ?overrun, fun hb hmis => ?misaligned,
    fun hb hmis hpage => ?pageFault, fun hb hmis l hl => ?passes⟩
  case stack => exact accessAddresses_of_segCheck_raised (by rw [hbeyond hb, if_pos hg])
  case protection => exact accessAddresses_of_segCheck_raised (by rw [hbeyond hb, if_neg hg, if_pos hm])
  case overrun => exact accessAddresses_of_segCheck_raised (by rw [hbeyond hb, if_neg hg, if_neg hm])
  case misaligned => exact accessAddresses_of_alignCheck_raised (hwithin hb) (halign.trans (if_pos hmis))
  case pageFault => exact accessAddresses_of_translate_none (hwithin hb) (halign.trans (if_neg hmis)) hpage
  case passes => exact accessAddresses_eq_ok.mpr ⟨hwithin hb, halign.trans (if_neg hmis), hl⟩

/-! ### Translation without pages -/

/-- Where every byte is translated to itself and none continues a page, the bytes lie at the linear addresses. -/
theorem translateBytes_identity {s : State} {k : Access} {n : Nat} (h : ∀ lin, translateAt s k n lin = some (lin, 0))
    (a lin : Dword) (count : Nat) :
    translateBytes s k n lin (a, 0) count = some ((List.range count).map fun j => (lin.toNat + j) % 2 ^ 32) := by
  induction count generalizing lin a with
  | zero => rfl
  | succ count ih =>
    have hfirst : (lin.toNat + 0) % 2 ^ 32 = lin.toNat := Nat.mod_eq_of_lt lin.isLt
    simp only [translateBytes, translateNext, h, ih, List.range_succ_eq_map, List.map_cons, List.map_map, hfirst]
    congr 2
    refine List.map_congr_left fun j _ => ?_
    simp only [Function.comp, BitVec.toNat_add, show (1 : Dword).toNat = 1 from rfl]
    omega

/-- Settles O60. -/
theorem unpagedTranslationIsIdentity : Obligations.UnpagedTranslationIsIdentity := by
  intro s k lin n h
  have hid : ∀ lin, translateAt s k n lin = some (lin, 0) := fun lin =>
    translateAt_identity k n lin (h.imp_right fun hp => by simp [hp])
  exact translateBytes_identity hid 0 lin n

/-! ### The one access of a form with a memory operand -/

/-- A sequence of three checks, grouped either way. -/
theorem Check.bind_assoc {α β γ : Type} (c : Check α) (f : α → Check β) (g : β → Check γ) :
    (c.bind f).bind g = c.bind fun a => (f a).bind g := by
  cases c <;> rfl

/-- After the prologue the instruction makes the access of its memory operand, and does nothing before that passes
(20_memory.md R71, R74, R76; 60_exceptions.md R303). -/
def BeginsWithAccess (i : Instr) (p : Prefixes) (m : MemOperand) (s : State) : Prop :=
  ∃ k : List Nat → Check State, exec i s =
    ((mmxPrologue p s).bind fun _ =>
      (accessAddresses s (segmentOf p m) (effectiveAddress s m) (accessOf i).1 (accessOf i).2).bind k).finish s

/-- A 64-bit source in memory. -/
theorem mmxRegMem_beginsWithAccess {i : Instr} {f : Qword → Qword → Qword} {p : Prefixes} {d : MmReg} {m : MemOperand}
    {s : State} (ha : accessOf i = (8, .read)) (h : exec i s = mmxRegMem f p d (.mem m) s) : BeginsWithAccess i p m s := by
  rw [BeginsWithAccess, h, ha]
  simp only [mmxRegMem, readSrc64, memRead, Check.bind_assoc]
  exact ⟨_, rfl⟩

/-- A 32-bit source in memory. -/
theorem movdLoad_beginsWithAccess (p : Prefixes) (d : MmReg) (m : MemOperand) (s : State) :
    BeginsWithAccess (.movdLoad p d (.mem m)) p m s := by
  simp only [BeginsWithAccess, exec, execMovdLoad, readSrc32, memRead, Check.bind_assoc]
  exact ⟨_, rfl⟩

/-- A store to memory is the prologue, then `MemWrite` of the register's low bytes (45_move.md R222, R224). -/
theorem exec_store_to_memory {i : Instr} {p : Prefixes} {src : MmReg} {m : MemOperand}
    (hi : i = .movdStore p src (.mem m) ∨ i = .movqStore p src (.mem m)) (s : State) :
    exec i s =
      ((mmxPrologue p s).bind fun _ =>
        (memWrite s (segmentOf p m) (effectiveAddress s m) (leBytes (accessOf i).1 (s.mmAt src))).bind fun t =>
          .ok (t.mmxDone (rmLength p (.mem m)))).finish s := by
  rcases hi with rfl | rfl
  · simp only [accessOf, ← leBytes_movd]
    rfl
  · rfl

/-- A store to memory. -/
theorem store_beginsWithAccess {i : Instr} {p : Prefixes} {src : MmReg} {m : MemOperand}
    (hi : i = .movdStore p src (.mem m) ∨ i = .movqStore p src (.mem m)) (s : State) : BeginsWithAccess i p m s := by
  have hkind : (accessOf i).2 = .write := by rcases hi with rfl | rfl <;> rfl
  rw [BeginsWithAccess, exec_store_to_memory hi, hkind]
  simp only [memWrite, leBytes_length, Check.bind_assoc]
  exact ⟨_, rfl⟩

/-- Every form with a memory operand but MOVD and the stores is in the frame of `mmxRegMem`. -/
theorem exec_eq_mmxRegMem {i : Instr} {p : Prefixes} {rm : RM} (h : i.operand = some (p, rm))
    (ha : accessOf i = (8, .read)) (s : State) : ∃ f d, exec i s = mmxRegMem f p d rm s := by
  cases i <;> cases h
  case movdLoad | movdStore | movqStore => cases ha
  all_goals
    simp only [exec]
    exact ⟨_, _, rfl⟩

/-- The forms with a memory operand: the MOVD load, the two stores, and those that read 8 bytes. -/
theorem memory_operand_cases {i : Instr} {p : Prefixes} {m : MemOperand} (h : i.operand = some (p, .mem m)) :
    (∃ d, i = .movdLoad p d (.mem m)) ∨ (∃ src, i = .movdStore p src (.mem m) ∨ i = .movqStore p src (.mem m)) ∨
      accessOf i = (8, .read) := by
  cases i <;> cases h
  case movdLoad d => exact .inl ⟨d, rfl⟩
  case movdStore src => exact .inr (.inl ⟨src, .inl rfl⟩)
  case movqStore src => exact .inr (.inl ⟨src, .inr rfl⟩)
  all_goals exact .inr (.inr rfl)

/-- Every form with a memory operand begins with the access of that operand. -/
theorem exec_beginsWithAccess {i : Instr} {p : Prefixes} {m : MemOperand} (h : i.operand = some (p, .mem m)) (s : State) :
    BeginsWithAccess i p m s := by
  rcases memory_operand_cases h with ⟨d, rfl⟩ | ⟨src, hi⟩ | ha
  · exact movdLoad_beginsWithAccess p d m s
  · exact store_beginsWithAccess hi s
  · obtain ⟨f, d, hf⟩ := exec_eq_mmxRegMem h ha s
    exact mmxRegMem_beginsWithAccess ha hf

/-- Settles O15. -/
theorem accessExceptionEndsInstruction : Obligations.AccessExceptionEndsInstruction := by
  intro i p m s e hop hr hacc
  obtain ⟨k, hk⟩ := exec_beginsWithAccess hop s
  rw [hk, mmxPrologue_ready hr, Check.bind_ok, hacc]
  rfl

/-! ### Stores that are refused -/

/-- The forms that write memory are the two stores. -/
theorem store_of_access_write {i : Instr} {p : Prefixes} {m : MemOperand} (hop : i.operand = some (p, .mem m))
    (hk : (accessOf i).2 = .write) : ∃ src, i = .movdStore p src (.mem m) ∨ i = .movqStore p src (.mem m) := by
  rcases memory_operand_cases hop with ⟨d, rfl⟩ | hi | ha
  · cases hk
  · exact hi
  · rw [ha] at hk
    cases hk

/-- A refused write refuses the store. -/
theorem exec_store_refused {i : Instr} {p : Prefixes} {src : MmReg} {m : MemOperand} {s : State} {r : Refusal}
    (hi : i = .movdStore p src (.mem m) ∨ i = .movqStore p src (.mem m)) (hr : MmxReady p s)
    (h : memWrite s (segmentOf p m) (effectiveAddress s m) (leBytes (accessOf i).1 (s.mmAt src)) = .refused r) :
    exec i s = .refused r := by
  rw [exec_store_to_memory hi, mmxPrologue_ready hr, Check.bind_ok, h]
  rfl

section Refusals

variable {s : State} {g : SegReg} {off : Dword} {b : List Byte} {l : List Nat}

theorem memWrite_readOnly (hl : accessAddresses s g off b.length .write = .ok l)
    (h : ∃ a ∈ l, inRegion s.platform .readOnly a = true) : memWrite s g off b = .refused .storeToReadOnlyRegion := by
  rw [memWrite, hl, Check.bind_ok, if_pos (List.any_eq_true.mpr h)]

theorem memWrite_writeAllocatedDevice (hl : accessAddresses s g off b.length .write = .ok l)
    (hro : ∀ a ∈ l, inRegion s.platform .readOnly a = false)
    (h : ∃ a ∈ l, inRegion s.platform .device a = true ∧ writeAllocateByLimit s.msr.whcr a = true) :
    memWrite s g off b = .refused .storeToWriteAllocatedDevice := by
  rw [memWrite, hl, Check.bind_ok, if_neg (by simpa using hro), if_pos (by simpa using h)]

theorem memWrite_executedCode (hl : accessAddresses s g off b.length .write = .ok l)
    (hro : ∀ a ∈ l, inRegion s.platform .readOnly a = false)
    (hdev : ∀ a ∈ l, inRegion s.platform .device a = true → writeAllocateByLimit s.msr.whcr a = false)
    (h : ∃ a ∈ l, a ∈ s.fetched) : memWrite s g off b = .refused .storeToExecutedCode := by
  rw [memWrite, hl, Check.bind_ok, if_neg (by simpa using hro), if_neg (by simpa using hdev), if_pos (by simpa using h)]

end Refusals

/-- Settles O16. -/
theorem refusedAccesses : Obligations.RefusedAccesses := by
  intro i p m s l hop hr hacc hkind
  obtain ⟨src, hi⟩ := store_of_access_write hop hkind
  have hl : accessAddresses s (segmentOf p m) (effectiveAddress s m) (leBytes (accessOf i).1 (s.mmAt src)).length .write =
      .ok l := by
    rw [leBytes_length, ← hkind, hacc]
  exact ⟨fun h => exec_store_refused hi hr (memWrite_readOnly hl h), fun hro =>
    ⟨fun h => exec_store_refused hi hr (memWrite_writeAllocatedDevice hl hro h), fun hdev h =>
      exec_store_refused hi hr (memWrite_executedCode hl hro hdev h)⟩⟩

end Sys2Proof.Machine
end

section
/-! What the moves store to memory and read from it (20_memory.md R72, R74, R83; 45_move.md R220 to R225), which instructions
write memory at all, and WBINVD (47_system.md R277). -/

namespace Sys2Proof.Machine

/-! ### Stores to memory -/

/-- A store whose access passes and that no rule of the platform refuses (20_memory.md R76, R87, R92). -/
theorem exec_store_completes {i : Instr} {p : Prefixes} {src : MmReg} {m : MemOperand} {s : State} {l : List Nat}
    (hi : i = .movdStore p src (.mem m) ∨ i = .movqStore p src (.mem m)) (hr : MmxReady p s)
    (hl : accessAddresses s (segmentOf p m) (effectiveAddress s m) (accessOf i).1 .write = .ok l) (hs : StorePermitted s l) :
    exec i s = .next (storeResult s (storeBytes s l (leBytes (accessOf i).1 (s.mmAt src)))
      (deviceEventsAfter s .write l (leBytes (accessOf i).1 (s.mmAt src))) l (rmLength p (.mem m))) := by
  have hw := memWrite_eq_ok (b := leBytes (accessOf i).1 (s.mmAt src)).mpr ⟨l, by rwa [leBytes_length], hs, rfl⟩
  rw [exec_store_to_memory hi, mmxPrologue_ready hr, Check.bind_ok, hw]
  rfl

/-- The instruction stores the `n` low bytes of MMX register `src` at the physical addresses `l`: where several bytes go to one
address the last stays, a device's bytes go to the device in one access, and no other byte of memory changes (20_memory.md
R72, R83; logs 8, 42). -/
def StoresLowBytes (i : Instr) (p : Prefixes) (src : MmReg) (m : MemOperand) (s : State) (l : List Nat) (n : Nat) : Prop :=
  ∃ mem events, exec i s = .next (storeResult s mem events l (rmLength p (.mem m))) ∧
    (∀ k < n, ∃ a, l[k]? = some a ∧
      (inRegion s.platform .device a = false → (∀ j, k < j → l[j]? ≠ some a) → memByte mem a = byteAt (s.mmAt src) k)) ∧
    (∀ a, a ∉ l ∨ inRegion s.platform .device a = true → memByte mem a = memByte s.mem a) ∧
    (NoDevice s l → events = s.deviceEvents) ∧
    (TouchesDevice s l → events =
      { kind := .write, addresses := l, bytes := (List.range n).map (byteAt (s.mmAt src)) } :: s.deviceEvents)

/-- The `k`-th of an access's addresses, where it has so many bytes. -/
theorem accessAddresses_get {s : State} {g : SegReg} {off : Dword} {n k : Nat} {kind : Access} {l : List Nat}
    (h : accessAddresses s g off n kind = .ok l) (hk : k < n) : ∃ a, l[k]? = some a :=
  ⟨_, List.getElem?_eq_getElem (by rwa [accessAddresses_length h])⟩

theorem exec_store_storesLowBytes {i : Instr} {p : Prefixes} {src : MmReg} {m : MemOperand} {s : State} {l : List Nat}
    (hi : i = .movdStore p src (.mem m) ∨ i = .movqStore p src (.mem m)) (hm : Memory.wf s.mem = true) (hr : MmxReady p s)
    (hl : accessAddresses s (segmentOf p m) (effectiveAddress s m) (accessOf i).1 .write = .ok l) (hs : StorePermitted s l) :
    StoresLowBytes i p src m s l (accessOf i).1 := by
  obtain ⟨hnone, hone⟩ := deviceEventsAfter_cases s .write l (leBytes (accessOf i).1 (s.mmAt src))
  refine ⟨_, _, exec_store_completes hi hr hl hs, fun k hk => ?_, fun a ha => storeBytes_ne ha, hnone, hone⟩
  obtain ⟨a, ha⟩ := accessAddresses_get hl hk
  have hlt : ∀ a ∈ l, a < memorySize := translate_lt (accessAddresses_eq_ok.mp hl).2.2
  exact ⟨a, ha, fun hdev hlast => storeBytes_get hm hlt ha (leBytes_get (s.mmAt src) hk) hlast hdev⟩

/-- Settles O34. -/
theorem moveStoresToMemory : Obligations.MoveStoresToMemory := by
  intro s p src m l hm hr hs
  exact ⟨fun hl => exec_store_storesLowBytes (.inr rfl) hm hr hl hs,
    fun hl => exec_store_storesLowBytes (.inl rfl) hm hr hl hs⟩

/-! ### Sources in memory -/

section Source

variable {s : State} {p : Prefixes} {m : MemOperand} {l : List Nat}

theorem readSrc64_mem (h : accessAddresses s (segmentOf p m) (effectiveAddress s m) 8 .read = .ok l) :
    readSrc64 p (.mem m) s = .ok (BitVec.ofNat 64 (leValue (l.map (loadByte s))), afterRead s l) := by
  rw [readSrc64, memRead, h]
  rfl

theorem readSrc32_mem (h : accessAddresses s (segmentOf p m) (effectiveAddress s m) 4 .read = .ok l) :
    readSrc32 p (.mem m) s = .ok (BitVec.ofNat 32 (leValue (l.map (loadByte s))), afterRead s l) := by
  rw [readSrc32, memRead, h]
  rfl

/-- Byte `k` of the value read is the byte of memory at the `k`-th address, where that is no device's (20_memory.md R72). -/
theorem loaded_byte {n w k : Nat} (hlen : l.length = n) (hw : 8 * n = w) (hk : k < n) :
    ∃ a, l[k]? = some a ∧ (inRegion s.platform .device a = false →
      (BitVec.ofNat w (leValue (l.map (loadByte s)))).extractLsb' (8 * k) 8 = memByte s.mem a) := by
  subst hlen
  refine ⟨l[k], List.getElem?_eq_getElem hk, fun hdev => ?_⟩
  rw [extract_leValue _ w k (by simpa using hk) (by simpa using hw), List.getElem_map, loadByte_memory hdev]

/-- The state after a read: unchanged, or with one more access to a device and one more draw, the access giving the bytes of the
value read (20_memory.md R83; log 42). -/
theorem afterRead_eq {n w : Nat} (hlen : l.length = n) (hw : 8 * n = w) :
    (NoDevice s l → afterRead s l = s) ∧
      (TouchesDevice s l → afterRead s l =
        { s with
          draws := s.draws + 1
          deviceEvents :=
            { kind := .read, addresses := l, bytes := leBytes n (BitVec.ofNat w (leValue (l.map (loadByte s)))) } ::
              s.deviceEvents }) := by
  rw [leBytes_leValue _ w n (by simpa using hlen) hw]
  rcases afterRead_cases s l with ⟨hno, h⟩ | ⟨⟨a, ha, hdev⟩, h⟩
  · exact ⟨fun _ => h, fun ⟨a, ha, hdev⟩ => by simp [hno a ha] at hdev⟩
  · exact ⟨fun hno => by simp [hno a ha] at hdev, fun _ => h⟩

end Source

/-- Settles O35. -/
theorem memorySourceIsLittleEndian : Obligations.MemorySourceIsLittleEndian := by
  intro s p m l
  refine ⟨fun h => ?_, fun h => ?_⟩
  · obtain ⟨hnone, hone⟩ := afterRead_eq (s := s) (w := 64) (accessAddresses_length h) rfl
    exact ⟨_, _, readSrc64_mem h, fun k hk => loaded_byte (accessAddresses_length h) rfl hk, hnone, hone⟩
  · obtain ⟨hnone, hone⟩ := afterRead_eq (s := s) (w := 32) (accessAddresses_length h) rfl
    exact ⟨_, _, readSrc32_mem h, fun k hk => loaded_byte (accessAddresses_length h) rfl hk, hnone, hone⟩

/-! ### Which instructions write memory -/

/-- The record of device accesses is as before, or holds one access more, of the direction and width of the memory operand
(20_memory.md R83; log 42). -/
def AtMostOneAccess (i : Instr) (s t : State) : Prop :=
  t.deviceEvents = s.deviceEvents ∨
    ∃ p m e, i.operand = some (p, .mem m) ∧ t.deviceEvents = e :: s.deviceEvents ∧ e.kind = (accessOf i).2 ∧
      e.addresses.length = (accessOf i).1 ∧ e.bytes.length = (accessOf i).1

/-- A form that writes an MMX register only reads its memory operand. -/
theorem access_read_of_writesMm {i : Instr} {p : Prefixes} {m : MemOperand} (hop : i.operand = some (p, .mem m))
    (hw : writesMm i = true) : (accessOf i).2 = .read := by
  rcases memory_operand_cases hop with ⟨d, rfl⟩ | ⟨src, rfl | rfl⟩ | ha
  · rfl
  · cases hw
  · cases hw
  · rw [ha]

/-- An access adds at most itself to the record. -/
theorem deviceEventsAfter_grows (s : State) (k : Access) (l : List Nat) (b : List Byte) :
    deviceEventsAfter s k l b = s.deviceEvents ∨
      deviceEventsAfter s k l b = { kind := k, addresses := l, bytes := b } :: s.deviceEvents := by
  unfold deviceEventsAfter
  split
  · exact .inr rfl
  · exact .inl rfl

theorem Completed.atMostOneAccess {i : Instr} {s t : State} (h : Completed i s t) : AtMostOneAccess i s t := by
  cases h with
  | register d r hp hr hw he hm =>
    rcases hm with rfl | ⟨m, hop⟩
    · exact .inl rfl
    · rcases he with rfl | ⟨e, hkind, haddr, hbytes, rfl⟩
      · exact .inl rfl
      · exact .inr ⟨_, m, e, hop, rfl, hkind.trans (access_read_of_writesMm hop hw).symm, haddr, hbytes⟩
  | @toMemory _ _ p src m l b hi hr hb hl hs =>
    obtain ⟨hop, hkind⟩ : i.operand = some (p, .mem m) ∧ (accessOf i).2 = .write := by
      rcases hi with rfl | rfl <;> exact ⟨rfl, rfl⟩
    rcases deviceEventsAfter_grows s .write l b with hev | hev
    · exact .inl hev
    · exact .inr ⟨p, m, _, hop, hev, hkind.symm, accessAddresses_length hl, hb ▸ leBytes_length _ _⟩
  | toGpr | emms | cpuid | edxEax | wrmsr | wbinvd => exact .inl rfl

/-- An instruction that completes leaves memory, or is a store to it. -/
theorem Completed.memory_eq {i : Instr} {s t : State} (h : Completed i s t) :
    (∃ p src m, i = .movdStore p src (.mem m) ∨ i = .movqStore p src (.mem m)) ∨ (t.mem = s.mem ∧ t.stored = s.stored) := by
  cases h with
  | register d r hp hr hw he hm => obtain ⟨_, _, rfl⟩ := he.eq_with; exact .inr ⟨rfl, rfl⟩
  | toMemory src m l b hi hr hb hl hs => exact .inl ⟨_, src, m, hi⟩
  | toGpr | emms | cpuid | edxEax | wrmsr | wbinvd => exact .inr ⟨rfl, rfl⟩

/-- Settles O46. -/
theorem memoryWriters : Obligations.MemoryWriters := by
  intro i s t h
  rcases exec_next_cases h with (⟨e, rfl⟩ | rfl) | hc
  · exact ⟨.inr ⟨rfl, rfl⟩, .inl rfl⟩
  · exact ⟨.inr ⟨rfl, rfl⟩, .inl rfl⟩
  · exact ⟨hc.memory_eq, hc.atMostOneAccess⟩

/-! ### Round trips -/

/-- A value is determined by its bytes. -/
theorem leBytes_injective {n w : Nat} (hw : 8 * n = w) {x y : BitVec w} (h : leBytes n x = leBytes n y) : x = y := by
  apply BitVec.eq_of_getLsbD_eq
  intro j hj
  have hk : j / 8 < n := by omega
  have hbyte : x.extractLsb' (8 * (j / 8)) 8 = y.extractLsb' (8 * (j / 8)) 8 := by
    have hget := congrArg (·[j / 8]?) h
    simpa only [leBytes_get _ hk, Option.some.injEq] using hget
  have hbit := congrArg (BitVec.getLsbD · (j % 8)) hbyte
  simpa only [BitVec.getLsbD_extractLsb', Nat.mod_lt j (show 0 < 8 by decide), decide_true, Bool.true_and, Nat.div_add_mod]
    using hbit

/-- The value of the bytes of a value is that value (20_memory.md R72). -/
theorem ofNat_leValue_leBytes {n w : Nat} (hw : 8 * n = w) (v : BitVec w) : BitVec.ofNat w (leValue (leBytes n v)) = v :=
  leBytes_injective hw (leBytes_leValue _ w n (leBytes_length n v) hw)

/-- Bytes stored at different addresses of memory are the bytes that a load of those addresses gives. -/
theorem loadByte_storeBytes {s t : State} {l : List Nat} {b : List Byte} (hm : Memory.wf s.mem = true)
    (hlt : ∀ a ∈ l, a < memorySize) (hlen : b.length = l.length) (hno : NoDevice s l) (hnodup : l.Nodup)
    (hp : t.platform = s.platform) (ht : t.mem = storeBytes s l b) : l.map (loadByte t) = b := by
  apply List.ext_getElem
  · simp [hlen]
  · intro k hk hkb
    have hkl : k < l.length := by simpa using hk
    have hdev := hno l[k] (List.getElem_mem hkl)
    have hlast : ∀ j, k < j → l[j]? ≠ some l[k] := fun j hj he => by
      obtain ⟨hjl, he⟩ := List.getElem?_eq_some_iff.mp he
      exact absurd (hnodup.getElem_inj_iff.mp he) (by omega)
    rw [List.getElem_map, loadByte_memory (hp ▸ hdev), ht]
    exact storeBytes_get hm hlt (List.getElem?_eq_getElem hkl) (List.getElem?_eq_getElem hkb) hlast hdev

/-- An effective address depends on the general-purpose registers alone. -/
theorem effectiveAddress_congr {s t : State} (h : t.gpr = s.gpr) (m : MemOperand) :
    effectiveAddress t m = effectiveAddress s m := by
  have hgpr : ∀ r, t.gprAt r = s.gprAt r := fun r => by rw [State.gprAt, State.gprAt, h]
  have hlow : ∀ r, low16 t r = low16 s r := fun r => by rw [low16, low16, hgpr]
  rcases m with (⟨row, d⟩ | d) | (⟨r, d⟩ | d | ⟨sc, x, b, d⟩ | ⟨sc, x, d⟩) <;>
    simp only [effectiveAddress, indexValue, sum16, hgpr, hlow]

/-- A store leaves the checks and the addresses of every access as they were. -/
theorem accessAddresses_storeResult (s : State) (mem : List Host.Cell) (events : List DeviceEvent) (l : List Nat)
    (length : Nat) (p : Prefixes) (m : MemOperand) (n : Nat) (k : Access) :
    accessAddresses (storeResult s mem events l length) (segmentOf p m)
        (effectiveAddress (storeResult s mem events l length) m) n k =
      accessAddresses s (segmentOf p m) (effectiveAddress s m) n k := by
  rw [effectiveAddress_congr (show (storeResult s mem events l length).gpr = s.gpr from rfl)]
  exact accessAddresses_congr (s := s) (t := storeResult s mem events l length) rfl rfl rfl rfl rfl rfl _ _ _ _

/-- MOVQ loads what its source reads (45_move.md R223). -/
theorem exec_movqLoad_of_read {p : Prefixes} {d : MmReg} {src : RM} {s u : State} {v : Qword} (hr : MmxReady p s)
    (h : readSrc64 p src s = .ok (v, u)) : exec (.movqLoad p d src) s = .next (mmxResult u d v (rmLength p src)) :=
  mmxRegMem_completes (f := fun _ v => v) hr h

/-- MOVD loads what its source reads, zero-extended (45_move.md R221). -/
theorem exec_movdLoad_of_read {p : Prefixes} {d : MmReg} {src : RM} {s u : State} {v : Dword} (hr : MmxReady p s)
    (h : readSrc32 p src s = .ok (v, u)) :
    exec (.movdLoad p d src) s = .next (mmxResult u d (v.setWidth 64) (rmLength p src)) := by
  rw [exec, execMovdLoad, mmxPrologue_ready hr, Check.bind_ok, h]
  rfl

/-- MOVD stores bits 31 to 0 in a general-purpose register (45_move.md R222). -/
theorem exec_movdStore_reg {p : Prefixes} {src : MmReg} {n : Gpr} {s : State} (hr : MmxReady p s) :
    exec (.movdStore p src (.reg n)) s =
      .next ((s.setGpr n ((s.mmAt src).setWidth 32)).mmxDone (rmLength p (.reg n))) := by
  rw [exec, execMovdStore, mmxPrologue_ready hr]
  rfl

/-- The register that an MMX instruction wrote reads as the value it was given. -/
theorem mmAt_mmxResult (s : State) (d : MmReg) (v : Qword) (n : Nat) : (mmxResult s d v n).mmAt d = v :=
  RegFile.get_set_same _ _ _

/-- What a store wrote to different addresses of memory, a load of the same operand reads: the low bytes of the register. -/
theorem loaded_after_store {i : Instr} {p : Prefixes} {src : MmReg} {m : MemOperand} {s : State} {l : List Nat}
    (hi : i = .movdStore p src (.mem m) ∨ i = .movqStore p src (.mem m)) (hm : Memory.wf s.mem = true) (hr : MmxReady p s)
    (hl : accessAddresses s (segmentOf p m) (effectiveAddress s m) (accessOf i).1 .write = .ok l) (hs : StorePermitted s l)
    (hno : NoDevice s l) (hnodup : l.Nodup) :
    ∃ t, exec i s = .next t ∧ MmxReady p t ∧ l.map (loadByte t) = leBytes (accessOf i).1 (s.mmAt src) ∧
      ∀ n k, accessAddresses t (segmentOf p m) (effectiveAddress t m) n k =
        accessAddresses s (segmentOf p m) (effectiveAddress s m) n k := by
  have hlt : ∀ a ∈ l, a < memorySize := translate_lt (accessAddresses_eq_ok.mp hl).2.2
  have hlen : (leBytes (accessOf i).1 (s.mmAt src)).length = l.length := by rw [leBytes_length, accessAddresses_length hl]
  exact ⟨_, exec_store_completes hi hr hl hs, hr, loadByte_storeBytes hm hlt hlen hno hnodup rfl rfl,
    fun n k => accessAddresses_storeResult s _ _ l _ p m n k⟩

theorem movq_memory_roundTrip {s : State} {p : Prefixes} {src dst : MmReg} {m : MemOperand} {l : List Nat}
    (hm : Memory.wf s.mem = true) (hr : MmxReady p s)
    (hw : accessAddresses s (segmentOf p m) (effectiveAddress s m) 8 .write = .ok l)
    (hrd : accessAddresses s (segmentOf p m) (effectiveAddress s m) 8 .read = .ok l) (hs : StorePermitted s l)
    (hno : NoDevice s l) (hnodup : l.Nodup) :
    ∃ t u, exec (.movqStore p src (.mem m)) s = .next t ∧ exec (.movqLoad p dst (.mem m)) t = .next u ∧
      u.mmAt dst = s.mmAt src := by
  obtain ⟨t, hst, hrt, hload, hacc⟩ := loaded_after_store (.inr rfl) hm hr hw hs hno hnodup
  refine ⟨t, _, hst, exec_movqLoad_of_read hrt (readSrc64_mem ((hacc 8 .read).trans hrd)), ?_⟩
  rw [mmAt_mmxResult, hload]
  exact ofNat_leValue_leBytes rfl _

theorem movd_memory_roundTrip {s : State} {p : Prefixes} {src dst : MmReg} {m : MemOperand} {l : List Nat}
    (hm : Memory.wf s.mem = true) (hr : MmxReady p s)
    (hw : accessAddresses s (segmentOf p m) (effectiveAddress s m) 4 .write = .ok l)
    (hrd : accessAddresses s (segmentOf p m) (effectiveAddress s m) 4 .read = .ok l) (hs : StorePermitted s l)
    (hno : NoDevice s l) (hnodup : l.Nodup) :
    ∃ t u, exec (.movdStore p src (.mem m)) s = .next t ∧ exec (.movdLoad p dst (.mem m)) t = .next u ∧
      u.mmAt dst = (dwordAt (s.mmAt src) 0).setWidth 64 := by
  obtain ⟨t, hst, hrt, hload, hacc⟩ := loaded_after_store (.inl rfl) hm hr hw hs hno hnodup
  refine ⟨t, _, hst, exec_movdLoad_of_read hrt (readSrc32_mem ((hacc 4 .read).trans hrd)), ?_⟩
  rw [mmAt_mmxResult, hload, show (accessOf (.movdStore p src (.mem m))).1 = 4 from rfl, ← leBytes_movd,
    ofNat_leValue_leBytes (n := 4) rfl, setWidth_eq_dwordAt]

/-- Settles O58. -/
theorem moveRoundTrips : Obligations.MoveRoundTrips := by
  refine ⟨fun s p src dst m l => movq_memory_roundTrip, fun s p src dst m l => movd_memory_roundTrip,
    fun s p q src dst n hp hq => ?storeLoad, fun s p q r n k hp hq => ?loadStore⟩
  case storeLoad =>
    refine ⟨_, _, exec_movdStore_reg hp, exec_movdLoad_of_read hq (readSrc32_reg q n _), ?_⟩
    rw [mmAt_mmxResult, State.gprAt_mmxDone, State.gprAt_setGpr_same, setWidth_eq_dwordAt]
  case loadStore =>
    refine ⟨_, _, exec_movdLoad_of_read hp (readSrc32_reg p n s), exec_movdStore_reg hq, ?_⟩
    rw [State.gprAt_mmxDone, State.gprAt_setGpr_same, mmAt_mmxResult]
    exact BitVec.setWidth_setWidth_of_le _ (by decide)

/-! ### WBINVD -/

/-- Settles O42: the duty of R372 is met unless it was already broken. -/
theorem wbinvdAdvances : Obligations.WbinvdAdvances := by
  intro s hcpl hmode
  have hexec : exec .wbinvd s = .next { s with pc := s.pc + 2, whcrDuty := s.whcrDuty.met } := by
    rw [exec, execWbinvd, requireCpl0_eq_ok.mpr ⟨hcpl, hmode⟩]
    rfl
  refine ⟨s.whcrDuty.met, hexec, fun hne => ?_, fun heq => by rw [heq]; rfl⟩
  cases hd : s.whcrDuty with
  | due | done => rfl
  | omitted => exact absurd hd hne

end Sys2Proof.Machine
end

section
/-! The decoder (30_encoding.md R100 to R121): decoding the encoding of a well-formed instruction gives it back, whatever follows
it. -/

namespace Sys2Proof

/-! ### Bytes of an encoding -/

/-- A disp16 is read back from its bytes. -/
theorem takeWord_wordBytes (d : Word) (rest : List Byte) : takeWord (wordBytes d ++ rest) = .ok (d, rest) := by
  have hd : d.extractLsb' 8 8 ++ d.extractLsb' 0 8 = d := by
    rw [BitVec.extractLsb'_append_extractLsb'_eq_extractLsb' (show 8 = 0 + 8 from rfl)]
    exact BitVec.extractLsb'_eq_self
  rw [wordBytes, List.cons_append, List.cons_append, List.nil_append, takeWord, hd]

/-- A disp32 is read back from its bytes. -/
theorem takeDword_dwordBytes (d : Dword) (rest : List Byte) : takeDword (dwordBytes d ++ rest) = .ok (d, rest) := by
  have hd : d.extractLsb' 24 8 ++ d.extractLsb' 16 8 ++ d.extractLsb' 8 8 ++ d.extractLsb' 0 8 = d := by
    rw [BitVec.extractLsb'_append_extractLsb'_eq_extractLsb' (show 24 = 16 + 8 from rfl),
      BitVec.extractLsb'_append_extractLsb'_eq_extractLsb' (show 16 = 8 + 8 from rfl),
      BitVec.extractLsb'_append_extractLsb'_eq_extractLsb' (show 8 = 0 + 8 from rfl)]
    exact BitVec.extractLsb'_eq_self
  rw [dwordBytes, List.cons_append, List.cons_append, List.cons_append, List.cons_append, List.nil_append, takeDword, hd]

theorem modRM_toNat (mod : Fin 4) (reg rm : Fin 8) : (modRM mod reg rm).toNat = mod.val * 64 + reg.val * 8 + rm.val := by
  rw [modRM, BitVec.toNat_ofNat]
  omega

@[simp] theorem modField_modRM (mod : Fin 4) (reg rm : Fin 8) : modField (modRM mod reg rm) = mod := by
  apply Fin.ext
  simp only [modField, modRM_toNat, Fin.val_ofNat]
  omega

@[simp] theorem regField_modRM (mod : Fin 4) (reg rm : Fin 8) : regField (modRM mod reg rm) = reg := by
  apply Fin.ext
  simp only [regField, modRM_toNat, Fin.val_ofNat]
  omega

@[simp] theorem rmField_modRM (mod : Fin 4) (reg rm : Fin 8) : rmField (modRM mod reg rm) = rm := by
  apply Fin.ext
  simp only [rmField, modRM_toNat, Fin.val_ofNat]
  omega

/-! ### Prefixes -/

theorem decodePrefixes_lock (rest : List Byte) {p : Prefixes} (hp : p.lock = false) :
    decodePrefixes (0xF0 :: rest) p = decodePrefixes rest { p with lock := true } := by
  simp [decodePrefixes, hp]

theorem decodePrefixes_override (r : SegReg) (rest : List Byte) {p : Prefixes} (hp : p.seg = none) :
    decodePrefixes (r.overrideByte :: rest) p = decodePrefixes rest { p with seg := some r } := by
  cases r <;> simp [decodePrefixes, SegReg.overrideByte, segOverride, hp]

theorem decodePrefixes_addrSize (rest : List Byte) {p : Prefixes} (hp : p.addrSize = false) :
    decodePrefixes (0x67 :: rest) p = decodePrefixes rest { p with addrSize := true } := by
  simp [decodePrefixes, hp]

/-- The byte 0Fh ends the prefixes. -/
theorem decodePrefixes_opcode (rest : List Byte) (p : Prefixes) :
    decodePrefixes (0x0F :: rest) p = .ok (p, 0x0F :: rest) := by
  simp [decodePrefixes, segOverride]

/-- The prefixes of an instruction are read back from their bytes, up to the opcode (30_encoding.md R101). -/
theorem decodePrefixes_bytes (p : Prefixes) (rest : List Byte) :
    decodePrefixes (p.bytes ++ 0x0F :: rest) {} = .ok (p, 0x0F :: rest) := by
  obtain ⟨lock, seg, addrSize⟩ := p
  cases lock <;> cases seg <;> cases addrSize <;>
    simp only [Prefixes.bytes, Bool.false_eq_true, if_true, if_false, List.cons_append, List.nil_append,
      decodePrefixes_lock, decodePrefixes_override, decodePrefixes_addrSize, decodePrefixes_opcode]

/-! ### Displacements -/

/-- A displacement under 32-bit addressing is read back from its bytes. -/
theorem decodeDisp32_encode (d : Disp32) (rest : List Byte) :
    decodeDisp32 d.encode.1 (d.encode.2 ++ rest) = .ok (d, rest) := by
  cases d with
  | none | d8 d => rfl
  | d32 d => simp [decodeDisp32, Disp32.encode, takeDword_dwordBytes]

/-- A displacement under 16-bit addressing is read back from its bytes. -/
theorem decodeDisp16_encode (d : Disp16) (rest : List Byte) :
    decodeDisp16 d.encode.1 (d.encode.2 ++ rest) = .ok (d, rest) := by
  cases d with
  | none | d8 d => rfl
  | d16 d => simp [decodeDisp16, Disp16.encode, takeWord_wordBytes]

/-- `mod` is 0 only where there is no displacement (30_encoding.md R105). -/
theorem Disp32.encode_mod_eq_zero {d : Disp32} : d.encode.1 = 0 ↔ d = .none := by
  cases d <;> simp [Disp32.encode]

theorem Disp16.encode_mod_eq_zero {d : Disp16} : d.encode.1 = 0 ↔ d = .none := by
  cases d <;> simp [Disp16.encode]

/-- `mod` 3 is for register operands (30_encoding.md R103). -/
theorem Disp32.encode_mod_ne_three (d : Disp32) : d.encode.1 ≠ 3 := by
  cases d <;> simp [Disp32.encode]

theorem Disp16.encode_mod_ne_three (d : Disp16) : d.encode.1 ≠ 3 := by
  cases d <;> simp [Disp16.encode]

/-! ### Operands -/

theorem decodeRM_reg (a32 : Bool) (reg n : Fin 8) (rest : List Byte) :
    decodeRM a32 (modRM 3 reg n :: rest) = .ok (reg, .reg n, rest) := by
  simp [decodeRM, takeByte]

theorem decodeRM_a32 {mod : Fin 4} {reg rm : Fin 8} {bytes rest : List Byte} {a : Addr32} (hm : mod ≠ 3)
    (h : decodeAddr32 mod rm bytes = .ok (a, rest)) :
    decodeRM true (modRM mod reg rm :: bytes) = .ok (reg, .mem (.a32 a), rest) := by
  simp [decodeRM, takeByte, hm, h]

theorem decodeRM_a16 {mod : Fin 4} {reg rm : Fin 8} {bytes rest : List Byte} {a : Addr16} (hm : mod ≠ 3)
    (h : decodeAddr16 mod rm bytes = .ok (a, rest)) :
    decodeRM false (modRM mod reg rm :: bytes) = .ok (reg, .mem (.a16 a), rest) := by
  simp [decodeRM, takeByte, hm, h]

/-- A 32-bit memory operand is read back from its bytes: SIB escape, disp32 alone and base with displacement exclude one another
(30_encoding.md R105, R106). -/
theorem decodeRM_addr32_bytes {a : Addr32} (ha : a.wf = true) (reg : Fin 8) (rest : List Byte) :
    decodeRM true (a.bytes reg ++ rest) = .ok (reg, .mem (.a32 a), rest) := by
  cases a with
  | base r d =>
    have hwf : r ≠ 4 ∧ ¬(r = 5 ∧ d = .none) := by simpa [Addr32.wf, imp_iff_not_or] using ha
    rw [Addr32.bytes, List.cons_append]
    refine decodeRM_a32 d.encode_mod_ne_three ?_
    rw [decodeAddr32, if_neg hwf.1, if_neg (by rw [Disp32.encode_mod_eq_zero]; exact hwf.2), decodeDisp32_encode]
  | abs d =>
    rw [Addr32.bytes, List.cons_append]
    refine decodeRM_a32 (by decide) ?_
    rw [decodeAddr32, if_neg (by decide), if_pos (by decide), takeDword_dwordBytes]
  | sib sc ix b d =>
    have hwf : ¬(b = 5 ∧ d = .none) := by simpa [Addr32.wf, imp_iff_not_or] using ha
    rw [Addr32.bytes, List.cons_append]
    refine decodeRM_a32 d.encode_mod_ne_three ?_
    simp only [decodeAddr32, if_true, List.cons_append, decodeSib, takeByte, rmField_modRM, modField_modRM, regField_modRM,
      Disp32.encode_mod_eq_zero, if_neg hwf, decodeDisp32_encode]
  | sibNoBase sc ix d =>
    rw [Addr32.bytes, List.cons_append]
    refine decodeRM_a32 (by decide) ?_
    simp only [decodeAddr32, if_true, List.cons_append, decodeSib, takeByte, rmField_modRM, modField_modRM, regField_modRM,
      and_self, takeDword_dwordBytes]

/-- A 16-bit memory operand is read back from its bytes (30_encoding.md R107). -/
theorem decodeRM_addr16_bytes {a : Addr16} (ha : a.wf = true) (reg : Fin 8) (rest : List Byte) :
    decodeRM false (a.bytes reg ++ rest) = .ok (reg, .mem (.a16 a), rest) := by
  cases a with
  | regs rm d =>
    have hwf : ¬(rm = 6 ∧ d = .none) := by simpa [Addr16.wf, imp_iff_not_or] using ha
    rw [Addr16.bytes, List.cons_append]
    refine decodeRM_a16 d.encode_mod_ne_three ?_
    rw [decodeAddr16, if_neg (by rw [Disp16.encode_mod_eq_zero]; exact hwf), decodeDisp16_encode]
  | abs d =>
    rw [Addr16.bytes, List.cons_append]
    refine decodeRM_a16 (by decide) ?_
    rw [decodeAddr16, if_pos (by decide), takeWord_wordBytes]

/-- Every well-formed operand is read back from its bytes (30_encoding.md R103 to R108). -/
theorem decodeRM_bytes {d32 : Bool} {p : Prefixes} {rm : RM} (h : rm.wf d32 p = true) (reg : Fin 8) (rest : List Byte) :
    decodeRM (p.addr32 d32) (rm.bytes reg ++ rest) = .ok (reg, rm, rest) := by
  rcases rm with n | a | a
  · exact decodeRM_reg _ reg n rest
  · obtain ⟨ha, hp⟩ : a.wf = true ∧ p.addr32 d32 = false := by simpa [RM.wf] using h
    rw [hp]
    exact decodeRM_addr16_bytes ha reg rest
  · obtain ⟨ha, hp⟩ : a.wf = true ∧ p.addr32 d32 = true := by simpa [RM.wf] using h
    rw [hp]
    exact decodeRM_addr32_bytes ha reg rest

/-! ### Instructions -/

/-- After the prefixes and 0Fh comes the second opcode byte (30_encoding.md R102). -/
theorem decode_prefixes_0F (d32 : Bool) (p : Prefixes) (op : Byte) (bytes : List Byte) :
    decode d32 (p.bytes ++ 0x0F :: op :: bytes) = decode0F d32 p op bytes := by
  rw [decode, decodePrefixes_bytes]
  rfl

/-- The second opcode byte of a form `0F op /r` is neither that of EMMS nor of the immediate shifts (30_encoding.md R112). -/
theorem rmRows_op_ne {op : Byte} {form : RmForm} (h : rmRows.lookup op = some form) :
    op ≠ 0x77 ∧ ¬(op = 0x71 ∨ op = 0x72 ∨ op = 0x73) := by
  refine ⟨?_, ?_⟩
  · rintro rfl
    cases h
  · rintro (rfl | rfl | rfl) <;> cases h

/-- A form `0F op /r` is read back from its bytes. -/
theorem decode_encodeRM {d32 : Bool} {op : Byte} {form : RmForm} (hop : rmRows.lookup op = some form) {p : Prefixes} {rm : RM}
    (h : rm.wf d32 p = true) (reg : Fin 8) (rest : List Byte) :
    decode d32 (encodeRM op p reg rm ++ rest) = .ok (form p reg rm, rest) := by
  obtain ⟨hemms, hshift⟩ := rmRows_op_ne hop
  rw [encodeRM, List.append_assoc, List.cons_append, List.cons_append, decode_prefixes_0F, decode0F, if_neg hemms,
    if_neg hshift, hop]
  simp only [decodeRM_bytes h]

/-- An immediate shift is read back from its bytes (30_encoding.md R110). -/
theorem decode_encodeImm (d32 : Bool) {op : Byte} {n : Fin 8} {form : ImmForm} (hop : immRows.lookup (op, n) = some form)
    (hs : op = 0x71 ∨ op = 0x72 ∨ op = 0x73) (p : Prefixes) (dst : MmReg) (imm : Byte) (rest : List Byte) :
    decode d32 (encodeImm op n p dst imm ++ rest) = .ok (form p dst imm, rest) := by
  have hemms : op ≠ 0x77 := by rcases hs with rfl | rfl | rfl <;> decide
  rw [encodeImm, List.append_assoc, List.cons_append, List.cons_append, decode_prefixes_0F, decode0F, if_neg hemms,
    if_pos hs]
  simp only [decodeImmShift, List.cons_append, List.nil_append, takeByte, regField_modRM, modField_modRM, rmField_modRM, hop,
    if_true]

/-- Decoding the encoding of a well-formed instruction gives it back, whatever follows it (30_encoding.md R100 to R112,
R121). -/
theorem decode_encode_append {d32 : Bool} {i : Instr} (h : i.wf d32 = true) (rest : List Byte) :
    decode d32 (encode i ++ rest) = .ok (i, rest) := by
  cases i
  case emms p => rw [encode, List.append_assoc]; exact decode_prefixes_0F d32 p _ _
  case cpuid | rdmsr | wrmsr | rdtsc | wbinvd => rfl
  case psllwImm p d imm | psrawImm p d imm | psrlwImm p d imm => exact decode_encodeImm d32 rfl (.inl rfl) p d imm rest
  case pslldImm p d imm | psradImm p d imm | psrldImm p d imm => exact decode_encodeImm d32 rfl (.inr (.inl rfl)) p d imm rest
  case psllqImm p d imm | psrlqImm p d imm => exact decode_encodeImm d32 rfl (.inr (.inr rfl)) p d imm rest
  all_goals exact decode_encodeRM rfl h _ rest

/-- Where a list begins with the encoding of a well-formed instruction, the decoder takes exactly those bytes. -/
theorem decode_of_take_encode {d32 : Bool} {i : Instr} (h : i.wf d32 = true) {bytes : List Byte}
    (hb : bytes.take (encode i).length = encode i) :
    ∃ rest, decode d32 bytes = .ok (i, rest) ∧ bytes.length - rest.length = (encode i).length := by
  have hsplit : bytes = encode i ++ bytes.drop (encode i).length := by
    conv_lhs => rw [← List.take_append_drop (encode i).length bytes, hb]
  refine ⟨bytes.drop (encode i).length, ?_, ?_⟩
  · conv_lhs => rw [hsplit]
    exact decode_encode_append h _
  · have hlen := congrArg List.length hsplit
    rw [List.length_append] at hlen
    omega

end Sys2Proof
end

section
/-! The step (20_memory.md R73, R84): a step runs the instruction decoded at `pc`, and so the one that is encoded there. -/

namespace Sys2Proof.Machine

/-- The moves of the environment still to come are not seen by a fetch. -/
theorem codeBytes_withEnv (s : State) (moves : List EnvMove) (lin : Dword) (n : Nat) :
    codeBytes { s with env := moves } lin n = codeBytes s lin n := by
  induction n generalizing lin with
  | zero => rfl
  | succ n ih =>
    have htr : translateAt { s with env := moves } .fetch 1 lin = translateAt s .fetch 1 lin := rfl
    simp only [codeBytes, ih, htr]

theorem codeAt_withEnv (s : State) (moves : List EnvMove) : codeAt { s with env := moves } = codeAt s :=
  codeBytes_withEnv s moves _ _

/-- The physical addresses of the bytes at `pc` that are decoded when `left` bytes are left over. -/
def decodedAddresses (s : State) (left : Nat) : List Nat := ((codeAt s).take ((codeAt s).length - left)).map (·.1)

/-- One instruction of the processor, where nothing stands against it, is the instruction decoded at `pc`. -/
theorem processorStep_of_decode {s : State} {i : Instr} {rest : List Byte} (he : s.exception = none)
    (hp : programRefusal s = none) (hd : decode (default32 s) ((codeAt s).map (·.2)) = .ok (i, rest))
    (hf : fetchCheck s (decodedAddresses s rest.length) = none) :
    processorStep s = exec i (s.recordFetch (decodedAddresses s rest.length)) := by
  unfold decodedAddresses at *
  simp only [processorStep, he, hp, hd, hf]

/-- Settles O5. -/
theorem stepRunsDecodedInstruction : Obligations.StepRunsDecodedInstruction := by
  intro s i rest he hp hd hf
  refine ⟨fun henv => ?last, fun moves henv => ?quiet⟩
  case last => exact (step_of_no_move henv).trans (processorStep_of_decode he hp hd hf)
  case quiet =>
    have hcode : decodedAddresses { s with env := moves } rest.length = decodedAddresses s rest.length := by
      rw [decodedAddresses, codeAt_withEnv]
      rfl
    have hstep := processorStep_of_decode (s := { s with env := moves }) (i := i) (rest := rest) he hp
      (by rw [codeAt_withEnv]; exact hd) (by rw [hcode]; exact hf)
    rw [step_of_move henv, environmentStep, hstep, hcode]
    rfl

/-- Settles O6: the decoder takes the encoding's bytes and no more, so that the step is that of O5. -/
theorem encodedInstructionRuns : Obligations.EncodedInstructionRuns := by
  intro s i henv he hp hwf hbytes hf
  obtain ⟨rest, hd, hlen⟩ := decode_of_take_encode hwf hbytes
  rw [List.length_map] at hlen
  have hstep := (stepRunsDecodedInstruction s i rest he hp hd (by rw [hlen]; exact hf)).1 henv
  rwa [hlen] at hstep

end Sys2Proof.Machine
end

section
/-! Effective addresses and segments of the memory operands, as numbers (30_encoding.md R105 to R107, R117; 20_memory.md R77). -/

namespace Sys2Proof.Machine

/-! ### Displacements and indices -/

/-- A value and its two's complement reading agree modulo the width. -/
theorem toNat_emod_eq_toInt {w : Nat} (x : BitVec w) : (x.toNat : Int) % 2 ^ w = x.toInt % 2 ^ w := by
  rw [BitVec.toInt_eq_toNat_bmod]
  exact_mod_cast (Int.bmod_emod (x := (x.toNat : Int)) (m := 2 ^ w)).symm

/-- A byte of displacement is added as a signed number (30_encoding.md R105, R107). -/
theorem toNat_add_signExtend {w : Nat} (hw : 8 ≤ w) (x : BitVec w) (d : Byte) :
    ((x + d.signExtend w).toNat : Int) = (x.toNat + d.toInt) % 2 ^ w := by
  have hd : (d.signExtend w).toInt = d.toInt := BitVec.toInt_signExtend_of_le hw
  rw [BitVec.toNat_add, ← hd, ← Int.add_emod_emod, ← toNat_emod_eq_toInt, Int.add_emod_emod]
  exact_mod_cast rfl

/-- The scaled index modulo 2^32; number 4 is no index (30_encoding.md R106). -/
theorem indexValue_toNat (s : State) (sc : Fin 4) (x : Gpr) :
    (indexValue s sc x).toNat = (if x = 4 then 0 else (s.gprAt x).toNat * 2 ^ sc.val) % 2 ^ 32 := by
  unfold indexValue
  split
  · rfl
  · rw [BitVec.toNat_shiftLeft, Nat.shiftLeft_eq]

/-- Base and scaled index, before the displacement. -/
theorem base_index_toNat (s : State) (b : Gpr) (sc : Fin 4) (x : Gpr) :
    (s.gprAt b + indexValue s sc x).toNat =
      ((s.gprAt b).toNat + if x = 4 then 0 else (s.gprAt x).toNat * 2 ^ sc.val) % 2 ^ 32 := by
  rw [BitVec.toNat_add, indexValue_toNat, Nat.add_mod_mod]

/-! ### 16-bit addressing -/

/-- The rows of the table of R107 without displacement, as numbers: BX is 3, BP 5, SI 6, DI 7. -/
def rowSums (s : State) : List (Fin 8 × Nat) :=
  let bx := (s.gprAt 3).toNat
  let bp := (s.gprAt 5).toNat
  let si := (s.gprAt 6).toNat
  let di := (s.gprAt 7).toNat
  [(0, bx + si), (1, bx + di), (2, bp + si), (3, bp + di), (4, si), (5, di), (6, bp), (7, bx)]

/-- The registers of a row add up modulo 2^16. -/
theorem sum16_toNat {s : State} {row : Fin 8} {sum : Nat} (h : (row, sum) ∈ rowSums s) :
    (sum16 s row).toNat = sum % 2 ^ 16 := by
  simp only [rowSums, List.mem_cons, Prod.mk.injEq, List.not_mem_nil, or_false] at h
  rcases h with ⟨rfl, rfl⟩ | ⟨rfl, rfl⟩ | ⟨rfl, rfl⟩ | ⟨rfl, rfl⟩ | ⟨rfl, rfl⟩ | ⟨rfl, rfl⟩ | ⟨rfl, rfl⟩ | ⟨rfl, rfl⟩ <;>
    simp only [sum16, low16, BitVec.toNat_add, BitVec.toNat_setWidth, Nat.add_mod_mod, Nat.mod_add_mod]

/-- A 16-bit address is zero-extended. -/
theorem effectiveAddress_regs16_toNat (s : State) (row : Fin 8) (d : Disp16) :
    (effectiveAddress s (.a16 (.regs row d))).toNat = (sum16 s row + dispValue16 d).toNat := by
  rw [effectiveAddress, BitVec.toNat_setWidth_of_le (by decide)]

/-! ### Segments -/

/-- An override decides the segment (30_encoding.md R117). -/
theorem segmentOf_override {p : Prefixes} {r : SegReg} (h : p.seg = some r) (m : MemOperand) : segmentOf p m = r := by
  rw [segmentOf, h]
  rfl

/-- Without an override the operand's default segment is used (20_memory.md R77). -/
theorem segmentOf_default {p : Prefixes} (h : p.seg = none) (m : MemOperand) : segmentOf p m = defaultSegment m := by
  rw [segmentOf, h]
  rfl

/-! ### All forms -/

/-- Settles O59: each form's sum, with its displacement, modulo the address size. -/
theorem effectiveAddresses : Obligations.EffectiveAddresses := by
  refine ⟨fun s b x sc d8 d16 d32 => ?a32, fun s row sum d8 d16 h => ?a16, fun p b x sc e d32 row d d16 => ?segment⟩
  case a32 =>
    intro base index
    have hsum : (s.gprAt b + indexValue s sc x).toNat = (base + index) % 2 ^ 32 := base_index_toNat s b sc x
    refine ⟨?base, toNat_add_signExtend (by decide) _ d8, BitVec.toNat_add _ _, rfl, ?sib, ?sib8, ?sib32, ?noBase, ?abs16⟩
    case base => rw [effectiveAddress, dispValue32, add_zero]
    case sib => rw [effectiveAddress, dispValue32, add_zero, hsum]
    case sib8 =>
      rw [effectiveAddress, dispValue32, toNat_add_signExtend (by decide), hsum]
      push_cast
      rw [Int.emod_add_emod]
    case sib32 => rw [effectiveAddress, dispValue32, BitVec.toNat_add, hsum, Nat.mod_add_mod]
    case noBase => rw [effectiveAddress, BitVec.toNat_add, indexValue_toNat, Nat.add_mod_mod]
    case abs16 => rw [effectiveAddress, BitVec.toNat_setWidth_of_le (by decide)]
  case a16 =>
    have hsum : (sum16 s row).toNat = sum % 2 ^ 16 := sum16_toNat h
    simp only [effectiveAddress_regs16_toNat]
    refine ⟨?none, ?d8, ?d16⟩
    case none => rw [dispValue16, add_zero, hsum]
    case d8 =>
      rw [dispValue16, toNat_add_signExtend (by decide), hsum]
      push_cast
      rw [Int.emod_add_emod]
    case d16 => rw [dispValue16, BitVec.toNat_add, hsum, Nat.mod_add_mod]
  case segment =>
    refine ⟨fun r m hr => segmentOf_override hr m, fun hnone => ?_⟩
    simp only [segmentOf_default hnone]
    exact ⟨rfl, rfl, rfl, rfl, rfl, rfl⟩

end Sys2Proof.Machine
end

section
/-! What the decoder refuses, by name, and that a step on such bytes is refused (30_encoding.md R100 to R121; D11, D12, D14). -/

namespace Sys2Proof

/-! ### Prefixes -/

/-- The bytes of an instruction's prefixes are read as those, whatever byte follows them (30_encoding.md R101). -/
theorem decodePrefixes_bytes_append (p : Prefixes) (bytes : List Byte) :
    decodePrefixes (p.bytes ++ bytes) {} = decodePrefixes bytes p := by
  obtain ⟨lock, seg, addrSize⟩ := p
  cases lock <;> cases seg <;> cases addrSize <;>
    simp only [Prefixes.bytes, Bool.false_eq_true, if_true, if_false, List.cons_append, List.nil_append,
      decodePrefixes_lock, decodePrefixes_override, decodePrefixes_addrSize]

/-- What the prefixes refuse, the decoder refuses. -/
theorem decode_of_decodePrefixes_error (d32 : Bool) {p : Prefixes} {bytes : List Byte} {e : DecodeError}
    (h : decodePrefixes bytes p = .error e) : decode d32 (p.bytes ++ bytes) = .error e := by
  rw [decode, decodePrefixes_bytes_append, h]

/-- 66h, F2h and F3h are described nowhere (30_encoding.md R116; D11). -/
theorem decodePrefixes_undescribed {b : Byte} (hb : b ∈ [(0x66 : Byte), 0xF2, 0xF3]) (rest : List Byte) (p : Prefixes) :
    decodePrefixes (b :: rest) p = .error (.undescribedPrefix b) := by
  simp only [List.mem_cons, List.not_mem_nil, or_false] at hb
  rcases hb with rfl | rfl | rfl <;> simp [decodePrefixes]

theorem decodePrefixes_lock_again (rest : List Byte) {p : Prefixes} (hp : p.lock = true) :
    decodePrefixes (0xF0 :: rest) p = .error (.repeatedPrefix 0xF0) := by
  simp [decodePrefixes, hp]

theorem decodePrefixes_addrSize_again (rest : List Byte) {p : Prefixes} (hp : p.addrSize = true) :
    decodePrefixes (0x67 :: rest) p = .error (.repeatedPrefix 0x67) := by
  simp [decodePrefixes, hp]

theorem decodePrefixes_override_again (r : SegReg) (rest : List Byte) {p : Prefixes} (hp : p.seg.isSome = true) :
    decodePrefixes (r.overrideByte :: rest) p = .error .twoSegmentOverrides := by
  cases r <;> simp [decodePrefixes, SegReg.overrideByte, segOverride, hp]

/-- A byte that names a segment register is that register's override byte (30_encoding.md R101). -/
theorem eq_overrideByte_of_segOverride {b : Byte} {r : SegReg} (h : segOverride b = some r) : b = r.overrideByte := by
  unfold segOverride at h
  split_ifs at h <;> cases h <;> assumption

/-- A first byte that is neither 0Fh nor one of the prefixes belongs to the base set (30_encoding.md R114; D14). -/
theorem decode_baseOpcode (d32 : Bool) (p : Prefixes) {b : Byte} (rest : List Byte)
    (hb : b ∉ [(0x0F : Byte), 0xF0, 0x67, 0x66, 0xF2, 0xF3, 0x26, 0x2E, 0x36, 0x3E, 0x64, 0x65]) :
    decode d32 (p.bytes ++ b :: rest) = .error (.baseOpcode b) := by
  have hseg : segOverride b = none := by
    refine Option.eq_none_iff_forall_ne_some.mpr fun r hr => hb ?_
    rw [eq_overrideByte_of_segOverride hr]
    cases r <;> decide
  simp only [List.mem_cons, List.not_mem_nil, or_false, not_or] at hb
  obtain ⟨h0F, hF0, h67, h66, hF2, hF3, -⟩ := hb
  have hprefixes : decodePrefixes (b :: rest) p = .ok (p, b :: rest) := by
    simp only [decodePrefixes, hF0, h67, h66, hF2, hF3, or_self, if_false, hseg]
  rw [decode, decodePrefixes_bytes_append, hprefixes]
  exact if_neg h0F

/-! ### The second opcode byte -/

/-- A table has no row for a key outside a list that holds all its keys. -/
theorem lookup_eq_none_of_notMem {κ α : Type} [BEq κ] [LawfulBEq κ] {rows : List (κ × α)} {keys : List κ} {k : κ}
    (hrows : ∀ x ∈ rows.map Prod.fst, x ∈ keys) (hk : k ∉ keys) : rows.lookup k = none := by
  refine List.lookup_eq_none_iff.mpr fun row hrow => bne_iff_ne.mpr ?_
  rintro rfl
  exact hk (hrows _ (List.mem_map_of_mem hrow))

/-- A system instruction takes no prefixes (47_system.md R261). -/
theorem decode_prefixedSystem (d32 : Bool) {p : Prefixes} (hp : p ≠ {}) {b : Byte}
    (hb : b ∈ [(0xA2 : Byte), 0x30, 0x31, 0x32, 0x09]) (rest : List Byte) :
    decode d32 (p.bytes ++ 0x0F :: b :: rest) = .error (.prefixedSystem b) := by
  rw [decode_prefixes_0F]
  simp only [List.mem_cons, List.not_mem_nil, or_false] at hb
  rcases hb with rfl | rfl | rfl | rfl | rfl <;> exact if_neg hp

/-- The second opcode bytes that the spec describes (30_encoding.md R112, R121). -/
def describedOpcodes0F : List Byte :=
  [0x09, 0x30, 0x31, 0x32, 0x60, 0x61, 0x62, 0x63, 0x64, 0x65, 0x66, 0x67, 0x68, 0x69, 0x6A, 0x6B, 0x6E, 0x6F,
    0x71, 0x72, 0x73, 0x74, 0x75, 0x76, 0x77, 0x7E, 0x7F, 0xA2, 0xD1, 0xD2, 0xD3, 0xD5, 0xD8, 0xD9, 0xDB, 0xDC, 0xDD, 0xDF,
    0xE1, 0xE2, 0xE5, 0xE8, 0xE9, 0xEB, 0xEC, 0xED, 0xEF, 0xF1, 0xF2, 0xF3, 0xF5, 0xF8, 0xF9, 0xFA, 0xFC, 0xFD, 0xFE]

/-- Every other one is refused (30_encoding.md R114; D12). -/
theorem decode_undescribedOpcode0F (d32 : Bool) (p : Prefixes) {b : Byte} (hb : b ∉ describedOpcodes0F) (rest : List Byte) :
    decode d32 (p.bytes ++ 0x0F :: b :: rest) = .error (.undescribedOpcode0F b) := by
  have hemms : b ≠ 0x77 := by
    rintro rfl
    exact hb (by decide)
  have hshift : ¬(b = 0x71 ∨ b = 0x72 ∨ b = 0x73) := by
    rintro (rfl | rfl | rfl) <;> exact hb (by decide)
  have hrm : rmRows.lookup b = none := lookup_eq_none_of_notMem (by decide) hb
  have hsystem : systemRows.lookup b = none := lookup_eq_none_of_notMem (by decide) hb
  rw [decode_prefixes_0F, decode0F, if_neg hemms, if_neg hshift, hrm, hsystem]

/-! ### Reserved immediate shifts -/

/-- /2, /4 and /6 are immediate shifts, /4 of 73h excepted (30_encoding.md R110, R112). -/
theorem immRows_lookup_eq_none {op : Byte} {n : Fin 8}
    (h : (n ≠ 2 ∧ n ≠ 4 ∧ n ≠ 6) ∨ (op = 0x73 ∧ n = 4)) : immRows.lookup (op, n) = none := by
  refine lookup_eq_none_of_notMem (keys := immRows.map Prod.fst) (fun _ hx => hx) ?_
  rcases h with ⟨h2, h4, h6⟩ | ⟨rfl, rfl⟩
  · simp [immRows, h2, h4, h6]
  · decide

/-- An undefined /n, or `mod` other than 11b, after 0F 71, 72 or 73 is a reserved encoding (30_encoding.md R114; log 15). -/
theorem decode_reservedShift (d32 : Bool) (p : Prefixes) {op b : Byte} (rest : List Byte)
    (hop : op = 0x71 ∨ op = 0x72 ∨ op = 0x73)
    (h : modField b ≠ 3 ∨ (regField b ≠ 2 ∧ regField b ≠ 4 ∧ regField b ≠ 6) ∨ (op = 0x73 ∧ regField b = 4)) :
    decode d32 (p.bytes ++ 0x0F :: op :: b :: rest) = .error (.reservedShift op) := by
  have hemms : op ≠ 0x77 := by rcases hop with rfl | rfl | rfl <;> decide
  rw [decode_prefixes_0F, decode0F, if_neg hemms, if_pos hop]
  simp only [decodeImmShift, takeByte]
  rcases h with hmod | hn
  · simp only [if_neg hmod]
    cases immRows.lookup (op, regField b) <;> rfl
  · simp only [immRows_lookup_eq_none hn]

end Sys2Proof

namespace Sys2Proof.Machine

/-! ### The step, and LOCK -/

/-- A step that meets bytes the decoder refuses is refused and runs nothing. -/
theorem step_of_decode_error {s : State} {e : DecodeError} (henv : s.env = []) (he : s.exception = none)
    (hp : programRefusal s = none) (hd : decode (default32 s) ((codeAt s).map (·.2)) = .error e) :
    step s = .refused (.undescribedBytes e) := by
  rw [step_of_no_move henv]
  simp only [processorStep, he, hp, hd]

/-- FERR# is asserted for a pending floating-point exception alone (60_exceptions.md R307). -/
theorem takeException_invalidOpcode (s : State) :
    takeException .invalidOpcode s = { s with exception := some { kind := .invalidOpcode, pc := s.pc } } := by
  have hferr : (s.ferr || Exc.invalidOpcode == .floatingPointPending) = s.ferr := Bool.or_false _
  rw [takeException, hferr]

/-- With LOCK, or with CR0.EM set, the prologue raises invalid opcode, and nothing after it runs (30_encoding.md R115,
60_exceptions.md R303). -/
theorem exec_invalidOpcode {i : Instr} {p : Prefixes} {s : State} (hi : i.mmxPrefixes = some p)
    (h : p.lock = true ∨ s.cr0EM = true) : exec i s = .next (takeException .invalidOpcode s) := by
  obtain ⟨k, hk⟩ := exec_begins_with_prologue hi s
  rw [hk, mmxPrologue_invalidOpcode h]
  rfl

/-! ### The statements -/

/-- Settles O1: by the form's row of the opcode map and its operand (`decode_encodeRM`, `decode_encodeImm`). -/
theorem encodeDecodeRoundTrip : Obligations.EncodeDecodeRoundTrip :=
  fun _ _ rest hwf => decode_encode_append hwf rest

/-- Settles O3: the reserved encoding is refused like every other error of the decoder. -/
theorem reservedShiftEncodings : Obligations.ReservedShiftEncodings :=
  ⟨fun d32 p _ _ rest hop h => decode_reservedShift d32 p rest hop h,
    fun _ _ henv he hp hd => step_of_decode_error henv he hp hd⟩

/-- Settles O4: the first four refusals are the prefixes', the others the opcode bytes'. -/
theorem undescribedEncodingsRefused : Obligations.UndescribedEncodingsRefused := by
  refine ⟨fun d32 p rest => ⟨fun b hb => ?undescribed, fun hl => ?lock, fun ha => ?addrSize, fun r hr => ?override,
    fun b hb hp => ?system, fun b hb => ?opcode0F, fun b hb => ?base⟩, fun s e henv he hp hd => ?step⟩
  case undescribed => exact decode_of_decodePrefixes_error d32 (decodePrefixes_undescribed hb rest p)
  case lock => exact decode_of_decodePrefixes_error d32 (decodePrefixes_lock_again rest hl)
  case addrSize => exact decode_of_decodePrefixes_error d32 (decodePrefixes_addrSize_again rest ha)
  case override => exact decode_of_decodePrefixes_error d32 (decodePrefixes_override_again r rest hr)
  case system => exact decode_prefixedSystem d32 hp hb rest
  case opcode0F => exact decode_undescribedOpcode0F d32 p hb rest
  case base => exact decode_baseOpcode d32 p rest hb
  case step => exact step_of_decode_error henv he hp hd

/-- Settles O2: the decoder is evaluated on each word. -/
theorem specWordsDecode : Obligations.SpecWordsDecode :=
  ⟨rfl, rfl, rfl, rfl, rfl, rfl, rfl⟩

/-- Settles O10. -/
theorem lockRaisesInvalidOpcode : Obligations.LockRaisesInvalidOpcode := by
  intro i p s hi hl
  rw [exec_invalidOpcode hi (.inl hl), takeException_invalidOpcode]
  exact ⟨rfl, rfl⟩

end Sys2Proof.Machine
end

section
/-! The packed arithmetic (40_arithmetic.md): the value each form computes and its elements as numbers, the statements about the
whole next state, and the laws of R158. -/

namespace Sys2Proof.Machine

/-! ### Forms and the value they compute -/

/-- The instruction form runs in the frame of R140 and gives its destination the value `f DEST SRC`. -/
def HasResult (form : Prefixes → MmReg → RM → Instr) (f : Qword → Qword → Qword) : Prop :=
  ∀ p dst src s, exec (form p dst src) s = mmxRegMem f p dst src s

section Forms

variable {form : Prefixes → MmReg → RM → Instr} {f : Qword → Qword → Qword} {good : Qword → Qword → Qword → Prop}

theorem HasResult.computes (h : HasResult form f) (hgood : ∀ d v, good d v (f d v)) : Computes form good := by
  intro s u p dst src v hr hv
  exact ⟨readSrc64_effect hv, f (s.mmAt dst) v, hgood _ _, (h p dst src s).trans (mmxRegMem_completes hr hv)⟩

theorem HasResult.gives (h : HasResult form f) (a b : Qword) : Gives form a b (f a b) := by
  rintro s u p dst src hr rfl hv
  exact ⟨_, (h p dst src s).trans (mmxRegMem_completes hr hv), mmAt_mmxResult _ _ _ _⟩

/-- A form whose value does not depend on the order of its operands gives one value in both orders. -/
theorem HasResult.gives_comm (h : HasResult form f) (hcomm : ∀ a b, f a b = f b a) (a b : Qword) :
    Gives form a b (f a b) ∧ Gives form b a (f a b) :=
  ⟨h.gives a b, hcomm a b ▸ h.gives b a⟩

end Forms

theorem HasResult.computes_bytes {form : Prefixes → MmReg → RM → Instr} {f : BitVec 8 → BitVec 8 → BitVec 8}
    {rel : BitVec 8 → BitVec 8 → BitVec 8 → Prop} (h : HasResult form (zipBytes f)) (hrel : ∀ x y, rel x y (f x y)) :
    Computes form (EachByte rel) :=
  h.computes fun d v k hk => by rw [byteAt_zipBytes f d v hk]; exact hrel _ _

theorem HasResult.computes_words {form : Prefixes → MmReg → RM → Instr} {f : BitVec 16 → BitVec 16 → BitVec 16}
    {rel : BitVec 16 → BitVec 16 → BitVec 16 → Prop} (h : HasResult form (zipWords f)) (hrel : ∀ x y, rel x y (f x y)) :
    Computes form (EachWord rel) :=
  h.computes fun d v k hk => by rw [wordAt_zipWords f d v hk]; exact hrel _ _

theorem HasResult.computes_dwords {form : Prefixes → MmReg → RM → Instr} {f : BitVec 32 → BitVec 32 → BitVec 32}
    {rel : BitVec 32 → BitVec 32 → BitVec 32 → Prop} (h : HasResult form (zipDwords f)) (hrel : ∀ x y, rel x y (f x y)) :
    Computes form (EachDword rel) :=
  h.computes fun d v k hk => by rw [dwordAt_zipDwords f d v hk]; exact hrel _ _

/-! ### The values of the arithmetic forms -/

/-- The high word of the signed product of two words (R156). -/
def productHigh (x y : BitVec 16) : BitVec 16 := (product x y).extractLsb' 16 16

/-- The low word of the signed product of two words (R157). -/
def productLow (x y : BitVec 16) : BitVec 16 := (product x y).extractLsb' 0 16

/-- Doubleword `i` of PMADDWD: the products of words `2 * i` and `2 * i + 1`, added (R155). -/
def pairSum (d v : Qword) (i : Nat) : BitVec 32 :=
  product (wordAt d (2 * i)) (wordAt v (2 * i)) + product (wordAt d (2 * i + 1)) (wordAt v (2 * i + 1))

theorem paddb_hasResult : HasResult .paddb (zipBytes fun x y => x + y) := fun _ _ _ _ => rfl
theorem paddw_hasResult : HasResult .paddw (zipWords fun x y => x + y) := fun _ _ _ _ => rfl
theorem paddd_hasResult : HasResult .paddd (zipDwords fun x y => x + y) := fun _ _ _ _ => rfl
theorem psubb_hasResult : HasResult .psubb (zipBytes fun x y => x - y) := fun _ _ _ _ => rfl
theorem psubw_hasResult : HasResult .psubw (zipWords fun x y => x - y) := fun _ _ _ _ => rfl
theorem psubd_hasResult : HasResult .psubd (zipDwords fun x y => x - y) := fun _ _ _ _ => rfl
theorem paddsb_hasResult : HasResult .paddsb (zipBytes fun x y => satS 8 (x.toInt + y.toInt)) := fun _ _ _ _ => rfl
theorem paddsw_hasResult : HasResult .paddsw (zipWords fun x y => satS 16 (x.toInt + y.toInt)) := fun _ _ _ _ => rfl
theorem psubsb_hasResult : HasResult .psubsb (zipBytes fun x y => satS 8 (x.toInt - y.toInt)) := fun _ _ _ _ => rfl
theorem psubsw_hasResult : HasResult .psubsw (zipWords fun x y => satS 16 (x.toInt - y.toInt)) := fun _ _ _ _ => rfl
theorem paddusb_hasResult : HasResult .paddusb (zipBytes fun x y => satU 8 (x.toNat + y.toNat)) := fun _ _ _ _ => rfl
theorem paddusw_hasResult : HasResult .paddusw (zipWords fun x y => satU 16 (x.toNat + y.toNat)) := fun _ _ _ _ => rfl
theorem psubusb_hasResult : HasResult .psubusb (zipBytes fun x y => satU 8 (x.toNat - y.toNat)) := fun _ _ _ _ => rfl
theorem psubusw_hasResult : HasResult .psubusw (zipWords fun x y => satU 16 (x.toNat - y.toNat)) := fun _ _ _ _ => rfl
theorem pmulhw_hasResult : HasResult .pmulhw (zipWords productHigh) := fun _ _ _ _ => rfl
theorem pmullw_hasResult : HasResult .pmullw (zipWords productLow) := fun _ _ _ _ => rfl
theorem pmaddwd_hasResult : HasResult .pmaddwd (fun d v => ofDwords (pairSum d v)) := fun _ _ _ _ => rfl

/-! ### Elements as numbers -/

/-- An integer taken modulo the width. -/
theorem natCast_toNat_ofInt (w : Nat) (n : Int) : ((BitVec.ofInt w n).toNat : Int) = n % 2 ^ w := by
  have hpos : (0 : Int) < 2 ^ w := by positivity
  rw [BitVec.toNat_ofInt, Nat.cast_pow, Nat.cast_ofNat, Int.toNat_of_nonneg (Int.emod_nonneg n hpos.ne')]

/-- A difference borrows nothing from outside its element. -/
theorem natCast_toNat_sub {w : Nat} (x y : BitVec w) : ((x - y).toNat : Int) = ((x.toNat : Int) - y.toNat) % 2 ^ w := by
  rw [BitVec.toNat_sub', Int.natCast_mod, Nat.cast_add, Nat.cast_sub y.isLt.le, Nat.cast_pow, Nat.cast_ofNat,
    show (x.toNat : Int) + (2 ^ w - y.toNat) = x.toNat - y.toNat + 2 ^ w by ring, Int.add_emod_right]

theorem toInt_satS_byte (n : Int) : (satS 8 n).toInt = max (-128) (min 127 n) := toInt_satS (by decide) n

theorem toInt_satS_word (n : Int) : (satS 16 n).toInt = max (-32768) (min 32767 n) := toInt_satS (by decide) n

/-- A sum of two unsigned numbers is clamped from above alone. -/
theorem toNat_satU_add (w a b : Nat) : (satU w (a + b)).toNat = min (2 ^ w - 1) (a + b) := by
  have hsat := toNat_satU w (a + b)
  have hpow : ((2 ^ w : Nat) : Int) = 2 ^ w := by push_cast; rfl
  have hpos : 0 < 2 ^ w := Nat.two_pow_pos w
  omega

/-- A difference of two unsigned numbers is clamped at 0 alone. -/
theorem toNat_satU_sub {w : Nat} (x y : BitVec w) :
    ((satU w (x.toNat - y.toNat)).toNat : Int) = max 0 ((x.toNat : Int) - y.toNat) := by
  have hsat := toNat_satU w (x.toNat - y.toNat)
  have hpow : ((2 ^ w : Nat) : Int) = 2 ^ w := by push_cast; rfl
  have hlt := x.isLt
  omega

/-! ### Products -/

/-- The signed product of two words fits in a doubleword. -/
theorem toInt_product (x y : BitVec 16) : (product x y).toInt = x.toInt * y.toInt := by
  have hle : x.toInt * y.toInt ≤ 2 ^ 30 := BitVec.toInt_mul_toInt_le
  have hge : -2 ^ 30 ≤ x.toInt * y.toInt := BitVec.le_toInt_mul_toInt
  rw [product, BitVec.toInt_ofInt]
  exact Int.bmod_eq_of_le (by omega) (by omega)

theorem productHigh_append_productLow (x y : BitVec 16) : productHigh x y ++ productLow x y = product x y :=
  BitVec.extractLsb'_append_extractLsb'

/-- The two halves rebuild the exact signed product (R158, law 5). -/
theorem toInt_product_halves (x y : BitVec 16) :
    65536 * (productHigh x y).toInt + (productLow x y).toNat = x.toInt * y.toInt := by
  rw [← toInt_product, ← productHigh_append_productLow, BitVec.toInt_append]
  rfl

theorem toInt_productHigh (x y : BitVec 16) : (productHigh x y).toInt = x.toInt * y.toInt / 65536 := by
  have hhalves := toInt_product_halves x y
  have hlow := (productLow x y).isLt
  omega

theorem toNat_productLow (x y : BitVec 16) : ((productLow x y).toNat : Int) = x.toInt * y.toInt % 65536 := by
  have hhalves := toInt_product_halves x y
  have hlow := (productLow x y).isLt
  omega

/-- The two exact products are added modulo the width of a doubleword. -/
theorem toNat_product_add (x y z t : BitVec 16) :
    ((product x y + product z t).toNat : Int) = (x.toInt * y.toInt + z.toInt * t.toInt) % 2 ^ 32 := by
  rw [product, product, ← BitVec.ofInt_add]
  exact natCast_toNat_ofInt 32 _

/-! ### The whole next state -/

/-- Settles O18. -/
theorem wrappingAdd : Obligations.WrappingAdd :=
  ⟨paddb_hasResult.computes_bytes BitVec.toNat_add, paddw_hasResult.computes_words BitVec.toNat_add,
    paddd_hasResult.computes_dwords BitVec.toNat_add⟩

/-- Settles O19. -/
theorem wrappingSubtract : Obligations.WrappingSubtract :=
  ⟨psubb_hasResult.computes_bytes natCast_toNat_sub, psubw_hasResult.computes_words natCast_toNat_sub,
    psubd_hasResult.computes_dwords natCast_toNat_sub⟩

/-- Settles O20. -/
theorem signedSaturation : Obligations.SignedSaturation :=
  ⟨paddsb_hasResult.computes_bytes fun _ _ => toInt_satS_byte _,
    paddsw_hasResult.computes_words fun _ _ => toInt_satS_word _,
    psubsb_hasResult.computes_bytes fun _ _ => toInt_satS_byte _,
    psubsw_hasResult.computes_words fun _ _ => toInt_satS_word _⟩

/-- Settles O21. -/
theorem unsignedSaturation : Obligations.UnsignedSaturation :=
  ⟨paddusb_hasResult.computes_bytes fun x y => toNat_satU_add 8 x.toNat y.toNat,
    paddusw_hasResult.computes_words fun x y => toNat_satU_add 16 x.toNat y.toNat,
    psubusb_hasResult.computes_bytes toNat_satU_sub, psubusw_hasResult.computes_words toNat_satU_sub⟩

/-- Settles O22: both words of a product are determined by its exact value (`toInt_product_halves`). -/
theorem multiply : Obligations.Multiply := by
  refine ⟨pmulhw_hasResult.computes_words toInt_productHigh, pmullw_hasResult.computes_words toNat_productLow,
    pmaddwd_hasResult.computes fun d v k hk => ?_⟩
  rw [dwordAt_ofDwords _ hk]
  exact toNat_product_add _ _ _ _

/-! ### Laws -/

/-- A value is determined by its elements of `n` bits, where `m` of them make up the whole. -/
theorem eq_of_elements_eq {n m w : Nat} (hw : n * m = w) {x y : BitVec w}
    (h : ∀ k < m, x.extractLsb' (n * k) n = y.extractLsb' (n * k) n) : x = y := by
  apply BitVec.eq_of_getLsbD_eq
  intro j hj
  have hn : 0 < n := Nat.pos_of_ne_zero fun h0 => by subst h0; omega
  have hk : j / n < m := Nat.div_lt_of_lt_mul (hw ▸ hj)
  have hbit := congrArg (BitVec.getLsbD · (j % n)) (h (j / n) hk)
  simpa only [BitVec.getLsbD_extractLsb', Nat.mod_lt j hn, decide_true, Bool.true_and, Nat.div_add_mod] using hbit

/-! Where one element operation takes another back, or commutes, so does the operation on whole values. -/

theorem zipBytes_cancel {f g : BitVec 8 → BitVec 8 → BitVec 8} (h : ∀ x y, g (f x y) y = x) (a b : Qword) :
    zipBytes g (zipBytes f a b) b = a :=
  eq_of_elements_eq (n := 8) (m := 8) rfl fun _ hk =>
    (byteAt_zipBytes g _ b hk).trans (by rw [byteAt_zipBytes f a b hk, h]; rfl)

theorem zipWords_cancel {f g : BitVec 16 → BitVec 16 → BitVec 16} (h : ∀ x y, g (f x y) y = x) (a b : Qword) :
    zipWords g (zipWords f a b) b = a :=
  eq_of_elements_eq (n := 16) (m := 4) rfl fun _ hk =>
    (wordAt_zipWords g _ b hk).trans (by rw [wordAt_zipWords f a b hk, h]; rfl)

theorem zipDwords_cancel {f g : BitVec 32 → BitVec 32 → BitVec 32} (h : ∀ x y, g (f x y) y = x) (a b : Qword) :
    zipDwords g (zipDwords f a b) b = a :=
  eq_of_elements_eq (n := 32) (m := 2) rfl fun _ hk =>
    (dwordAt_zipDwords g _ b hk).trans (by rw [dwordAt_zipDwords f a b hk, h]; rfl)

theorem zipBytes_comm {f : BitVec 8 → BitVec 8 → BitVec 8} (h : ∀ x y, f x y = f y x) (a b : Qword) :
    zipBytes f a b = zipBytes f b a := congrArg ofBytes (funext fun _ => h _ _)

theorem zipWords_comm {f : BitVec 16 → BitVec 16 → BitVec 16} (h : ∀ x y, f x y = f y x) (a b : Qword) :
    zipWords f a b = zipWords f b a := congrArg ofWords (funext fun _ => h _ _)

theorem zipDwords_comm {f : BitVec 32 → BitVec 32 → BitVec 32} (h : ∀ x y, f x y = f y x) (a b : Qword) :
    zipDwords f a b = zipDwords f b a := congrArg ofDwords (funext fun _ => h _ _)

theorem product_comm (x y : BitVec 16) : product x y = product y x := by
  rw [product, product, Int.mul_comm]

theorem productHigh_comm (x y : BitVec 16) : productHigh x y = productHigh y x := by
  rw [productHigh, productHigh, product_comm]

theorem productLow_comm (x y : BitVec 16) : productLow x y = productLow y x := by
  rw [productLow, productLow, product_comm]

theorem pairSum_comm (a b : Qword) (i : Nat) : pairSum a b i = pairSum b a i := by
  rw [pairSum, pairSum, product_comm, product_comm (wordAt a (2 * i + 1))]

/-- An addition gives one value in both orders, and its subtraction takes the second operand away again. -/
theorem add_sub_laws {padd psub : Prefixes → MmReg → RM → Instr} {add sub : Qword → Qword → Qword}
    (hadd : HasResult padd add) (hsub : HasResult psub sub) (hcomm : ∀ a b, add a b = add b a)
    (hcancel : ∀ a b, sub (add a b) b = a) (a b : Qword) :
    ∃ x, Gives padd a b x ∧ Gives padd b a x ∧ Gives psub x b a := by
  obtain ⟨hab, hba⟩ := hadd.gives_comm hcomm a b
  have hback := hsub.gives (add a b) b
  rw [hcancel] at hback
  exact ⟨add a b, hab, hba, hback⟩

/-- Settles O55: each law is one of the elements (`BitVec.add_comm`, `product_comm`, `toInt_product`). -/
theorem arithmeticLaws : Obligations.ArithmeticLaws := by
  intro a b
  obtain ⟨hhigh, hhigh'⟩ := pmulhw_hasResult.gives_comm (zipWords_comm productHigh_comm) a b
  obtain ⟨hlow, hlow'⟩ := pmullw_hasResult.gives_comm (zipWords_comm productLow_comm) a b
  refine ⟨?bytes, ?words, ?dwords, ?pairSums, _, _, hhigh, hhigh', hlow, hlow', fun k hk => ?product⟩
  case bytes =>
    exact add_sub_laws paddb_hasResult psubb_hasResult (zipBytes_comm BitVec.add_comm)
      (zipBytes_cancel BitVec.add_sub_cancel) a b
  case words =>
    exact add_sub_laws paddw_hasResult psubw_hasResult (zipWords_comm BitVec.add_comm)
      (zipWords_cancel BitVec.add_sub_cancel) a b
  case dwords =>
    exact add_sub_laws paddd_hasResult psubd_hasResult (zipDwords_comm BitVec.add_comm)
      (zipDwords_cancel BitVec.add_sub_cancel) a b
  case pairSums =>
    exact ⟨_, pmaddwd_hasResult.gives_comm (fun a b => congrArg ofDwords (funext (pairSum_comm a b))) a b⟩
  case product =>
    rw [wordAt_zipWords _ _ _ hk, wordAt_zipWords _ _ _ hk, productHigh_append_productLow, toInt_product]

end Sys2Proof.Machine
end

section
/-! The compares (42_compare.md): the mask each form gives an element, the statements about the whole next state, and the laws of
R182, proved once for the three widths. -/

namespace Sys2Proof.Machine

/-! ### Masks of one element -/

/-- The mask of an element of PCMPEQ (R176 to R178). -/
def equalMask {w : Nat} (x y : BitVec w) : BitVec w := maskOf w (x == y)

/-- The mask of an element of PCMPGT: signed, the destination's element on the left (R179 to R181). -/
def greaterMask {w : Nat} (x y : BitVec w) : BitVec w := maskOf w (decide (y.toInt < x.toInt))

section Masks

variable {w : Nat}

theorem equalMask_eq_ite (x y : BitVec w) : equalMask x y = if x = y then BitVec.allOnes w else 0 := by
  simp only [equalMask, maskOf, beq_iff_eq]

theorem greaterMask_eq_ite (x y : BitVec w) : greaterMask x y = if y.toInt < x.toInt then BitVec.allOnes w else 0 := by
  simp only [greaterMask, maskOf, decide_eq_true_eq]

theorem equalMask_comm (x y : BitVec w) : equalMask x y = equalMask y x := by
  simp only [equalMask_eq_ite, eq_comm]

theorem equalMask_self (x : BitVec w) : equalMask x x = BitVec.allOnes w := by
  rw [equalMask_eq_ite, if_pos rfl]

theorem greaterMask_self (x : BitVec w) : greaterMask x x = 0 := by
  rw [greaterMask_eq_ite, if_neg (lt_irrefl _)]

/-- Two elements are equal, or one of them is the greater: signed values are ordered, and differ where the elements do. -/
theorem oneAllOnes_masks (x y : BitVec w) : OneAllOnes (equalMask x y) (greaterMask x y) (greaterMask y x) := by
  rw [equalMask_eq_ite, greaterMask_eq_ite, greaterMask_eq_ite]
  rcases lt_trichotomy x.toInt y.toInt with hlt | heq | hgt
  · rw [if_neg (ne_of_apply_ne _ hlt.ne), if_neg hlt.not_gt, if_pos hlt]
    exact .inr (.inr ⟨rfl, rfl, rfl⟩)
  · rw [if_pos (BitVec.toInt_inj.mp heq), if_neg heq.not_gt, if_neg heq.not_lt]
    exact .inl ⟨rfl, rfl, rfl⟩
  · rw [if_neg (ne_of_apply_ne _ hgt.ne'), if_pos hgt, if_neg hgt.not_gt]
    exact .inr (.inl ⟨rfl, rfl, rfl⟩)

end Masks

/-! ### The values of the compare forms -/

theorem pcmpeqb_hasResult : HasResult .pcmpeqb (zipBytes equalMask) := fun _ _ _ _ => rfl
theorem pcmpeqw_hasResult : HasResult .pcmpeqw (zipWords equalMask) := fun _ _ _ _ => rfl
theorem pcmpeqd_hasResult : HasResult .pcmpeqd (zipDwords equalMask) := fun _ _ _ _ => rfl
theorem pcmpgtb_hasResult : HasResult .pcmpgtb (zipBytes greaterMask) := fun _ _ _ _ => rfl
theorem pcmpgtw_hasResult : HasResult .pcmpgtw (zipWords greaterMask) := fun _ _ _ _ => rfl
theorem pcmpgtd_hasResult : HasResult .pcmpgtd (zipDwords greaterMask) := fun _ _ _ _ => rfl

/-! ### The whole next state -/

/-- Settles O23. -/
theorem compareEqual : Obligations.CompareEqual :=
  ⟨pcmpeqb_hasResult.computes_bytes equalMask_eq_ite, pcmpeqw_hasResult.computes_words equalMask_eq_ite,
    pcmpeqd_hasResult.computes_dwords equalMask_eq_ite⟩

/-- Settles O24. -/
theorem compareGreater : Obligations.CompareGreater :=
  ⟨pcmpgtb_hasResult.computes_bytes greaterMask_eq_ite, pcmpgtw_hasResult.computes_words greaterMask_eq_ite,
    pcmpgtd_hasResult.computes_dwords greaterMask_eq_ite⟩

/-! ### Laws -/

/-- Element `k` of a value cut into elements of `w` bits: for 8, 16 and 32 bits this is `byteAt`, `wordAt`, `dwordAt`. -/
def elementAt (w : Nat) (v : Qword) (k : Nat) : BitVec w := v.extractLsb' (w * k) w

/-- `op` is the element operation `f` on each of the `m` elements of `w` bits. -/
def Elementwise (w m : Nat) (f : BitVec w → BitVec w → BitVec w) (op : Qword → Qword → Qword) : Prop :=
  ∀ a b, ∀ k < m, elementAt w (op a b) k = f (elementAt w a k) (elementAt w b k)

theorem zipBytes_elementwise (f : BitVec 8 → BitVec 8 → BitVec 8) : Elementwise 8 8 f (zipBytes f) :=
  fun a b _ hk => byteAt_zipBytes f a b hk

theorem zipWords_elementwise (f : BitVec 16 → BitVec 16 → BitVec 16) : Elementwise 16 4 f (zipWords f) :=
  fun a b _ hk => wordAt_zipWords f a b hk

theorem zipDwords_elementwise (f : BitVec 32 → BitVec 32 → BitVec 32) : Elementwise 32 2 f (zipDwords f) :=
  fun a b _ hk => dwordAt_zipDwords f a b hk

section Laws

variable {w m : Nat} {f : BitVec w → BitVec w → BitVec w} {op : Qword → Qword → Qword}

theorem Elementwise.comm (h : Elementwise w m f op) (hw : w * m = 64) (hf : ∀ x y, f x y = f y x) (a b : Qword) :
    op a b = op b a :=
  eq_of_elements_eq hw fun k hk => (h a b k hk).trans ((hf _ _).trans (h b a k hk).symm)

/-- What `op` gives on equal operands, where the element operation gives each element of `c` there. -/
theorem Elementwise.self_eq (h : Elementwise w m f op) (hw : w * m = 64) {c : Qword}
    (hf : ∀ x, ∀ k < m, f x x = elementAt w c k) (a : Qword) : op a a = c :=
  eq_of_elements_eq hw fun k hk => (h a a k hk).trans (hf _ k hk)

theorem elementAt_allOnes (hw : w * m = 64) {k : Nat} (hk : k < m) :
    elementAt w (BitVec.allOnes 64) k = BitVec.allOnes w := by
  refine BitVec.eq_of_getLsbD_eq fun j hj => ?_
  have hin : w * k + j < 64 := by
    calc w * k + j < w * (k + 1) := by rw [Nat.mul_succ]; omega
      _ ≤ w * m := Nat.mul_le_mul_left w hk
      _ = 64 := hw
  simp only [elementAt, BitVec.getLsbD_extractLsb', BitVec.getLsbD_allOnes, hj, hin, decide_true, Bool.and_self]

theorem elementAt_zero (k : Nat) : elementAt w 0 k = 0 := by
  simp [elementAt]

/-- The laws of R182 at one width, for forms that give each element its two masks. -/
theorem compare_laws {peq pgt : Prefixes → MmReg → RM → Instr} {eq gt : Qword → Qword → Qword} (hw : w * m = 64)
    (heq : HasResult peq eq) (hgt : HasResult pgt gt) (heqMask : Elementwise w m equalMask eq)
    (hgtMask : Elementwise w m greaterMask gt) (a b : Qword) :
    ∃ e g l, Gives peq a b e ∧ Gives peq b a e ∧ Gives pgt a b g ∧ Gives pgt b a l ∧
      Gives peq a a (BitVec.allOnes 64) ∧ Gives pgt a a 0 ∧
      ∀ k < m, OneAllOnes (elementAt w e k) (elementAt w g k) (elementAt w l k) := by
  obtain ⟨hab, hba⟩ := heq.gives_comm (heqMask.comm hw equalMask_comm) a b
  have hones : eq a a = BitVec.allOnes 64 :=
    heqMask.self_eq hw (fun x k hk => (equalMask_self x).trans (elementAt_allOnes hw hk).symm) a
  have hzero : gt a a = 0 :=
    hgtMask.self_eq hw (fun x k _ => (greaterMask_self x).trans (elementAt_zero k).symm) a
  refine ⟨_, _, _, hab, hba, hgt.gives a b, hgt.gives b a, hones ▸ heq.gives a a, hzero ▸ hgt.gives a a, fun k hk => ?_⟩
  rw [heqMask a b k hk, hgtMask a b k hk, hgtMask b a k hk]
  exact oneAllOnes_masks _ _

end Laws

/-- Settles O53: `compare_laws` at each width. -/
theorem compareLaws : Obligations.CompareLaws :=
  ⟨compare_laws rfl pcmpeqb_hasResult pcmpgtb_hasResult (zipBytes_elementwise _) (zipBytes_elementwise _),
    compare_laws rfl pcmpeqw_hasResult pcmpgtw_hasResult (zipWords_elementwise _) (zipWords_elementwise _),
    compare_laws rfl pcmpeqd_hasResult pcmpgtd_hasResult (zipDwords_elementwise _) (zipDwords_elementwise _)⟩

end Sys2Proof.Machine
end

section
/-! The packs and unpacks (43_convert.md): where each form puts the elements of its operands, the statements about the whole next
state, and the laws of R200. -/

namespace Sys2Proof.Machine

/-! ### Packs -/

/-- `op` narrows by `clamp` the `m` elements of each operand, the destination's into the low half of the result and the source's
into the high half (R191 to R193). -/
def Packs (wide narrow m : Nat) (clamp : BitVec wide → BitVec narrow) (op : Qword → Qword → Qword) : Prop :=
  ∀ d v, ∀ k < m,
    elementAt narrow (op d v) k = clamp (elementAt wide d k) ∧ elementAt narrow (op d v) (m + k) = clamp (elementAt wide v k)

/-- The four doublewords of the two operands, each narrowed to a word: `packWords` one width up (R192). -/
def packDwords (f : BitVec 32 → BitVec 16) (d v : Qword) : Qword :=
  ofWords fun i => f (if i < 2 then dwordAt d i else dwordAt v (i - 2))

theorem packWords_packs (f : BitVec 16 → BitVec 8) : Packs 16 8 4 f (packWords f) := by
  refine fun d v k hk => ⟨(byteAt_packWords f d v (by omega)).trans (if_pos hk), ?_⟩
  refine (byteAt_packWords f d v (by omega)).trans ((if_neg (by omega)).trans ?_)
  rw [Nat.add_sub_cancel_left]
  rfl

theorem packDwords_packs (f : BitVec 32 → BitVec 16) : Packs 32 16 2 f (packDwords f) := by
  refine fun d v k hk => ⟨(wordAt_ofWords _ (by omega)).trans (congrArg f (if_pos hk)), ?_⟩
  refine (wordAt_ofWords _ (by omega)).trans (congrArg f ((if_neg (by omega)).trans ?_))
  rw [Nat.add_sub_cancel_left]
  rfl

section PackForms

variable {wide narrow m : Nat} {clamp : BitVec wide → BitVec narrow} {op : Qword → Qword → Qword}
  {form : Prefixes → MmReg → RM → Instr}

/-- What relates an element to its clamped value relates the elements of both operands to those of the result. -/
theorem HasResult.computes_pack (h : HasResult form op) (hp : Packs wide narrow m clamp op)
    (rel : BitVec wide → BitVec narrow → Prop) (hrel : ∀ x, rel x (clamp x)) :
    Computes form fun d v r => ∀ k < m,
      rel (elementAt wide d k) (elementAt narrow r k) ∧ rel (elementAt wide v k) (elementAt narrow r (m + k)) := by
  refine h.computes fun d v k hk => ?_
  obtain ⟨hlow, hhigh⟩ := hp d v k hk
  rw [hlow, hhigh]
  exact ⟨hrel _, hrel _⟩

/-- A pack keeps the low parts of elements in the range `lo .. hi`, where its `clamp` keeps those of each (R200, law 3). -/
theorem pack_keeps_in_range {lo hi : Int} (h : HasResult form op) (hp : Packs wide narrow m clamp op)
    (hclamp : ∀ x : BitVec wide, lo ≤ x.toInt → x.toInt ≤ hi → clamp x = x.setWidth narrow) (a b : Qword)
    (hin : ∀ k < m, lo ≤ (elementAt wide a k).toInt ∧ (elementAt wide a k).toInt ≤ hi ∧
      lo ≤ (elementAt wide b k).toInt ∧ (elementAt wide b k).toInt ≤ hi) :
    ∃ r, Gives form a b r ∧ ∀ k < m, elementAt narrow r k = (elementAt wide a k).setWidth narrow ∧
      elementAt narrow r (m + k) = (elementAt wide b k).setWidth narrow := by
  refine ⟨op a b, h.gives a b, fun k hk => ?_⟩
  obtain ⟨hla, hah, hlb, hbh⟩ := hin k hk
  obtain ⟨hlow, hhigh⟩ := hp a b k hk
  exact ⟨hlow.trans (hclamp _ hla hah), hhigh.trans (hclamp _ hlb hbh)⟩

end PackForms

theorem packsswb_hasResult : HasResult .packsswb (packWords fun x => satS 8 x.toInt) := fun _ _ _ _ => rfl
theorem packssdw_hasResult : HasResult .packssdw (packDwords fun x => satS 16 x.toInt) := fun _ _ _ _ => rfl
theorem packuswb_hasResult : HasResult .packuswb (packWords fun x => satU 8 x.toInt) := fun _ _ _ _ => rfl

/-! ### Unpacks -/

/-- `op` interleaves `m` elements of each operand, from the element numbered `low` on, the destination's below the source's
(R194 to R199). -/
def Interleaves (w m low : Nat) (op : Qword → Qword → Qword) : Prop :=
  ∀ d v, ∀ k < m,
    elementAt w (op d v) (2 * k) = elementAt w d (low + k) ∧ elementAt w (op d v) (2 * k + 1) = elementAt w v (low + k)

/-- Bits of a field of a value are bits of the value. -/
theorem extractLsb'_of_field {n start len s w : Nat} (h : s + w ≤ len) (r : BitVec n) :
    (r.extractLsb' start len).extractLsb' s w = r.extractLsb' (start + s) w := by
  refine BitVec.eq_of_getLsbD_eq fun j hj => ?_
  have hin : s + j < len := by omega
  simp only [BitVec.getLsbD_extractLsb', hj, hin, decide_true, Bool.true_and, Nat.add_assoc]

/-- The two halves of an element are two elements of half the width, the low half first. -/
theorem elementAt_halves {w : Nat} {r : Qword} {k : Nat} {high low : BitVec w} (h : elementAt (w + w) r k = high ++ low) :
    elementAt w r (2 * k) = low ∧ elementAt w r (2 * k + 1) = high := by
  have heven : elementAt w r (2 * k) = (elementAt (w + w) r k).extractLsb' 0 w := by
    rw [elementAt, elementAt, extractLsb'_of_field (by omega), show w * (2 * k) = (w + w) * k + 0 by ring]
  have hodd : elementAt w r (2 * k + 1) = (elementAt (w + w) r k).extractLsb' w w := by
    rw [elementAt, elementAt, extractLsb'_of_field le_rfl, show w * (2 * k + 1) = (w + w) * k + w by ring]
  rw [heven, hodd, h]
  exact ⟨BitVec.extractLsb'_append_eq_right, BitVec.extractLsb'_append_eq_left⟩

theorem interleaveBytes_interleaves (low : Nat) : Interleaves 8 4 low (interleaveBytes low) :=
  fun d v _ hk => elementAt_halves (wordAt_interleaveBytes low d v hk)

theorem interleaveWords_interleaves (low : Nat) : Interleaves 16 2 low (interleaveWords low) :=
  fun d v _ hk => elementAt_halves (dwordAt_interleaveWords low d v hk)

/-- The one pair of doublewords is the whole value. -/
theorem interleaveDwords_halves (low : Nat) (d v : Qword) :
    dwordAt (interleaveDwords low d v) 0 = dwordAt d low ∧ dwordAt (interleaveDwords low d v) 1 = dwordAt v low :=
  elementAt_halves (w := 32) (k := 0) (high := dwordAt v low) BitVec.extractLsb'_eq_self

theorem Interleaves.low {w m : Nat} {op : Qword → Qword → Qword} (h : Interleaves w m 0 op) (d v : Qword) :
    ∀ k < m, elementAt w (op d v) (2 * k) = elementAt w d k ∧ elementAt w (op d v) (2 * k + 1) = elementAt w v k := by
  simpa only [Nat.zero_add] using h d v

theorem punpckhbw_hasResult : HasResult .punpckhbw (interleaveBytes 4) := fun _ _ _ _ => rfl
theorem punpckhwd_hasResult : HasResult .punpckhwd (interleaveWords 2) := fun _ _ _ _ => rfl
theorem punpckhdq_hasResult : HasResult .punpckhdq (interleaveDwords 1) := fun _ _ _ _ => rfl
theorem punpcklbw_hasResult : HasResult .punpcklbw (interleaveBytes 0) := fun _ _ _ _ => rfl
theorem punpcklwd_hasResult : HasResult .punpcklwd (interleaveWords 0) := fun _ _ _ _ => rfl
theorem punpckldq_hasResult : HasResult .punpckldq (interleaveDwords 0) := fun _ _ _ _ => rfl

/-! ### The whole next state -/

/-- Settles O25: saturation is clamping (`toInt_satS`, `toNat_satU`), at both places of a pack. -/
theorem packSaturates : Obligations.PackSaturates :=
  ⟨packsswb_hasResult.computes_pack (packWords_packs _) (fun x y => y.toInt = max (-128) (min 127 x.toInt))
      fun _ => toInt_satS_byte _,
    packssdw_hasResult.computes_pack (packDwords_packs _) (fun x y => y.toInt = max (-32768) (min 32767 x.toInt))
      fun _ => toInt_satS_word _,
    packuswb_hasResult.computes_pack (packWords_packs _) (fun x y => (y.toNat : Int) = max 0 (min 255 x.toInt))
      fun _ => toNat_satU 8 _⟩

/-- Settles O26. -/
theorem unpackHigh : Obligations.UnpackHigh :=
  ⟨punpckhbw_hasResult.computes (interleaveBytes_interleaves 4), punpckhwd_hasResult.computes (interleaveWords_interleaves 2),
    punpckhdq_hasResult.computes (interleaveDwords_halves 1)⟩

/-- Settles O27. -/
theorem unpackLow : Obligations.UnpackLow :=
  ⟨punpcklbw_hasResult.computes (interleaveBytes_interleaves 0).low,
    punpcklwd_hasResult.computes (interleaveWords_interleaves 0).low,
    punpckldq_hasResult.computes (interleaveDwords_halves 0)⟩

/-! ### Laws -/

/-- On a value in range signed saturation keeps the low bits. -/
theorem satS_eq_setWidth {v w : Nat} (h : w ≤ v) {x : BitVec v} (hlow : -(2 : Int) ^ (w - 1) ≤ x.toInt)
    (hhigh : x.toInt ≤ (2 : Int) ^ (w - 1) - 1) : satS w x.toInt = x.setWidth w := by
  rw [satS, if_neg hlow.not_gt, if_neg hhigh.not_gt]
  exact BitVec.signExtend_eq_setWidth_of_le x h

/-- On a value in range unsigned saturation keeps the low bits. -/
theorem satU_eq_setWidth {v w : Nat} (h : w ≤ v) {x : BitVec v} (hlow : 0 ≤ x.toInt)
    (hhigh : x.toInt ≤ (2 : Int) ^ w - 1) : satU w x.toInt = x.setWidth w := by
  rw [satU, if_neg hlow.not_gt, if_neg hhigh.not_gt]
  exact BitVec.signExtend_eq_setWidth_of_le x h

/-- A zero-extended byte is in the range of an unsigned byte. -/
theorem satU_setWidth_byte (x : BitVec 8) : satU 8 (x.setWidth 16).toInt = x := by
  have hlt := x.isLt
  have hval : (x.setWidth 16).toInt = x.toNat := (BitVec.toInt_setWidth x).trans (Int.bmod_eq_of_le (by omega) (by omega))
  rw [satU_eq_setWidth (by decide) (by omega) (by omega)]
  exact BitVec.setWidth_setWidth_of_le x (by decide)

/-- Unpacking bytes against zero zero-extends them (R200, law 1). -/
theorem wordAt_interleaveBytes_zero (low : Nat) (a : Qword) {k : Nat} (hk : k < 4) :
    wordAt (interleaveBytes low a 0) k = (byteAt a (low + k)).setWidth 16 := by
  rw [wordAt_interleaveBytes low a 0 hk, BitVec.setWidth_eq_append (by decide)]
  exact congrArg (· ++ byteAt a (low + k)) (elementAt_zero (low + k))

/-- PACKUSWB of the two halves unpacked against zero gives the value back (R200, law 1). -/
theorem pack_interleaveBytes_zero (a : Qword) :
    packWords (fun x => satU 8 x.toInt) (interleaveBytes 0 a 0) (interleaveBytes 4 a 0) = a := by
  refine eq_of_elements_eq (n := 8) (m := 8) rfl fun k hk => (byteAt_packWords _ _ _ hk).trans ?_
  split
  case isTrue hlow =>
    rw [wordAt_interleaveBytes_zero 0 a hlow, satU_setWidth_byte, Nat.zero_add]
    rfl
  case isFalse hhigh =>
    rw [wordAt_interleaveBytes_zero 4 a (by omega), satU_setWidth_byte, Nat.add_sub_cancel' (by omega)]
    rfl

/-- Settles O56: zero-extended bytes are in the range of PACKUSWB, and on values in range saturation only narrows. -/
theorem convertLaws : Obligations.ConvertLaws := by
  refine ⟨fun a => ?unpackThenPack, fun a b => ?doublewordPairs, fun a b => ⟨?signedBytes, ?unsignedBytes, ?signedWords⟩⟩
  case unpackThenPack =>
    have hpack := packuswb_hasResult.gives (interleaveBytes 0 a 0) (interleaveBytes 4 a 0)
    rw [pack_interleaveBytes_zero] at hpack
    refine ⟨_, _, punpcklbw_hasResult.gives a 0, punpckhbw_hasResult.gives a 0, hpack, fun k hk => ⟨?_, ?_⟩⟩
    · rw [wordAt_interleaveBytes_zero 0 a hk, Nat.zero_add]
    · exact wordAt_interleaveBytes_zero 4 a hk
  case doublewordPairs => exact ⟨punpckldq_hasResult.gives a b, punpckhdq_hasResult.gives a b⟩
  case signedBytes =>
    exact pack_keeps_in_range packsswb_hasResult (packWords_packs _) (fun _ => satS_eq_setWidth (by decide)) a b
  case unsignedBytes =>
    exact pack_keeps_in_range packuswb_hasResult (packWords_packs _) (fun _ => satU_eq_setWidth (by decide)) a b
  case signedWords =>
    exact pack_keeps_in_range packssdw_hasResult (packDwords_packs _) (fun _ => satS_eq_setWidth (by decide)) a b

end Sys2Proof.Machine
end

section
/-! The logical instructions (44_logical.md): the value each form computes and its bits, the statement about the whole next state,
and the laws of R215. -/

namespace Sys2Proof.Machine

/-! ### The values of the logical forms -/

theorem pand_hasResult : HasResult .pand (fun d v => d &&& v) := fun _ _ _ _ => rfl
theorem pandn_hasResult : HasResult .pandn (fun d v => ~~~d &&& v) := fun _ _ _ _ => rfl
theorem por_hasResult : HasResult .por (fun d v => d ||| v) := fun _ _ _ _ => rfl
theorem pxor_hasResult : HasResult .pxor (fun d v => d ^^^ v) := fun _ _ _ _ => rfl

/-! ### Bits -/

/-- The bits inside the width of a conjunction with an inverted value (R212). -/
theorem getLsbD_not_and {w k : Nat} (hk : k < w) (x y : BitVec w) :
    (~~~x &&& y).getLsbD k = (!x.getLsbD k && y.getLsbD k) := by
  rw [BitVec.getLsbD_and, BitVec.getLsbD_not, decide_eq_true hk, Bool.true_and]

/-- A mask chooses each bit from one of two values (R215). -/
theorem getLsbD_masked_choice {w k : Nat} (hk : k < w) (m a b : BitVec w) :
    (m &&& a ||| ~~~m &&& b).getLsbD k = if m.getLsbD k then a.getLsbD k else b.getLsbD k := by
  rw [BitVec.getLsbD_or, BitVec.getLsbD_and, getLsbD_not_and hk]
  cases m.getLsbD k
  case true => exact Bool.or_false _
  case false => rfl

/-! ### The whole next state -/

/-- Settles O28. -/
theorem logicalBitwise : Obligations.LogicalBitwise :=
  ⟨pand_hasResult.computes fun _ _ _ _ => BitVec.getLsbD_and, pandn_hasResult.computes fun d v _ hk => getLsbD_not_and hk d v,
    por_hasResult.computes fun _ _ _ _ => BitVec.getLsbD_or, pxor_hasResult.computes fun _ _ _ _ => BitVec.getLsbD_xor⟩

/-! ### Laws -/

section Laws

variable {form : Prefixes → MmReg → RM → Instr} {f : Qword → Qword → Qword}

/-- A form whose value is associative and does not depend on the order of its operands gives one value however three operands
are combined. -/
theorem HasResult.gives_comm_assoc (h : HasResult form f) (hcomm : ∀ a b, f a b = f b a)
    (hassoc : ∀ a b c, f (f a b) c = f a (f b c)) (a b c : Qword) :
    ∃ ab bc r, Gives form a b ab ∧ Gives form b a ab ∧ Gives form b c bc ∧ Gives form ab c r ∧ Gives form a bc r := by
  obtain ⟨hab, hba⟩ := h.gives_comm hcomm a b
  exact ⟨f a b, f b c, f (f a b) c, hab, hba, h.gives b c, h.gives (f a b) c, hassoc a b c ▸ h.gives a (f b c)⟩

/-- What a form gives on equal operands. -/
theorem HasResult.gives_self (h : HasResult form f) {a r : Qword} (hself : f a a = r) : Gives form a a r :=
  hself ▸ h.gives a a

end Laws

/-- Settles O54: each law is one of the operations on 64-bit values, whatever the state in which the form runs; PANDN tells the
operands 0 and 1 apart. -/
theorem logicalLaws : Obligations.LogicalLaws := by
  refine ⟨fun form hform => ?commAssoc, ⟨0, 1, _, _, pandn_hasResult.gives 0 1, pandn_hasResult.gives 1 0, ?order⟩,
    fun a b m => ?maskedChoice, fun a => ?equalOperands⟩
  case commAssoc =>
    rcases hform with rfl | rfl | rfl
    · exact pand_hasResult.gives_comm_assoc BitVec.and_comm BitVec.and_assoc
    · exact por_hasResult.gives_comm_assoc BitVec.or_comm BitVec.or_assoc
    · exact pxor_hasResult.gives_comm_assoc BitVec.xor_comm BitVec.xor_assoc
  case order => decide
  case maskedChoice =>
    exact ⟨_, _, _, pand_hasResult.gives m a, pandn_hasResult.gives m b, por_hasResult.gives _ _,
      fun k hk => getLsbD_masked_choice hk m a b⟩
  case equalOperands =>
    have hpandn : ~~~a &&& a = 0 := (BitVec.and_comm _ _).trans (BitVec.and_not_self a)
    exact ⟨pxor_hasResult.gives_self BitVec.xor_self, pandn_hasResult.gives_self hpandn,
      pand_hasResult.gives_self BitVec.and_self, por_hasResult.gives_self BitVec.or_self⟩

end Sys2Proof.Machine
end

section
/-! The moves (45_move.md): the halves of a zero-extended doubleword, the store forms with a register on the `rm` side, and the
statements about the whole next state. -/

namespace Sys2Proof.Machine

/-! ### Zero extension -/

theorem dwordAt_zero_setWidth (v : Dword) : dwordAt (v.setWidth 64) 0 = v :=
  calc dwordAt (v.setWidth 64) 0
      _ = (v.setWidth 64).setWidth 32 := (setWidth_eq_dwordAt _).symm
      _ = v := BitVec.setWidth_setWidth_of_le v (by decide)

theorem dwordAt_one_setWidth (v : Dword) : dwordAt (v.setWidth 64) 1 = 0 := by
  refine BitVec.eq_of_getLsbD_eq fun j _ => ?_
  have hbeyond : v.getLsbD (32 * 1 + j) = false := BitVec.getLsbD_of_ge v _ (by omega)
  simp only [dwordAt, BitVec.getLsbD_extractLsb', BitVec.getLsbD_setWidth, hbeyond, Bool.and_false, BitVec.ofNat_eq_ofNat,
    BitVec.getLsbD_zero]

/-! ### The whole next state -/

theorem movqLoad_hasResult : HasResult .movqLoad (fun _ v => v) := fun _ _ _ _ => rfl

/-- MOVQ stores all 64 bits in an MMX register (45_move.md R224). -/
theorem exec_movqStore_reg {p : Prefixes} {src n : MmReg} {s : State} (hr : MmxReady p s) :
    exec (.movqStore p src (.reg n)) s = .next (mmxResult s n (s.mmAt src) (rmLength p (.reg n))) := by
  rw [exec, execMovqStore, mmxPrologue_ready hr, Check.bind_ok, writeDst64_reg, Check.bind_ok, setMm_mmxDone]
  rfl

/-- Settles O32: the value MOVD gives is the source zero-extended, whose halves are the source and 0. -/
theorem moveLoads : Obligations.MoveLoads :=
  ⟨movqLoad_hasResult.computes fun _ _ => rfl, fun _ _ _ _ _ v hr hv =>
    ⟨readSrc32_effect hv, v.setWidth 64, dwordAt_zero_setWidth v, dwordAt_one_setWidth v, exec_movdLoad_of_read hr hv⟩⟩

/-- Settles O33: the 32 bits MOVD stores are doubleword 0. -/
theorem moveStoresToRegisters : Obligations.MoveStoresToRegisters := by
  intro s p src n hr
  have hmovd := exec_movdStore_reg (src := src) (n := n) hr
  rw [setWidth_eq_dwordAt] at hmovd
  exact ⟨exec_movqStore_reg hr, hmovd⟩

end Sys2Proof.Machine
end

section
/-! The shifts (46_shift.md): the value each form computes in its two forms, the element shifts as arithmetic, the statements about
the whole next state, and the laws of R247. -/

namespace Sys2Proof.Machine

/-! ### The two forms of a shift -/

/-- Both forms of a shift run in the frame of R230 and give their destination the value `f DEST COUNT`: in form A the count is the
whole source as an unsigned number, in form B it is imm8. -/
structure HasShift (rm : RmForm) (imm : ImmForm) (f : Qword → Nat → Qword) : Prop where
  regMem : HasResult rm fun d v => f d v.toNat
  regImm : ∀ p dst c s, exec (imm p dst c) s = mmxRegImm f p dst c s

/-- `op` is the element shift `f` on each of the `m` elements of `w` bits, all by the same count. -/
def ShiftsEach (w m : Nat) (f : BitVec w → Nat → BitVec w) (op : Qword → Nat → Qword) : Prop :=
  ∀ d c, ∀ k < m, elementAt w (op d c) k = f (elementAt w d k) c

theorem shiftWords_shiftsEach (f : BitVec 16 → Nat → BitVec 16) : ShiftsEach 16 4 f (shiftWords f) :=
  fun d c _ hk => wordAt_shiftWords f d c hk

theorem shiftDwords_shiftsEach (f : BitVec 32 → Nat → BitVec 32) : ShiftsEach 32 2 f (shiftDwords f) :=
  fun d c _ hk => dwordAt_shiftDwords f d c hk

section Forms

variable {w m : Nat} {rm : RmForm} {imm : ImmForm} {f : BitVec w → Nat → BitVec w} {op : Qword → Nat → Qword}

/-- What relates a value and a count to the shifted value holds of the results of both forms. -/
theorem HasShift.computes (h : HasShift rm imm op) (good : Qword → Nat → Qword → Prop) (hgood : ∀ d c, good d c (op d c)) :
    Computes rm (fun d v r => good d v.toNat r) ∧ ComputesImm imm good :=
  ⟨h.regMem.computes fun d v => hgood d v.toNat,
    fun s p dst c hr => ⟨op (s.mmAt dst) c.toNat, hgood _ _, (h.regImm p dst c s).trans (mmxRegImm_completes hr)⟩⟩

/-- What relates an element and a count to the shifted element holds of every element of the results of both forms. -/
theorem HasShift.computes_each (h : HasShift rm imm op) (hop : ShiftsEach w m f op) (rel : BitVec w → Nat → BitVec w → Prop)
    (hrel : ∀ x c, rel x c (f x c)) :
    Computes rm (fun d v r => ∀ k < m, rel (elementAt w d k) v.toNat (elementAt w r k)) ∧
      ComputesImm imm fun d c r => ∀ k < m, rel (elementAt w d k) c (elementAt w r k) :=
  h.computes (fun d c r => ∀ k < m, rel (elementAt w d k) c (elementAt w r k)) fun d c k hk => hop d c k hk ▸ hrel _ _

theorem HasShift.gives_imm (h : HasShift rm imm op) (a : Qword) (c : Byte) : GivesImm imm a c (op a c.toNat) := by
  rintro s p dst hr rfl
  exact ⟨_, (h.regImm p dst c s).trans (mmxRegImm_completes hr), mmAt_mmxResult _ _ _ _⟩

/-- What form A gives for a count that fits in its source. -/
theorem HasShift.gives_count (h : HasShift rm imm op) {c : Nat} (hc : c < 2 ^ 64) (a : Qword) :
    Gives rm a (BitVec.ofNat 64 c) (op a c) := by
  have hgives := h.regMem.gives a (BitVec.ofNat 64 c)
  rwa [BitVec.toNat_ofNat, Nat.mod_eq_of_lt hc] at hgives

/-- The two forms agree on every count that imm8 can hold (R247, law 1). -/
theorem HasShift.forms_agree (h : HasShift rm imm op) (a : Qword) (c : Byte) :
    ∃ r, Gives rm a (c.setWidth 64) r ∧ GivesImm imm a c r := by
  have hcount : (c.setWidth 64).toNat = c.toNat := BitVec.toNat_setWidth_of_le (by decide)
  exact ⟨op a c.toNat, hcount ▸ h.regMem.gives a (c.setWidth 64), h.gives_imm a c⟩

end Forms

/-! ### The values of the shift forms -/

theorem psllw_hasShift : HasShift .psllw .psllwImm (shiftWords shlElem) := ⟨fun _ _ _ _ => rfl, fun _ _ _ _ => rfl⟩
theorem pslld_hasShift : HasShift .pslld .pslldImm (shiftDwords shlElem) := ⟨fun _ _ _ _ => rfl, fun _ _ _ _ => rfl⟩
theorem psllq_hasShift : HasShift .psllq .psllqImm shlElem := ⟨fun _ _ _ _ => rfl, fun _ _ _ _ => rfl⟩
theorem psrlw_hasShift : HasShift .psrlw .psrlwImm (shiftWords shrElem) := ⟨fun _ _ _ _ => rfl, fun _ _ _ _ => rfl⟩
theorem psrld_hasShift : HasShift .psrld .psrldImm (shiftDwords shrElem) := ⟨fun _ _ _ _ => rfl, fun _ _ _ _ => rfl⟩
theorem psrlq_hasShift : HasShift .psrlq .psrlqImm shrElem := ⟨fun _ _ _ _ => rfl, fun _ _ _ _ => rfl⟩
theorem psraw_hasShift : HasShift .psraw .psrawImm (shiftWords sarElem) := ⟨fun _ _ _ _ => rfl, fun _ _ _ _ => rfl⟩
theorem psrad_hasShift : HasShift .psrad .psradImm (shiftDwords sarElem) := ⟨fun _ _ _ _ => rfl, fun _ _ _ _ => rfl⟩

/-! ### The whole next state -/

/-- Settles O29: `toNat_shlElem` of every element, at each width. -/
theorem shiftLeft : Obligations.ShiftLeft := by
  obtain ⟨hw, hwImm⟩ := psllw_hasShift.computes_each (shiftWords_shiftsEach _)
    (fun x c y => y.toNat = x.toNat * 2 ^ c % 2 ^ 16) toNat_shlElem
  obtain ⟨hd, hdImm⟩ := pslld_hasShift.computes_each (shiftDwords_shiftsEach _)
    (fun x c y => y.toNat = x.toNat * 2 ^ c % 2 ^ 32) toNat_shlElem
  obtain ⟨hq, hqImm⟩ := psllq_hasShift.computes (fun x c y => y.toNat = x.toNat * 2 ^ c % 2 ^ 64) toNat_shlElem
  exact ⟨hw, hwImm, hd, hdImm, hq, hqImm⟩

/-- Settles O30: `toNat_shrElem` of every element, at each width. -/
theorem shiftRightLogical : Obligations.ShiftRightLogical := by
  obtain ⟨hw, hwImm⟩ := psrlw_hasShift.computes_each (shiftWords_shiftsEach _)
    (fun x c y => y.toNat = x.toNat / 2 ^ c) toNat_shrElem
  obtain ⟨hd, hdImm⟩ := psrld_hasShift.computes_each (shiftDwords_shiftsEach _)
    (fun x c y => y.toNat = x.toNat / 2 ^ c) toNat_shrElem
  obtain ⟨hq, hqImm⟩ := psrlq_hasShift.computes (fun x c y => y.toNat = x.toNat / 2 ^ c) toNat_shrElem
  exact ⟨hw, hwImm, hd, hdImm, hq, hqImm⟩

/-- Settles O31: `toInt_sarElem` of every element, at both widths. -/
theorem shiftRightArithmetic : Obligations.ShiftRightArithmetic := by
  obtain ⟨hw, hwImm⟩ := psraw_hasShift.computes_each (shiftWords_shiftsEach _)
    (fun x c y => y.toInt = x.toInt / 2 ^ c) toInt_sarElem
  obtain ⟨hd, hdImm⟩ := psrad_hasShift.computes_each (shiftDwords_shiftsEach _)
    (fun x c y => y.toInt = x.toInt / 2 ^ c) toInt_sarElem
  exact ⟨hw, hwImm, hd, hdImm⟩

/-! ### Laws of one element

Read as arithmetic, the composition laws are those of products and quotients by powers of two, at counts above the width too. -/

section Elements

variable {w : Nat}

theorem shlElem_shlElem (x : BitVec w) (c d : Nat) : shlElem (shlElem x c) d = shlElem x (c + d) := by
  apply BitVec.eq_of_toNat_eq
  rw [toNat_shlElem, toNat_shlElem, toNat_shlElem, Nat.mod_mul_mod, pow_add, mul_assoc]

theorem shrElem_shrElem (x : BitVec w) (c d : Nat) : shrElem (shrElem x c) d = shrElem x (c + d) := by
  apply BitVec.eq_of_toNat_eq
  rw [toNat_shrElem, toNat_shrElem, toNat_shrElem, Nat.div_div_eq_div_mul, pow_add]

theorem sarElem_sarElem (x : BitVec w) (c d : Nat) : sarElem (sarElem x c) d = sarElem x (c + d) := by
  apply BitVec.eq_of_toInt_eq
  rw [toInt_sarElem, toInt_sarElem, toInt_sarElem, Int.ediv_ediv_of_nonneg (by positivity), pow_add]

/-- Left then right clears the `c` top bits and keeps the others (R247, law 3). -/
theorem getLsbD_shrElem_shlElem {c : Nat} (hc : c < w) (x : BitVec w) (j : Nat) :
    (shrElem (shlElem x c) c).getLsbD j = (decide (j < w - c) && x.getLsbD j) := by
  have hkept : c + j < w ↔ j < w - c := by omega
  rw [shrElem, shlElem, if_neg hc.not_ge, if_neg hc.not_ge, BitVec.getLsbD_ushiftRight, BitVec.getLsbD_shiftLeft,
    Nat.add_sub_cancel_left, decide_eq_false (by omega : ¬c + j < c), Bool.not_false, Bool.and_true, decide_eq_decide.mpr hkept]

/-- Shifted by one less than the width, an element is its sign in every bit: the mask of those less than 0 (R247, law 4). -/
theorem sarElem_eq_greaterMask_zero {n : Nat} (x : BitVec (n + 1)) : sarElem x n = greaterMask 0 x := by
  have hpos : (0 : Int) < 2 ^ n := by positivity
  have hlow : -(2 : Int) ^ n ≤ x.toInt := BitVec.le_toInt x
  have hhigh : x.toInt < 2 ^ n := BitVec.toInt_lt
  apply BitVec.eq_of_toInt_eq
  rw [toInt_sarElem, greaterMask_eq_ite, BitVec.ofNat_eq_ofNat, BitVec.toInt_zero]
  split
  case isTrue hneg =>
    rw [BitVec.toInt_allOnes, if_pos n.succ_pos, Int.ediv_eq_iff_of_pos hpos]
    omega
  case isFalse hnonneg =>
    rw [BitVec.toInt_zero]
    exact Int.ediv_eq_zero_of_lt (by omega) hhigh

/-- With the sign bit clear both right shifts fill with zeros (R247, law 5). -/
theorem sarElem_eq_shrElem {c : Nat} (hc : c < w) {x : BitVec w} (hx : x.msb = false) : sarElem x c = shrElem x c := by
  rw [sarElem, shrElem, if_neg hc.not_ge, if_neg hc.not_ge, BitVec.sshiftRight_eq_of_msb_false hx]

end Elements

/-! ### Laws -/

/-- Law 3 of R247 for forms that shift each element. -/
theorem left_then_right_each {w m c : Nat} {rml rmr : RmForm} {imml immr : ImmForm} {shl shr : Qword → Nat → Qword}
    (hw : w ≤ 64) (hl : HasShift rml imml shl) (hr : HasShift rmr immr shr) (hshl : ShiftsEach w m shlElem shl)
    (hshr : ShiftsEach w m shrElem shr) (a : Qword) (hc : c < w) :
    ∃ x r, Gives rml a (BitVec.ofNat 64 c) x ∧ Gives rmr x (BitVec.ofNat 64 c) r ∧
      ∀ k < m, ∀ j < w, (elementAt w r k).getLsbD j = (decide (j < w - c) && (elementAt w a k).getLsbD j) := by
  refine ⟨_, _, hl.gives_count (by omega) a, hr.gives_count (by omega) _, fun k hk j _ => ?_⟩
  rw [hshr _ c k hk, hshl a c k hk]
  exact getLsbD_shrElem_shlElem hc _ j

/-- Law 4 of R247 for forms of elements of `n + 1` bits. -/
theorem sign_masks_agree {n m : Nat} {rm gtForm : RmForm} {imm : ImmForm} {sar : Qword → Nat → Qword}
    {gt : Qword → Qword → Qword} (hwidth : (n + 1) * m = 64) (hn : n < 2 ^ 64) (h : HasShift rm imm sar)
    (hgt : HasResult gtForm gt) (hsar : ShiftsEach (n + 1) m sarElem sar) (hmask : Elementwise (n + 1) m greaterMask gt) (a : Qword) :
    ∃ r, Gives rm a (BitVec.ofNat 64 n) r ∧ Gives gtForm 0 a r := by
  have hsame : gt 0 a = sar a n := eq_of_elements_eq hwidth fun k hk =>
    calc elementAt (n + 1) (gt 0 a) k
        _ = greaterMask (elementAt (n + 1) 0 k) (elementAt (n + 1) a k) := hmask 0 a k hk
        _ = greaterMask 0 (elementAt (n + 1) a k) := by rw [elementAt_zero]
        _ = sarElem (elementAt (n + 1) a k) n := (sarElem_eq_greaterMask_zero _).symm
        _ = elementAt (n + 1) (sar a n) k := (hsar a n k hk).symm
  exact ⟨sar a n, h.gives_count hn a, hsame ▸ hgt.gives 0 a⟩

/-- Settles O57: each law is one of the elements, carried over to the forms. -/
theorem shiftLaws : Obligations.ShiftLaws := by
  refine ⟨fun a c f hf => ?formsAgree, fun w x c d => ?compose, fun a c => ⟨?words, ?dwords, ?quadword⟩,
    fun a => ⟨?wordSigns, ?dwordSigns⟩, fun w x c hc hx => sarElem_eq_shrElem hc hx⟩
  case formsAgree =>
    simp only [List.mem_cons, List.not_mem_nil, or_false] at hf
    rcases hf with rfl | rfl | rfl | rfl | rfl | rfl | rfl | rfl
    · exact psllw_hasShift.forms_agree a c
    · exact pslld_hasShift.forms_agree a c
    · exact psllq_hasShift.forms_agree a c
    · exact psrlw_hasShift.forms_agree a c
    · exact psrld_hasShift.forms_agree a c
    · exact psrlq_hasShift.forms_agree a c
    · exact psraw_hasShift.forms_agree a c
    · exact psrad_hasShift.forms_agree a c
  case compose => exact ⟨shlElem_shlElem x c d, shrElem_shrElem x c d, sarElem_sarElem x c d⟩
  case words =>
    exact left_then_right_each (by decide) psllw_hasShift psrlw_hasShift (shiftWords_shiftsEach _) (shiftWords_shiftsEach _) a
  case dwords =>
    exact left_then_right_each (by decide) pslld_hasShift psrld_hasShift (shiftDwords_shiftsEach _) (shiftDwords_shiftsEach _) a
  case quadword =>
    exact fun hc => ⟨_, _, psllq_hasShift.gives_count (by omega) a, psrlq_hasShift.gives_count (by omega) _,
      fun j _ => getLsbD_shrElem_shlElem hc a j⟩
  case wordSigns =>
    exact sign_masks_agree rfl (by decide) psraw_hasShift pcmpgtw_hasResult (shiftWords_shiftsEach _) (zipWords_elementwise _) a
  case dwordSigns =>
    exact sign_masks_agree rfl (by decide) psrad_hasShift pcmpgtd_hasResult (shiftDwords_shiftsEach _) (zipDwords_elementwise _) a

end Sys2Proof.Machine
end

section
/-! The system instructions (47_system.md): what they do whatever the MMX state is (R260), where privilege forbids four of them
(R274 to R277), and what CPUID prints (R264 to R273). -/

namespace Sys2Proof.Machine

/-! ### The MMX state

Each system instruction commutes with putting another floating-point state, CR0 and FERR# in place; with the state's own in place
this says that it keeps them. -/

/-- Another floating-point state, CR0 and FERR# in place: all that `mmxPrologue` reads of a state. -/
def State.withMmx (f : Fpu) (c : Dword) (b : Bool) (s : State) : State := { s with fpu := f, cr0 := c, ferr := b }

/-- A change of the next state, where there is one. -/
def mapNext (g : State → State) : Result → Result
  | .next t => .next (g t)
  | .fault e => .fault e
  | .refused r => .refused r

/-- Two checks end alike: up to the change `g` of the state they pass on, in general protection, or in the same refusal. A system
instruction has no other end. -/
inductive Check.EndAlike (g : State → State) : Check State → Check State → Prop
  | ok (t : State) : EndAlike g (.ok t) (.ok (g t))
  | generalProtection : EndAlike g (.raised .generalProtection) (.raised .generalProtection)
  | refused (r : Refusal) : EndAlike g (.refused r) (.refused r)

section Replaced

variable (f : Fpu) (c : Dword) (b : Bool) (s : State)

/-- General protection does not touch FERR# (60_exceptions.md R307). -/
theorem takeException_generalProtection_withMmx :
    takeException .generalProtection (s.withMmx f c b) = (takeException .generalProtection s).withMmx f c b := by
  have hferr : (b || Exc.generalProtection == .floatingPointPending) = b := Bool.or_false b
  rw [takeException, State.withMmx, hferr]
  rfl

variable {f c b s}

/-- Checks that branch on the same condition end alike where both branches do. -/
theorem Check.EndAlike.ite {g : State → State} {q : Prop} {_ : Decidable q} {x y x' y' : Check State} (h : x.EndAlike g y)
    (h' : x'.EndAlike g y') : (if q then x else x').EndAlike g (if q then y else y') := by
  split
  · exact h
  · exact h'

/-- Checks that end alike end the instruction alike. -/
theorem Check.EndAlike.finish_eq {x y : Check State} (h : x.EndAlike (.withMmx f c b) y) :
    y.finish (s.withMmx f c b) = mapNext (.withMmx f c b) (x.finish s) := by
  cases h with
  | ok t => rfl
  | generalProtection => exact congrArg Host.Outcome.next (takeException_generalProtection_withMmx f c b s)
  | refused r => rfl

/-- The check of the privilege level looks at none of the three. -/
theorem requireCpl0_endAlike {k k' : Unit → Check State} (h : (k ()).EndAlike (.withMmx f c b) (k' ())) :
    ((requireCpl0 s).bind k).EndAlike (.withMmx f c b) ((requireCpl0 (s.withMmx f c b)).bind k') := by
  have hsame : requireCpl0 (s.withMmx f c b) = requireCpl0 s := rfl
  rw [hsame]
  by_cases hp : s.cpl ≠ 0 ∨ s.mode = .virtual8086
  · rw [requireCpl0_fails hp]
    exact .generalProtection
  · rw [requireCpl0, if_neg hp]
    exact h

/-- Every MSR reads the same. -/
theorem readMsr_endAlike (n : Dword) :
    ((readMsr n s).bind fun r => .ok (edxEaxResult r.2 r.1)).EndAlike (.withMmx f c b)
      ((readMsr n (s.withMmx f c b)).bind fun r => .ok (edxEaxResult r.2 r.1)) := by
  unfold readMsr
  split_ifs
  iterate 6 exact .ok _
  · exact .refused _

/-- Every MSR is written the same. The branches in order: the four that take every value, EFER with a value it takes or not,
WHCR unchanged, changed or with reserved bits, no MSR. -/
theorem writeMsr_endAlike (n : Dword) (v : Qword) :
    ((writeMsr n v s).bind fun t => .ok (t.advance systemLength)).EndAlike (.withMmx f c b)
      ((writeMsr n v (s.withMmx f c b)).bind fun t => .ok (t.advance systemLength)) := by
  have hmsr : (s.withMmx f c b).msr = s.msr := rfl
  simp only [writeMsr, hmsr]
  split_ifs
  iterate 5 exact .ok _
  · exact .generalProtection
  iterate 2 exact .ok _
  iterate 2 exact .refused _

/-- The system instructions (47_system.md R260). -/
def systemInstructions : List Instr := [.cpuid, .rdmsr, .wrmsr, .rdtsc, .wbinvd]

/-- Every system instruction commutes with the replacement (47_system.md R260). -/
theorem exec_withMmx {i : Instr} (hi : i ∈ systemInstructions) :
    exec i (s.withMmx f c b) = mapNext (.withMmx f c b) (exec i s) := by
  revert i
  simp only [systemInstructions, List.forall_mem_cons, List.not_mem_nil, false_implies, implies_true, and_true]
  refine ⟨?cpuid, ?rdmsr, ?wrmsr, ?rdtsc, ?wbinvd⟩
  case cpuid => rfl
  case rdmsr => exact (requireCpl0_endAlike (readMsr_endAlike (s.gprAt 1))).finish_eq
  case wrmsr => exact (requireCpl0_endAlike (writeMsr_endAlike (s.gprAt 1) s.edxEax)).finish_eq
  case rdtsc =>
    refine Check.EndAlike.finish_eq ?_
    exact .ite .generalProtection (.ok _)
  case wbinvd => exact (requireCpl0_endAlike (.ok _)).finish_eq

end Replaced

/-- Settles O48: that the three are kept is the replacement by the state's own. -/
theorem systemInstructionsIgnoreMmxState : Obligations.SystemInstructionsIgnoreMmxState := by
  intro i s f c b hi
  have hreplace : exec i (s.withMmx f c b) = mapNext (.withMmx f c b) (exec i s) := exec_withMmx hi
  refine ⟨?noMmx, fun t ht => ?next, fun r hr => ?refused⟩
  case noMmx =>
    have hnone : ∀ j ∈ systemInstructions, j.mmxPrefixes = none := by decide
    exact hnone i hi
  case next =>
    have hown : exec i s = mapNext (.withMmx s.fpu s.cr0 s.ferr) (exec i s) := exec_withMmx hi
    rw [ht] at hown hreplace
    have hkept : t = t.withMmx s.fpu s.cr0 s.ferr := Host.Outcome.next.inj hown
    exact ⟨congrArg (·.fpu) hkept, congrArg (·.cr0) hkept, congrArg (·.ferr) hkept, hreplace⟩
  case refused =>
    rw [hr] at hreplace
    exact hreplace

/-! ### Privilege -/

/-- What begins with the check of the privilege level does nothing where it fails (60_exceptions.md R310). -/
theorem requireCpl0_bind_finish {s : State} (h : s.cpl ≠ 0 ∨ s.mode = .virtual8086) (k : Unit → Check State) :
    ((requireCpl0 s).bind k).finish s = .next (takeException .generalProtection s) := by
  rw [requireCpl0_fails h]
  rfl

/-- Settles O17. -/
theorem privilegedInstructions : Obligations.PrivilegedInstructions := by
  refine fun s => ⟨fun h => ⟨?rdmsr, ?wrmsr, ?wbinvd⟩, fun htsd hcpl => ?rdtsc⟩
  case rdmsr | wrmsr | wbinvd => exact requireCpl0_bind_finish h _
  case rdtsc =>
    have hstop : (s.cr4TSD && s.cpl != 0) = true := by simp [htsd, hcpl]
    rw [exec, execRdtsc, hstop]
    rfl

/-! ### CPUID -/

/-- CPUID writes its row of the tables and nothing else but `pc` and the draws (47_system.md R261, R264). -/
theorem exec_cpuid_of_table {s : State} {r : CpuidResult} (h : cpuidTable (s.gprAt 0) (Config.cpuidFree s.draws) = r) :
    exec .cpuid s =
      .next { s with
        gpr := (((s.gpr.set 0 r.eax).set 3 r.ebx).set 1 r.ecx).set 2 r.edx
        pc := s.pc + 2
        draws := s.draws + 1 } := by
  subst h
  rfl

/-- Settles O37: each function of the tables selects its own row. -/
theorem cpuidValues : Obligations.CpuidValues := by
  intro s
  refine ⟨_, _, _, _, exec_cpuid_of_table rfl, ?_⟩
  refine ⟨fun hf => ?vendor, fun hf => ?signature, fun hf => ?largest, fun hf => ?extended, fun hf => ?name1,
    fun hf => ?name2, fun hf => ?name3, fun hf => ?caches⟩ <;> rw [hf]
  case vendor | name1 | name2 | name3 => exact ⟨rfl, rfl, rfl, rfl⟩
  case signature | extended => exact ⟨rfl, rfl⟩
  case largest => rfl
  case caches => exact ⟨rfl, rfl, rfl⟩

end Sys2Proof.Machine
end

section
/-! Exceptions (60_exceptions.md): the order of the prologue's checks (R303, R311), what an exception leaves of the state (R307,
R310, R312), which exceptions each mode and form can raise (R300), and the int 7 handler (R313). -/

namespace Sys2Proof.Machine

/-! ### The prologue -/

/-- A pending floating-point exception where the checks before it pass (60_exceptions.md R303, R307). -/
theorem exec_pending {i : Instr} {p : Prefixes} {s : State} (hi : i.mmxPrefixes = some p) (hl : p.lock = false)
    (he : s.cr0EM = false) (ht : s.cr0TS = false) (hp : s.fpu.pending = true) :
    exec i s =
      if s.cr0NE then .next (takeException .floatingPointPending s)
      else if s.ferr then .refused .ferrAssertedWithNEClear else .next (assertFerr s) := by
  obtain ⟨k, hk⟩ := exec_begins_with_prologue hi s
  rw [hk, mmxPrologue_pending hl he ht hp]
  split_ifs <;> rfl

/-- Settles O11. -/
theorem prologueOrder : Obligations.PrologueOrder := by
  refine fun i p s hi => ⟨exec_invalidOpcode hi, fun hl he => ⟨exec_deviceNotAvailable hi hl he, fun ht hp => ?_⟩⟩
  rw [exec_pending hi hl he ht hp]
  exact ⟨fun hn => by rw [hn]; rfl, fun hn hf => by rw [hn, hf]; rfl, fun hn hf => by rw [hn, hf]; rfl⟩

/-! ### What an exception leaves of the state -/

/-- Reading a source keeps the outcome. -/
theorem ReadEffect.exception_eq {n : Nat} {s u : State} (h : ReadEffect n s u) : u.exception = s.exception := by
  obtain ⟨_, _, rfl⟩ := h.eq_with
  rfl

/-- An instruction that completes keeps the outcome. -/
theorem Completed.exception_eq {i : Instr} {s t : State} (h : Completed i s t) : t.exception = s.exception := by
  cases h with
  | register d r hp hr hw he hm => exact he.exception_eq
  | _ => rfl

/-- Where an instruction leaves an outcome, it raised that exception and did nothing else (60_exceptions.md R310). -/
theorem exec_exception {i : Instr} {s t : State} {r : ExceptionRecord} (hs : s.exception = none) (h : exec i s = .next t)
    (hr : t.exception = some r) : ∃ e, r = ⟨e, s.pc⟩ ∧ t = takeException e s := by
  rcases exec_next_cases h with (⟨e, rfl⟩ | rfl) | hc
  · exact ⟨e, (Option.some.inj hr).symm, rfl⟩
  · exact nomatch hs.symm.trans hr
  · exact nomatch hs.symm.trans (hc.exception_eq.symm.trans hr)

/-- Settles O12. -/
theorem exceptionsLeaveStateUnchanged : Obligations.ExceptionsLeaveStateUnchanged := by
  intro i s t r hs h hr
  obtain ⟨e, rfl, rfl⟩ := exec_exception hs h hr
  exact ⟨rfl, rfl⟩

/-! ### What each check raises -/

/-- A sequence of two checks raises what the first raises, or what the second does where the first passes. -/
theorem Check.bind_eq_raised {α β : Type} {c : Check α} {f : α → Check β} {e : Exc} :
    c.bind f = .raised e ↔ c = .raised e ∨ ∃ a, c = .ok a ∧ f a = .raised e := by
  cases c <;> simp [Check.bind]

/-- A check followed only by a computation raises nothing more. -/
theorem Check.raised_of_bind_ok {α β : Type} {c : Check α} {f : α → β} {e : Exc}
    (h : (c.bind fun a => .ok (f a)) = .raised e) : c = .raised e := by
  rcases Check.bind_eq_raised.mp h with h | ⟨_, -, h⟩
  · exact h
  · cases h

/-- The exceptions of the prologue (60_exceptions.md R303). -/
def PrologueExc (e : Exc) : Prop := e = .invalidOpcode ∨ e = .deviceNotAvailable ∨ e = .floatingPointPending

/-- The exceptions of a memory access, with the modes in which Table 1 marks them (60_exceptions.md R300). -/
def AccessExc (s : State) : Exc → Prop
  | .stackException => True
  | .generalProtection => s.mode = .protectedMode
  | .segmentOverrun => s.mode ≠ .protectedMode
  | .pageFault => s.mode ≠ .real
  | .alignmentCheck => s.mode ≠ .real
  | _ => False

/-- The exceptions of an `rm` operand: none for a register. -/
def OperandExc (rm : RM) (s : State) (e : Exc) : Prop := (∃ m, rm = .mem m) ∧ AccessExc s e

section Checks

variable {s : State} {g : SegReg} {off lin : Dword} {n : Nat} {k : Access} {p : Prefixes} {rm : RM} {e : Exc}

theorem mmxPrologue_raised (h : mmxPrologue p s = .raised e) : PrologueExc e := by
  unfold mmxPrologue at h
  split_ifs at h <;> cases h <;> simp [PrologueExc]

theorem segCheck_raised (h : segCheck s g off n k = .raised e) : AccessExc s e := by
  obtain ⟨hwithin, hbeyond⟩ := segCheck_eq (s := s) (g := g) (off := off) (n := n) (k := k)
  by_cases hb : BeyondSegment s g off n k
  · rw [hbeyond hb] at h
    split_ifs at h with hg hm <;> cases h
    · trivial
    · exact hm
    · exact hm
  · cases (hwithin hb).symm.trans h

/-- Alignment is not checked in Real mode (20_memory.md R75). -/
theorem alignCheck_raised (h : alignCheck s lin n = .raised e) : AccessExc s e := by
  have hmode : s.mode ≠ .real := fun hm => by cases (alignCheck_real lin n hm).symm.trans h
  rw [alignCheck_eq] at h
  split_ifs at h
  cases h
  exact hmode

/-- In Real mode nothing faults on a page (20_memory.md R81). -/
theorem translate_none_mode (h : translate s k lin n = none) : s.mode ≠ .real := fun hm => by
  cases (unpagedTranslationIsIdentity s k lin n (.inl hm)).symm.trans h

/-- An access raises what its segment, alignment and page checks raise (20_memory.md R76). -/
theorem accessAddresses_raised (h : accessAddresses s g off n k = .raised e) : AccessExc s e := by
  rcases Check.bind_eq_raised.mp h with hseg | ⟨_, -, h⟩
  · exact segCheck_raised hseg
  · rcases Check.bind_eq_raised.mp h with halign | ⟨_, -, h⟩
    · exact alignCheck_raised halign
    · split at h <;> cases h
      exact translate_none_mode ‹_›

theorem memRead_raised (h : memRead s g off n = .raised e) : AccessExc s e :=
  accessAddresses_raised (Check.raised_of_bind_ok h)

/-- After the checks of the access a store may be refused, but raises nothing. -/
theorem memWrite_raised {b : List Byte} (h : memWrite s g off b = .raised e) : AccessExc s e := by
  rcases Check.bind_eq_raised.mp h with hacc | ⟨_, -, h⟩
  · exact accessAddresses_raised hacc
  · split_ifs at h

theorem readSrc64_raised (h : readSrc64 p rm s = .raised e) : OperandExc rm s e := by
  cases rm with
  | reg n => cases h
  | mem m => exact ⟨⟨m, rfl⟩, memRead_raised (Check.raised_of_bind_ok h)⟩

theorem readSrc32_raised (h : readSrc32 p rm s = .raised e) : OperandExc rm s e := by
  cases rm with
  | reg n => cases h
  | mem m => exact ⟨⟨m, rfl⟩, memRead_raised (Check.raised_of_bind_ok h)⟩

theorem writeDst64_raised {v : Qword} (h : writeDst64 p rm v s = .raised e) : OperandExc rm s e := by
  cases rm with
  | reg n => cases h
  | mem m => exact ⟨⟨m, rfl⟩, memWrite_raised h⟩

theorem writeDst32_raised {v : Dword} (h : writeDst32 p rm v s = .raised e) : OperandExc rm s e := by
  cases rm with
  | reg n => cases h
  | mem m => exact ⟨⟨m, rfl⟩, memWrite_raised h⟩

theorem requireCpl0_raised (h : requireCpl0 s = .raised e) : e = .generalProtection := by
  unfold requireCpl0 at h
  split_ifs at h
  cases h
  rfl

/-- RDMSR of an MSR that the model does not have is refused and raises nothing (47_system.md R274; D17). -/
theorem readMsr_ne_raised {number : Dword} : readMsr number s ≠ .raised e := by
  unfold readMsr
  split_ifs <;> exact nofun

/-- WRMSR of a reserved bit of EFER (47_system.md R275). -/
theorem writeMsr_raised {number : Dword} {v : Qword} (h : writeMsr number v s = .raised e) : e = .generalProtection := by
  unfold writeMsr at h
  split_ifs at h
  cases h
  rfl

/-! ### What a passed check leaves of the outcome -/

variable {t : State}

theorem memWrite_exception {b : List Byte} (h : memWrite s g off b = .ok t) : t.exception = s.exception := by
  obtain ⟨_, _, _, rfl⟩ := memWrite_eq_ok.mp h
  rfl

theorem writeDst64_exception {v : Qword} (h : writeDst64 p rm v s = .ok t) : t.exception = s.exception := by
  cases rm with
  | reg n => cases h; rfl
  | mem m => exact memWrite_exception h

theorem writeDst32_exception {v : Dword} (h : writeDst32 p rm v s = .ok t) : t.exception = s.exception := by
  cases rm with
  | reg n => cases h; rfl
  | mem m => exact memWrite_exception h

end Checks

/-! ### What each form raises -/

/-- Every exception in the outcome of a result is one of `P`. -/
def RaisesOnly (P : Exc → Prop) (result : Result) : Prop :=
  ∀ t r, result = .next t → t.exception = some r → P r.kind

section Forms

variable {P : Exc → Prop} {s : State}

/-- A next state without an outcome. -/
theorem RaisesOnly.next {u : State} (hu : u.exception = none) : RaisesOnly P (.next u) := by
  rintro t r ⟨⟩ hr
  exact nomatch hu.symm.trans hr

/-- The next state of an exception. -/
theorem RaisesOnly.raised {e : Exc} (he : P e) : RaisesOnly P (.next (takeException e s)) := by
  intro t r ht hr
  obtain rfl := Host.Outcome.next.inj ht
  obtain rfl := Option.some.inj hr
  exact he

/-- No next state. -/
theorem RaisesOnly.refused (reason : Refusal) : RaisesOnly P (.refused reason) := fun _ _ h => by cases h

/-- An instruction that goes on after a check raises what the check raises and what follows it does. -/
theorem RaisesOnly.bind_finish {α : Type} {c : Check α} {f : α → Check State} (hs : s.exception = none)
    (hc : ∀ e, c = .raised e → P e) (hf : ∀ a, c = .ok a → RaisesOnly P ((f a).finish s)) :
    RaisesOnly P ((c.bind f).finish s) := by
  cases c with
  | ok a => exact hf a rfl
  | raised e => exact .raised (hc e rfl)
  | ferrOnly => exact .next hs
  | refused reason => exact .refused reason

/-- The exceptions of an MMX instruction: the prologue's and those of its operand in memory. -/
def MmxExc (i : Instr) (s : State) (e : Exc) : Prop :=
  PrologueExc e ∨ ∃ p rm, i.operand = some (p, rm) ∧ OperandExc rm s e

variable {i : Instr} {p : Prefixes} {rm : RM}

/-- What goes on after the prologue. -/
theorem raisesOnly_after_prologue {k : Unit → Check State} (hs : s.exception = none)
    (hk : RaisesOnly (MmxExc i s) ((k ()).finish s)) : RaisesOnly (MmxExc i s) (((mmxPrologue p s).bind k).finish s) :=
  .bind_finish hs (fun _ h => .inl (mmxPrologue_raised h)) fun _ _ => hk

/-- What goes on, after the prologue, with the access of its operand, and then completes. -/
theorem raisesOnly_after_operand {α : Type} {c : Check α} {f : α → State} (hs : s.exception = none)
    (hop : i.operand = some (p, rm)) (hc : ∀ e, c = .raised e → OperandExc rm s e)
    (hf : ∀ a, c = .ok a → (f a).exception = s.exception) :
    RaisesOnly (MmxExc i s) (((mmxPrologue p s).bind fun _ => c.bind fun a => .ok (f a)).finish s) :=
  raisesOnly_after_prologue hs (.bind_finish hs (fun e h => .inr ⟨p, rm, hop, hc e h⟩) fun a h => .next ((hf a h).trans hs))

/-- The forms `mmreg1, mmreg2/mem64`. -/
theorem mmxRegMem_raisesOnly {f : Qword → Qword → Qword} {d : MmReg} (hs : s.exception = none)
    (hop : i.operand = some (p, rm)) : RaisesOnly (MmxExc i s) (mmxRegMem f p d rm s) :=
  raisesOnly_after_operand hs hop (fun _ => readSrc64_raised) fun _ h => (readSrc64_effect h).exception_eq

/-- A form with an `rm` operand that is neither MOVD nor a store. -/
theorem exec_regMem_raisesOnly (hs : s.exception = none) (hop : i.operand = some (p, rm)) (ha : accessOf i = (8, .read)) :
    RaisesOnly (MmxExc i s) (exec i s) := by
  obtain ⟨f, d, hf⟩ := exec_eq_mmxRegMem hop ha s
  rw [hf]
  exact mmxRegMem_raisesOnly hs hop

/-- Every MMX instruction: by its operand, where it has one. -/
theorem exec_mmx_raisesOnly (hs : s.exception = none) (hi : i.mmxPrefixes = some p) : RaisesOnly (MmxExc i s) (exec i s) := by
  cases i <;> cases hi
  case emms | pslldImm | psllqImm | psllwImm | psradImm | psrawImm | psrldImm | psrlqImm | psrlwImm =>
    exact raisesOnly_after_prologue hs (.next hs)
  case movdLoad =>
    exact raisesOnly_after_operand hs rfl (fun _ => readSrc32_raised) fun _ h => (readSrc32_effect h).exception_eq
  case movdStore =>
    exact raisesOnly_after_operand hs rfl (fun _ => writeDst32_raised) fun t h =>
      show t.exception = s.exception from writeDst32_exception h
  case movqStore =>
    exact raisesOnly_after_operand hs rfl (fun _ => writeDst64_raised) fun t h =>
      show t.exception = s.exception from writeDst64_exception h
  all_goals exact exec_regMem_raisesOnly hs rfl rfl

/-- What goes on after the check of the privilege level. -/
theorem raisesOnly_after_requireCpl0 {k : Unit → Check State} (hs : s.exception = none)
    (hk : RaisesOnly (· = .generalProtection) ((k ()).finish s)) :
    RaisesOnly (· = .generalProtection) (((requireCpl0 s).bind k).finish s) :=
  .bind_finish hs (fun _ => requireCpl0_raised) fun _ _ => hk

/-- Every system instruction. -/
theorem exec_system_raisesOnly (hs : s.exception = none) (hi : i.mmxPrefixes = none) :
    RaisesOnly (· = .generalProtection) (exec i s) := by
  cases i <;> cases hi
  case cpuid => exact .next hs
  case rdmsr =>
    refine raisesOnly_after_requireCpl0 hs (.bind_finish hs (fun _ h => absurd h readMsr_ne_raised) fun r h => .next ?_)
    obtain ⟨_, _, hframe⟩ := readMsr_frame h
    exact (congrArg State.exception hframe).trans hs
  case wrmsr =>
    refine raisesOnly_after_requireCpl0 hs (.bind_finish hs (fun _ => writeMsr_raised) fun t h => .next ?_)
    obtain ⟨_, _, hframe⟩ := writeMsr_frame h
    exact (congrArg State.exception hframe).trans hs
  case rdtsc =>
    rw [exec, execRdtsc]
    split
    · exact .raised rfl
    · exact .next hs
  case wbinvd => exact raisesOnly_after_requireCpl0 hs (.next hs)

end Forms

/-! ### The statements -/

/-- Table 1 by mode and by form (60_exceptions.md R300). -/
theorem MmxExc.table {i : Instr} {s : State} {e : Exc} (h : MmxExc i s e) :
    (s.mode = .real → e ≠ .generalProtection ∧ e ≠ .pageFault ∧ e ≠ .alignmentCheck) ∧
    (s.mode = .virtual8086 → e ≠ .generalProtection) ∧
    (s.mode = .protectedMode → e ≠ .segmentOverrun) ∧
    ((∀ p m, i.operand ≠ some (p, .mem m)) → PrologueExc e) := by
  rcases h with hprologue | ⟨p, _, hop, ⟨m, rfl⟩, haccess⟩
  · refine ⟨fun _ => ?_, fun _ => ?_, fun _ => ?_, fun _ => hprologue⟩ <;>
      rcases hprologue with rfl | rfl | rfl <;> decide
  · refine ⟨fun hreal => ⟨?protection, ?page, ?alignment⟩, fun hv86 => ?protectionV86, fun hprot => ?overrun,
      fun hno => absurd hop (hno p m)⟩ <;> rintro rfl
    case protection => cases hreal.symm.trans haccess
    case page | alignment => exact haccess hreal
    case protectionV86 => cases hv86.symm.trans haccess
    case overrun => exact haccess hprot

/-- CPUID raises nothing (47_system.md R261). -/
theorem exec_cpuid_exception {s t : State} (h : exec .cpuid s = .next t) : t.exception = s.exception := by
  cases h
  rfl

/-- Settles O13. -/
theorem exceptionsByModeAndForm : Obligations.ExceptionsByModeAndForm := by
  refine fun i s t r hs h hr => ⟨fun hsome => ?mmx, fun hnone => ⟨?system, ?notCpuid⟩⟩
  case mmx =>
    obtain ⟨p, hi⟩ := Option.isSome_iff_exists.mp hsome
    exact (exec_mmx_raisesOnly hs hi t r h hr).table
  case system => exact exec_system_raisesOnly hs hnone t r h hr
  case notCpuid =>
    rintro rfl
    exact nomatch hs.symm.trans ((exec_cpuid_exception h).symm.trans hr)

/-- Settles O51. -/
theorem int7HandlerResumes : Obligations.Int7HandlerResumes :=
  fun s _ _ _ henv hexc => ⟨clearTS s.cr0, step_handlerInt7 henv hexc, clearTS_getLsbD s.cr0⟩

end Sys2Proof.Machine
end
